-- ==== Sys2Proof/Word.lean ====
section
/-! DEFINITION. The bit-vector and byte-string types of the machine (spec/00_scope.md R5, R9; spec/30_encoding.md R71). -/

namespace Sys2Proof

/-- A byte. -/
abbrev Byte := BitVec 8

/-- A register value, an address or an instruction word: 32 bits (`XLEN`, R5). -/
abbrev Word := BitVec 32

/-- A register number, as an instruction field holds it (R71). -/
abbrev Reg := BitVec 5

/-- A hash value: `HASH_BYTES = 32` bytes (R5). -/
abbrev Hash := Vector Byte 32

/-- A preimage key: `KEY_BYTES = 32` bytes (R5, R19). -/
abbrev Key := Vector Byte 32

end Sys2Proof
end

