-- ==== Sys2Proof/Config.lean ====
section
/-! DEFINITION. The configuration record `CFG` of spec/00_scope.md R5, its default, and the uninterpreted hash. -/

namespace Sys2Proof

/-- `DELAY_SLOT_BRANCH` (R5, R162): what a branch or jump in the delay slot of a taken transfer does. -/
inductive DelaySlotPolicy where
  /-- The step fails with `BranchInDelaySlot`. -/
  | fault
  /-- No check: the second transfer is staged like any other. -/
  | sequential
deriving DecidableEq, Repr

/-- The parameters of R5 that are not fixed by the source. `BIG_ENDIAN` has the one specified value `true`
(assumption 15) and `H` is the constant `Config.hash` below, so neither is a field. -/
structure Config where
  sysExit : Word
  sysRead : Word
  sysWrite : Word
  sysBrk : Word
  sysMmap : Word
  sysClone : Word
  sysExitGroup : Word
  fdPreimage : Word
  pageBytes : Word
  cloneResult : Word
  delaySlotBranch : DelaySlotPolicy
  unalignedWordOps : Bool
  heapStart : Word
  entryPc : Word
deriving DecidableEq, Repr

namespace Config

/-- The defaults of R5 and R201. `HEAP_START` and `ENTRY_PC` are open in the spec: the values here are those
spec/95_test_vectors.md uses in its examples (DESIGN CHOICE, assumptions 1 and 2: unsafe). -/
def default : Config where
  sysExit := 4001
  sysRead := 4003
  sysWrite := 4004
  sysBrk := 4045
  sysMmap := 4090
  sysClone := 4120
  sysExitGroup := 4246
  fdPreimage := 5
  pageBytes := 4096
  cloneResult := 1
  delaySlotBranch := .fault
  unalignedWordOps := true
  heapStart := 0x20000000
  entryPc := 0x00400000

/-- `FD_STDIN`, fixed (R5). -/
def fdStdin : Word := 0

/-- `FD_STDOUT`, fixed (R5). -/
def fdStdout : Word := 1

/-- `FD_STDERR`, fixed (R5). -/
def fdStderr : Word := 2

/-- `CHUNK_BYTES`, fixed (R5, R50). -/
def chunkBytes : Nat := 32

/-- `DEPTH`, the number of tree levels above the leaves (R5, R51). -/
def depth : Nat := 27

/-- `H` (R5, D2): an uninterpreted total function from byte strings to 32 bytes. No body: no proof can lean on
a value of it. Every definition that hashes takes the hash as an argument and is instantiated with this constant
where a machine needs one. -/
opaque hash : List Byte → Hash

end Config

end Sys2Proof
end

