-- ==== Sys2Proof/Syntax.lean ====
section
/-! DEFINITION. The instructions: one constructor per row of spec/opcode_table.json, the 57 legal rows of
spec/30_encoding.md R75 and the 13 rows of MIPS-I encodings this hardware rejects (R80). -/

namespace Sys2Proof

/-- One instruction. Operands stand in the order of the assembler syntax of R82; a field the instruction does not
use (R79) is no operand. The rejected rows carry every bit their selector leaves free, because the error they
raise reports the whole word (R250). -/
inductive Instr where
  -- shifts, spec/42_shift.md
  | sll (rd rt : Reg) (shamt : BitVec 5)
  | srl (rd rt : Reg) (shamt : BitVec 5)
  | sra (rd rt : Reg) (shamt : BitVec 5)
  | sllv (rd rt rs : Reg)
  | srlv (rd rt rs : Reg)
  | srav (rd rt rs : Reg)
  -- jumps through a register, spec/44_branch_jump.md
  | jr (rs : Reg)
  | jalr (rd rs : Reg)
  -- system call, spec/46_syscall.md
  | syscall
  -- multiply, divide, hi/lo moves, spec/45_muldiv.md
  | mfhi (rd : Reg)
  | mthi (rs : Reg)
  | mflo (rd : Reg)
  | mtlo (rs : Reg)
  | mult (rs rt : Reg)
  | multu (rs rt : Reg)
  | div (rs rt : Reg)
  | divu (rs rt : Reg)
  -- register-register arithmetic and logic, spec/41_alu.md
  | add (rd rs rt : Reg)
  | addu (rd rs rt : Reg)
  | sub (rd rs rt : Reg)
  | subu (rd rs rt : Reg)
  | and (rd rs rt : Reg)
  | or (rd rs rt : Reg)
  | xor (rd rs rt : Reg)
  | nor (rd rs rt : Reg)
  | slt (rd rs rt : Reg)
  | sltu (rd rs rt : Reg)
  -- conditional branches and jumps, spec/44_branch_jump.md
  | bltz (rs : Reg) (imm : BitVec 16)
  | bgez (rs : Reg) (imm : BitVec 16)
  | bltzal (rs : Reg) (imm : BitVec 16)
  | bgezal (rs : Reg) (imm : BitVec 16)
  | j (target : BitVec 26)
  | jal (target : BitVec 26)
  | beq (rs rt : Reg) (imm : BitVec 16)
  | bne (rs rt : Reg) (imm : BitVec 16)
  | blez (rs : Reg) (imm : BitVec 16)
  | bgtz (rs : Reg) (imm : BitVec 16)
  -- register-immediate arithmetic and logic, spec/41_alu.md
  | addi (rt rs : Reg) (imm : BitVec 16)
  | addiu (rt rs : Reg) (imm : BitVec 16)
  | slti (rt rs : Reg) (imm : BitVec 16)
  | sltiu (rt rs : Reg) (imm : BitVec 16)
  | andi (rt rs : Reg) (imm : BitVec 16)
  | ori (rt rs : Reg) (imm : BitVec 16)
  | xori (rt rs : Reg) (imm : BitVec 16)
  | lui (rt : Reg) (imm : BitVec 16)
  -- loads and stores, spec/43_load_store.md: `mn rt, imm(rs)`
  | lb (rt : Reg) (imm : BitVec 16) (rs : Reg)
  | lh (rt : Reg) (imm : BitVec 16) (rs : Reg)
  | lwl (rt : Reg) (imm : BitVec 16) (rs : Reg)
  | lw (rt : Reg) (imm : BitVec 16) (rs : Reg)
  | lbu (rt : Reg) (imm : BitVec 16) (rs : Reg)
  | lhu (rt : Reg) (imm : BitVec 16) (rs : Reg)
  | lwr (rt : Reg) (imm : BitVec 16) (rs : Reg)
  | sb (rt : Reg) (imm : BitVec 16) (rs : Reg)
  | sh (rt : Reg) (imm : BitVec 16) (rs : Reg)
  | swl (rt : Reg) (imm : BitVec 16) (rs : Reg)
  | sw (rt : Reg) (imm : BitVec 16) (rs : Reg)
  | swr (rt : Reg) (imm : BitVec 16) (rs : Reg)
  -- MIPS-I encodings this hardware rejects, R80
  | breakpoint (code : BitVec 20)
  | cop0 (low : BitVec 26)
  | cop1 (low : BitVec 26)
  | cop2 (low : BitVec 26)
  | cop3 (low : BitVec 26)
  | lwc0 (low : BitVec 26)
  | lwc1 (low : BitVec 26)
  | lwc2 (low : BitVec 26)
  | lwc3 (low : BitVec 26)
  | swc0 (low : BitVec 26)
  | swc1 (low : BitVec 26)
  | swc2 (low : BitVec 26)
  | swc3 (low : BitVec 26)
deriving DecidableEq, Repr

end Sys2Proof
end

