-- ==== Sys2Proof/WellFormed.lean ====
section
/-! DEFINITION. Which instruction terms are instructions of this hardware: the 57 of spec/30_encoding.md R75 under a
configuration, and none of the encodings R80 rejects. -/

namespace Sys2Proof

namespace Instr

/-- `lwl`, `lwr`, `swl`, `swr`: accepted only when `CFG.UNALIGNED_WORD_OPS` is true (R80 item 5). -/
def unalignedWordOp : Instr → Bool
  | .lwl .. | .lwr .. | .swl .. | .swr .. => true
  | .sll .. | .srl .. | .sra .. | .sllv .. | .srlv .. | .srav .. | .jr .. | .jalr .. | .syscall => false
  | .mfhi .. | .mthi .. | .mflo .. | .mtlo .. | .mult .. | .multu .. | .div .. | .divu .. => false
  | .add .. | .addu .. | .sub .. | .subu .. | .and .. | .or .. | .xor .. | .nor .. | .slt .. | .sltu .. => false
  | .bltz .. | .bgez .. | .bltzal .. | .bgezal .. | .j .. | .jal .. | .beq .. | .bne .. | .blez .. | .bgtz .. => false
  | .addi .. | .addiu .. | .slti .. | .sltiu .. | .andi .. | .ori .. | .xori .. | .lui .. => false
  | .lb .. | .lh .. | .lw .. | .lbu .. | .lhu .. | .sb .. | .sh .. | .sw .. => false
  | .breakpoint .. | .cop0 .. | .cop1 .. | .cop2 .. | .cop3 .. => false
  | .lwc0 .. | .lwc1 .. | .lwc2 .. | .lwc3 .. | .swc0 .. | .swc1 .. | .swc2 .. | .swc3 .. => false

/-- The rows of the opcode table marked illegal: `break`, `cop0`..`cop3`, `lwc0`..`lwc3`, `swc0`..`swc3`
(R80 items 2 and 3). -/
def rejectedRow : Instr → Bool
  | .breakpoint .. | .cop0 .. | .cop1 .. | .cop2 .. | .cop3 .. => true
  | .lwc0 .. | .lwc1 .. | .lwc2 .. | .lwc3 .. | .swc0 .. | .swc1 .. | .swc2 .. | .swc3 .. => true
  | .sll .. | .srl .. | .sra .. | .sllv .. | .srlv .. | .srav .. | .jr .. | .jalr .. | .syscall => false
  | .mfhi .. | .mthi .. | .mflo .. | .mtlo .. | .mult .. | .multu .. | .div .. | .divu .. => false
  | .add .. | .addu .. | .sub .. | .subu .. | .and .. | .or .. | .xor .. | .nor .. | .slt .. | .sltu .. => false
  | .bltz .. | .bgez .. | .bltzal .. | .bgezal .. | .j .. | .jal .. | .beq .. | .bne .. | .blez .. | .bgtz .. => false
  | .addi .. | .addiu .. | .slti .. | .sltiu .. | .andi .. | .ori .. | .xori .. | .lui .. => false
  | .lb .. | .lh .. | .lwl .. | .lw .. | .lbu .. | .lhu .. | .lwr .. => false
  | .sb .. | .sh .. | .swl .. | .sw .. | .swr .. => false

/-- The instruction is one of the 57 of R75, under the configuration's `UNALIGNED_WORD_OPS`. Register numbers,
immediates and targets need no check: their types have exactly the widths of R71. -/
def wellFormed (cfg : Config) (i : Instr) : Bool :=
  !i.rejectedRow && (cfg.unalignedWordOps || !i.unalignedWordOp)

end Instr

end Sys2Proof
end

