-- ==== Sys2Proof/Decode.lean ====
section
/-! DEFINITION. The instruction word: its fields, the decoder, the encoder and the opcode table (spec/30_encoding.md).
The numbers are those of R76 to R78 (marked there as general knowledge of MIPS-I: assumption 21). -/

namespace Sys2Proof

/-! ### Fields (R71) -/

/-- `op`, bits 31..26. -/
def opField (w : Word) : BitVec 6 := w.extractLsb' 26 6
/-- `rs`, bits 25..21. -/
def rsField (w : Word) : Reg := w.extractLsb' 21 5
/-- `rt`, bits 20..16. -/
def rtField (w : Word) : Reg := w.extractLsb' 16 5
/-- `rd`, bits 15..11. -/
def rdField (w : Word) : Reg := w.extractLsb' 11 5
/-- `shamt`, bits 10..6. -/
def shamtField (w : Word) : BitVec 5 := w.extractLsb' 6 5
/-- `funct`, bits 5..0. -/
def functField (w : Word) : BitVec 6 := w.extractLsb' 0 6
/-- `imm`, bits 15..0. -/
def immField (w : Word) : BitVec 16 := w.extractLsb' 0 16
/-- `target`, bits 25..0. -/
def targetField (w : Word) : BitVec 26 := w.extractLsb' 0 26
/-- The 20-bit code field of `syscall` and `break`, bits 25..6 (R79). -/
def codeField (w : Word) : BitVec 20 := w.extractLsb' 6 20

/-! ### Decoding (R74 to R80) -/

/-- Why bytes are no row of the opcode table: the empty cell of R76 to R78 they fall in, or fewer than four of
them. -/
inductive Reject where
  /-- An empty cell of the primary table (R76). -/
  | primary (op : BitVec 6)
  /-- An empty cell of the SPECIAL table (R77). -/
  | special (funct : BitVec 6)
  /-- A value of `rt` the REGIMM table does not list (R78). -/
  | regimm (rt : BitVec 5)
  /-- Fewer than the four bytes of an instruction (R70). -/
  | tooFewBytes
deriving DecidableEq, Repr

/-- The SPECIAL table (`op = 0`), selected by `funct` (R77). -/
def decodeSpecial (w : Word) : Except Reject Instr :=
  match functField w with
  | 0#6 => .ok (.sll (rdField w) (rtField w) (shamtField w))
  | 2#6 => .ok (.srl (rdField w) (rtField w) (shamtField w))
  | 3#6 => .ok (.sra (rdField w) (rtField w) (shamtField w))
  | 4#6 => .ok (.sllv (rdField w) (rtField w) (rsField w))
  | 6#6 => .ok (.srlv (rdField w) (rtField w) (rsField w))
  | 7#6 => .ok (.srav (rdField w) (rtField w) (rsField w))
  | 8#6 => .ok (.jr (rsField w))
  | 9#6 => .ok (.jalr (rdField w) (rsField w))
  | 12#6 => .ok .syscall
  | 13#6 => .ok (.breakpoint (codeField w))
  | 16#6 => .ok (.mfhi (rdField w))
  | 17#6 => .ok (.mthi (rsField w))
  | 18#6 => .ok (.mflo (rdField w))
  | 19#6 => .ok (.mtlo (rsField w))
  | 24#6 => .ok (.mult (rsField w) (rtField w))
  | 25#6 => .ok (.multu (rsField w) (rtField w))
  | 26#6 => .ok (.div (rsField w) (rtField w))
  | 27#6 => .ok (.divu (rsField w) (rtField w))
  | 32#6 => .ok (.add (rdField w) (rsField w) (rtField w))
  | 33#6 => .ok (.addu (rdField w) (rsField w) (rtField w))
  | 34#6 => .ok (.sub (rdField w) (rsField w) (rtField w))
  | 35#6 => .ok (.subu (rdField w) (rsField w) (rtField w))
  | 36#6 => .ok (.and (rdField w) (rsField w) (rtField w))
  | 37#6 => .ok (.or (rdField w) (rsField w) (rtField w))
  | 38#6 => .ok (.xor (rdField w) (rsField w) (rtField w))
  | 39#6 => .ok (.nor (rdField w) (rsField w) (rtField w))
  | 42#6 => .ok (.slt (rdField w) (rsField w) (rtField w))
  | 43#6 => .ok (.sltu (rdField w) (rsField w) (rtField w))
  | funct => .error (.special funct)

/-- The REGIMM table (`op = 1`), selected by `rt` (R78). -/
def decodeRegimm (w : Word) : Except Reject Instr :=
  match rtField w with
  | 0#5 => .ok (.bltz (rsField w) (immField w))
  | 1#5 => .ok (.bgez (rsField w) (immField w))
  | 16#5 => .ok (.bltzal (rsField w) (immField w))
  | 17#5 => .ok (.bgezal (rsField w) (immField w))
  | rt => .error (.regimm rt)

/-- The row of the opcode table a word belongs to, by its selector fields alone (R74, R76, R79), or the empty cell
it falls in. -/
def decodeWord (w : Word) : Except Reject Instr :=
  match opField w with
  | 0#6 => decodeSpecial w
  | 1#6 => decodeRegimm w
  | 2#6 => .ok (.j (targetField w))
  | 3#6 => .ok (.jal (targetField w))
  | 4#6 => .ok (.beq (rsField w) (rtField w) (immField w))
  | 5#6 => .ok (.bne (rsField w) (rtField w) (immField w))
  | 6#6 => .ok (.blez (rsField w) (immField w))
  | 7#6 => .ok (.bgtz (rsField w) (immField w))
  | 8#6 => .ok (.addi (rtField w) (rsField w) (immField w))
  | 9#6 => .ok (.addiu (rtField w) (rsField w) (immField w))
  | 10#6 => .ok (.slti (rtField w) (rsField w) (immField w))
  | 11#6 => .ok (.sltiu (rtField w) (rsField w) (immField w))
  | 12#6 => .ok (.andi (rtField w) (rsField w) (immField w))
  | 13#6 => .ok (.ori (rtField w) (rsField w) (immField w))
  | 14#6 => .ok (.xori (rtField w) (rsField w) (immField w))
  | 15#6 => .ok (.lui (rtField w) (immField w))
  | 16#6 => .ok (.cop0 (targetField w))
  | 17#6 => .ok (.cop1 (targetField w))
  | 18#6 => .ok (.cop2 (targetField w))
  | 19#6 => .ok (.cop3 (targetField w))
  | 32#6 => .ok (.lb (rtField w) (immField w) (rsField w))
  | 33#6 => .ok (.lh (rtField w) (immField w) (rsField w))
  | 34#6 => .ok (.lwl (rtField w) (immField w) (rsField w))
  | 35#6 => .ok (.lw (rtField w) (immField w) (rsField w))
  | 36#6 => .ok (.lbu (rtField w) (immField w) (rsField w))
  | 37#6 => .ok (.lhu (rtField w) (immField w) (rsField w))
  | 38#6 => .ok (.lwr (rtField w) (immField w) (rsField w))
  | 40#6 => .ok (.sb (rtField w) (immField w) (rsField w))
  | 41#6 => .ok (.sh (rtField w) (immField w) (rsField w))
  | 42#6 => .ok (.swl (rtField w) (immField w) (rsField w))
  | 43#6 => .ok (.sw (rtField w) (immField w) (rsField w))
  | 46#6 => .ok (.swr (rtField w) (immField w) (rsField w))
  | 48#6 => .ok (.lwc0 (targetField w))
  | 49#6 => .ok (.lwc1 (targetField w))
  | 50#6 => .ok (.lwc2 (targetField w))
  | 51#6 => .ok (.lwc3 (targetField w))
  | 56#6 => .ok (.swc0 (targetField w))
  | 57#6 => .ok (.swc1 (targetField w))
  | 58#6 => .ok (.swc2 (targetField w))
  | 59#6 => .ok (.swc3 (targetField w))
  | op => .error (.primary op)

/-- R74's `decode`: one of the 57 instructions, or none for `IllegalInstruction`. -/
def decode (cfg : Config) (w : Word) : Option Instr :=
  match decodeWord w with
  | .ok i => if i.wellFormed cfg then some i else none
  | .error _ => none

/-! ### Instruction bytes (R45, R70) -/

/-- The word whose bytes, from the lowest address up, are these: the first is the most significant (R45). -/
def wordOfBytes (b0 b1 b2 b3 : Byte) : Word := b0 ++ b1 ++ b2 ++ b3

/-- `byte(w, b) = w[31-8b : 24-8b]`, the byte at offset `b` of a word (R9, R45). -/
def byteOf (w : Word) (b : Nat) : Byte := w.extractLsb' (24 - 8 * b) 8

/-- The four bytes of a word, from the lowest address up (R45). -/
def wordBytes (w : Word) : List Byte := [byteOf w 0, byteOf w 1, byteOf w 2, byteOf w 3]

/-- Decode the instruction at the head of a byte string; the rest of the string follows it. -/
def decodeBytes : List Byte → Except Reject (Instr × List Byte)
  | b0 :: b1 :: b2 :: b3 :: rest =>
    match decodeWord (wordOfBytes b0 b1 b2 b3) with
    | .ok i => .ok (i, rest)
    | .error r => .error r
  | _ => .error .tooFewBytes

/-- The instruction the decoder reads from an instruction whose bits, numbered as the opcode table numbers them,
are `w`: one 32-bit word, laid out in memory order and decoded. -/
def decodeTableWord (nbits w : Nat) : Option Instr :=
  match decodeBytes (wordBytes (BitVec.ofNat 32 (w % 2 ^ nbits))) with
  | .ok (i, _) => some i
  | .error _ => none

/-! ### Encoding (R72, R76 to R79) -/

/-- An R-type word (R72). -/
def rWord (op : BitVec 6) (rs rt rd : Reg) (shamt : BitVec 5) (funct : BitVec 6) : Word :=
  op ++ rs ++ rt ++ rd ++ shamt ++ funct

/-- An I-type word (R72). -/
def iWord (op : BitVec 6) (rs rt : Reg) (imm : BitVec 16) : Word := op ++ rs ++ rt ++ imm

/-- A J-type word (R72). -/
def jWord (op : BitVec 6) (target : BitVec 26) : Word := op ++ target

/-- The word of an instruction, every unused field zero as an assembler emits it (R79). -/
def encode : Instr → Word
  | .sll rd rt shamt => rWord 0 0 rt rd shamt 0
  | .srl rd rt shamt => rWord 0 0 rt rd shamt 2
  | .sra rd rt shamt => rWord 0 0 rt rd shamt 3
  | .sllv rd rt rs => rWord 0 rs rt rd 0 4
  | .srlv rd rt rs => rWord 0 rs rt rd 0 6
  | .srav rd rt rs => rWord 0 rs rt rd 0 7
  | .jr rs => rWord 0 rs 0 0 0 8
  | .jalr rd rs => rWord 0 rs 0 rd 0 9
  | .syscall => rWord 0 0 0 0 0 12
  | .mfhi rd => rWord 0 0 0 rd 0 16
  | .mthi rs => rWord 0 rs 0 0 0 17
  | .mflo rd => rWord 0 0 0 rd 0 18
  | .mtlo rs => rWord 0 rs 0 0 0 19
  | .mult rs rt => rWord 0 rs rt 0 0 24
  | .multu rs rt => rWord 0 rs rt 0 0 25
  | .div rs rt => rWord 0 rs rt 0 0 26
  | .divu rs rt => rWord 0 rs rt 0 0 27
  | .add rd rs rt => rWord 0 rs rt rd 0 32
  | .addu rd rs rt => rWord 0 rs rt rd 0 33
  | .sub rd rs rt => rWord 0 rs rt rd 0 34
  | .subu rd rs rt => rWord 0 rs rt rd 0 35
  | .and rd rs rt => rWord 0 rs rt rd 0 36
  | .or rd rs rt => rWord 0 rs rt rd 0 37
  | .xor rd rs rt => rWord 0 rs rt rd 0 38
  | .nor rd rs rt => rWord 0 rs rt rd 0 39
  | .slt rd rs rt => rWord 0 rs rt rd 0 42
  | .sltu rd rs rt => rWord 0 rs rt rd 0 43
  | .bltz rs imm => iWord 1 rs 0 imm
  | .bgez rs imm => iWord 1 rs 1 imm
  | .bltzal rs imm => iWord 1 rs 16 imm
  | .bgezal rs imm => iWord 1 rs 17 imm
  | .j target => jWord 2 target
  | .jal target => jWord 3 target
  | .beq rs rt imm => iWord 4 rs rt imm
  | .bne rs rt imm => iWord 5 rs rt imm
  | .blez rs imm => iWord 6 rs 0 imm
  | .bgtz rs imm => iWord 7 rs 0 imm
  | .addi rt rs imm => iWord 8 rs rt imm
  | .addiu rt rs imm => iWord 9 rs rt imm
  | .slti rt rs imm => iWord 10 rs rt imm
  | .sltiu rt rs imm => iWord 11 rs rt imm
  | .andi rt rs imm => iWord 12 rs rt imm
  | .ori rt rs imm => iWord 13 rs rt imm
  | .xori rt rs imm => iWord 14 rs rt imm
  | .lui rt imm => iWord 15 0 rt imm
  | .lb rt imm rs => iWord 32 rs rt imm
  | .lh rt imm rs => iWord 33 rs rt imm
  | .lwl rt imm rs => iWord 34 rs rt imm
  | .lw rt imm rs => iWord 35 rs rt imm
  | .lbu rt imm rs => iWord 36 rs rt imm
  | .lhu rt imm rs => iWord 37 rs rt imm
  | .lwr rt imm rs => iWord 38 rs rt imm
  | .sb rt imm rs => iWord 40 rs rt imm
  | .sh rt imm rs => iWord 41 rs rt imm
  | .swl rt imm rs => iWord 42 rs rt imm
  | .sw rt imm rs => iWord 43 rs rt imm
  | .swr rt imm rs => iWord 46 rs rt imm
  | .breakpoint code => (0#6 ++ code ++ 13#6 : BitVec (6 + 20 + 6))
  | .cop0 low => jWord 16 low
  | .cop1 low => jWord 17 low
  | .cop2 low => jWord 18 low
  | .cop3 low => jWord 19 low
  | .lwc0 low => jWord 48 low
  | .lwc1 low => jWord 49 low
  | .lwc2 low => jWord 50 low
  | .lwc3 low => jWord 51 low
  | .swc0 low => jWord 56 low
  | .swc1 low => jWord 57 low
  | .swc2 low => jWord 58 low
  | .swc3 low => jWord 59 low

/-! ### The opcode table (spec/opcode_table.json) -/

/-- One row of the table: a word `w` is the row's instruction exactly when `w &&& mask = pattern`
(spec/INDEX.md, "Keys of opcode_table.json"). -/
structure OpcodeRow where
  mnemonic : String
  mask : Word
  pattern : Word
  legal : Bool
deriving DecidableEq, Repr

/-- The word belongs to the row. -/
def OpcodeRow.fits (row : OpcodeRow) (w : Word) : Bool := w &&& row.mask == row.pattern

/-- The rows selected by `op = 0` and `funct` (R77). -/
def specialRows : List OpcodeRow := [
  ⟨"sll", 0xFC00003F, 0x00000000, true⟩,
  ⟨"srl", 0xFC00003F, 0x00000002, true⟩,
  ⟨"sra", 0xFC00003F, 0x00000003, true⟩,
  ⟨"sllv", 0xFC00003F, 0x00000004, true⟩,
  ⟨"srlv", 0xFC00003F, 0x00000006, true⟩,
  ⟨"srav", 0xFC00003F, 0x00000007, true⟩,
  ⟨"jr", 0xFC00003F, 0x00000008, true⟩,
  ⟨"jalr", 0xFC00003F, 0x00000009, true⟩,
  ⟨"syscall", 0xFC00003F, 0x0000000C, true⟩,
  ⟨"mfhi", 0xFC00003F, 0x00000010, true⟩,
  ⟨"mthi", 0xFC00003F, 0x00000011, true⟩,
  ⟨"mflo", 0xFC00003F, 0x00000012, true⟩,
  ⟨"mtlo", 0xFC00003F, 0x00000013, true⟩,
  ⟨"mult", 0xFC00003F, 0x00000018, true⟩,
  ⟨"multu", 0xFC00003F, 0x00000019, true⟩,
  ⟨"div", 0xFC00003F, 0x0000001A, true⟩,
  ⟨"divu", 0xFC00003F, 0x0000001B, true⟩,
  ⟨"add", 0xFC00003F, 0x00000020, true⟩,
  ⟨"addu", 0xFC00003F, 0x00000021, true⟩,
  ⟨"sub", 0xFC00003F, 0x00000022, true⟩,
  ⟨"subu", 0xFC00003F, 0x00000023, true⟩,
  ⟨"and", 0xFC00003F, 0x00000024, true⟩,
  ⟨"or", 0xFC00003F, 0x00000025, true⟩,
  ⟨"xor", 0xFC00003F, 0x00000026, true⟩,
  ⟨"nor", 0xFC00003F, 0x00000027, true⟩,
  ⟨"slt", 0xFC00003F, 0x0000002A, true⟩,
  ⟨"sltu", 0xFC00003F, 0x0000002B, true⟩,
  ⟨"break", 0xFC00003F, 0x0000000D, false⟩]

/-- The rows selected by `op = 1` and `rt` (R78). -/
def regimmRows : List OpcodeRow := [
  ⟨"bltz", 0xFC1F0000, 0x04000000, true⟩,
  ⟨"bgez", 0xFC1F0000, 0x04010000, true⟩,
  ⟨"bltzal", 0xFC1F0000, 0x04100000, true⟩,
  ⟨"bgezal", 0xFC1F0000, 0x04110000, true⟩]

/-- The legal rows selected by `op` alone (R76). -/
def primaryRows : List OpcodeRow := [
  ⟨"j", 0xFC000000, 0x08000000, true⟩,
  ⟨"jal", 0xFC000000, 0x0C000000, true⟩,
  ⟨"beq", 0xFC000000, 0x10000000, true⟩,
  ⟨"bne", 0xFC000000, 0x14000000, true⟩,
  ⟨"blez", 0xFC000000, 0x18000000, true⟩,
  ⟨"bgtz", 0xFC000000, 0x1C000000, true⟩,
  ⟨"addi", 0xFC000000, 0x20000000, true⟩,
  ⟨"addiu", 0xFC000000, 0x24000000, true⟩,
  ⟨"slti", 0xFC000000, 0x28000000, true⟩,
  ⟨"sltiu", 0xFC000000, 0x2C000000, true⟩,
  ⟨"andi", 0xFC000000, 0x30000000, true⟩,
  ⟨"ori", 0xFC000000, 0x34000000, true⟩,
  ⟨"xori", 0xFC000000, 0x38000000, true⟩,
  ⟨"lui", 0xFC000000, 0x3C000000, true⟩,
  ⟨"lb", 0xFC000000, 0x80000000, true⟩,
  ⟨"lh", 0xFC000000, 0x84000000, true⟩,
  ⟨"lwl", 0xFC000000, 0x88000000, true⟩,
  ⟨"lw", 0xFC000000, 0x8C000000, true⟩,
  ⟨"lbu", 0xFC000000, 0x90000000, true⟩,
  ⟨"lhu", 0xFC000000, 0x94000000, true⟩,
  ⟨"lwr", 0xFC000000, 0x98000000, true⟩,
  ⟨"sb", 0xFC000000, 0xA0000000, true⟩,
  ⟨"sh", 0xFC000000, 0xA4000000, true⟩,
  ⟨"swl", 0xFC000000, 0xA8000000, true⟩,
  ⟨"sw", 0xFC000000, 0xAC000000, true⟩,
  ⟨"swr", 0xFC000000, 0xB8000000, true⟩]

/-- The coprocessor rows, selected by `op` alone, which this hardware rejects (R80 item 3). -/
def coprocessorRows : List OpcodeRow := [
  ⟨"cop0", 0xFC000000, 0x40000000, false⟩,
  ⟨"cop1", 0xFC000000, 0x44000000, false⟩,
  ⟨"cop2", 0xFC000000, 0x48000000, false⟩,
  ⟨"cop3", 0xFC000000, 0x4C000000, false⟩,
  ⟨"lwc0", 0xFC000000, 0xC0000000, false⟩,
  ⟨"lwc1", 0xFC000000, 0xC4000000, false⟩,
  ⟨"lwc2", 0xFC000000, 0xC8000000, false⟩,
  ⟨"lwc3", 0xFC000000, 0xCC000000, false⟩,
  ⟨"swc0", 0xFC000000, 0xE0000000, false⟩,
  ⟨"swc1", 0xFC000000, 0xE4000000, false⟩,
  ⟨"swc2", 0xFC000000, 0xE8000000, false⟩,
  ⟨"swc3", 0xFC000000, 0xEC000000, false⟩]

/-- The whole table, 70 rows. -/
def opcodeTable : List OpcodeRow := specialRows ++ regimmRows ++ primaryRows ++ coprocessorRows

/-- The mnemonic of an instruction, as the table spells it. -/
def Instr.mnemonic : Instr → String
  | .sll .. => "sll"
  | .srl .. => "srl"
  | .sra .. => "sra"
  | .sllv .. => "sllv"
  | .srlv .. => "srlv"
  | .srav .. => "srav"
  | .jr .. => "jr"
  | .jalr .. => "jalr"
  | .syscall => "syscall"
  | .mfhi .. => "mfhi"
  | .mthi .. => "mthi"
  | .mflo .. => "mflo"
  | .mtlo .. => "mtlo"
  | .mult .. => "mult"
  | .multu .. => "multu"
  | .div .. => "div"
  | .divu .. => "divu"
  | .add .. => "add"
  | .addu .. => "addu"
  | .sub .. => "sub"
  | .subu .. => "subu"
  | .and .. => "and"
  | .or .. => "or"
  | .xor .. => "xor"
  | .nor .. => "nor"
  | .slt .. => "slt"
  | .sltu .. => "sltu"
  | .bltz .. => "bltz"
  | .bgez .. => "bgez"
  | .bltzal .. => "bltzal"
  | .bgezal .. => "bgezal"
  | .j .. => "j"
  | .jal .. => "jal"
  | .beq .. => "beq"
  | .bne .. => "bne"
  | .blez .. => "blez"
  | .bgtz .. => "bgtz"
  | .addi .. => "addi"
  | .addiu .. => "addiu"
  | .slti .. => "slti"
  | .sltiu .. => "sltiu"
  | .andi .. => "andi"
  | .ori .. => "ori"
  | .xori .. => "xori"
  | .lui .. => "lui"
  | .lb .. => "lb"
  | .lh .. => "lh"
  | .lwl .. => "lwl"
  | .lw .. => "lw"
  | .lbu .. => "lbu"
  | .lhu .. => "lhu"
  | .lwr .. => "lwr"
  | .sb .. => "sb"
  | .sh .. => "sh"
  | .swl .. => "swl"
  | .sw .. => "sw"
  | .swr .. => "swr"
  | .breakpoint .. => "break"
  | .cop0 .. => "cop0"
  | .cop1 .. => "cop1"
  | .cop2 .. => "cop2"
  | .cop3 .. => "cop3"
  | .lwc0 .. => "lwc0"
  | .lwc1 .. => "lwc1"
  | .lwc2 .. => "lwc2"
  | .lwc3 .. => "lwc3"
  | .swc0 .. => "swc0"
  | .swc1 .. => "swc1"
  | .swc2 .. => "swc2"
  | .swc3 .. => "swc3"

end Sys2Proof
end

