-- ==== Sys2Proof/Machine/State.lean ====
section
/-! DEFINITION. The machine's state as plain data, the reasons a step can stop, and the state right after load
(spec/10_state.md R10 to R19, spec/60_exceptions.md R250, spec/70_reset_and_hazards.md R282). -/

namespace Sys2Proof.Machine

/-- The byte-addressed content of the one address space (R40): `(address, byte)` pairs; an address not listed reads
as `Memory.unwritten`. Its canonical form is `Memory.wf` of Machine/Memory.lean. -/
abbrev Memory := List Host.Cell

/-- The oracle's answers (R220): a finite table from keys to values, the first entry of a key counting
(assumption 4). -/
abbrev Oracle := List (Key × List Byte)

/-- The complete architectural state of R10, and beside it what the step takes as parameters (`cfg`, `oracle`) and
what it emits (`sink1`, `sink2`): R10 says these four are not state of the hardware, and the model carries them as
plain data because the host's `step` has no other argument and no other result (assumptions 3, 4 and 6). -/
structure State where
  /-- `Mem` (R10, R40, R41). -/
  mem : Memory
  /-- The 32 slots `x[0]`..`x[31]` (R11); every read and write goes through `State.reg` and `State.setReg`. -/
  regs : Vector Word 32
  /-- `hi` (R14). -/
  hi : Word
  /-- `lo` (R14). -/
  lo : Word
  /-- `PC` (R12). -/
  pc : Word
  /-- `NextPC` (R13). -/
  nextPc : Word
  /-- The step counter `step` (R17). -/
  stepCount : BitVec 64
  /-- `exited` (R15). -/
  exited : Bool
  /-- `exit_code` (R16). -/
  exitCode : Byte
  /-- The heap cursor `heap` (R18). -/
  heap : Word
  /-- The preimage key `pkey` (R19). -/
  pkey : Key
  /-- The preimage offset `poff` (R19). -/
  poff : Word
  /-- The configuration record `CFG` (R5). -/
  cfg : Config
  /-- The oracle of the run (R220). -/
  oracle : Oracle
  /-- The bytes emitted to sink 1, stdout, so far (R7, R212). -/
  sink1 : List Byte
  /-- The bytes emitted to sink 2, stderr, so far (R7, R212). -/
  sink2 : List Byte
deriving DecidableEq, Repr

/-- The six fatal errors of R250, each with the information it carries. A fault carries no state: the failed step
leaves the state as it was (R97, R251). -/
inductive Fault where
  /-- Raised by the fetch at a `PC` that is not a multiple of 4 (R92) and by `lh`, `lhu`, `sh`, `lw`, `sw` at a
  misaligned address (R142). Safe: the spec names the failure. -/
  | misalignedAccess (addr : Word)
  /-- Raised by the step for every word outside the 57 instructions (R80, R94), the rejected rows of the opcode
  table included. Safe: the spec names the failure. -/
  | illegalInstruction (word : Word)
  /-- Raised by `syscall` for a number outside the seven (R202; `fd` absent) or a descriptor outside the emulated
  ones (R208, R210; `fd` present). Safe: the spec names the failure. -/
  | unsupportedSyscall (num : Word) (fd : Option Word)
  /-- Raised by `read` on the preimage descriptor when the oracle lacks the key (R221). Safe: the spec names the
  failure. -/
  | oracleMiss (key : Key)
  /-- Raised by the 12 branches and jumps when `NextPC ≠ PC + 4` under the policy `fault` (R162). Safe: the spec
  names the failure. -/
  | branchInDelaySlot (pc : Word)
  /-- Raised by `div` and `divu` with a zero divisor (R183, R184). Safe: the spec names the failure. -/
  | divideByZero (pc : Word)
deriving DecidableEq, Repr

/-- Why a step has neither a next state nor an error. No arm of `exec` answers with it: every row of the table has a
meaning. -/
inductive Refusal where
  /-- Raised by `step` alone, on a state with `exited` true: the outcome *halted* of R90 and R91. No error, nothing changes,
  and the state is final, without a successor (assumption 7). Safe: the spec names the outcome. -/
  | halted
  /-- Raised by an arm of `exec` that has no meaning yet. Safe: the model stops where the hardware goes on. -/
  | notModelled (mnemonic : String)
deriving DecidableEq, Repr

/-- What one instruction or one step answers. -/
abbrev Result := Host.Outcome State Fault Refusal

/-- The state the load port hands over when the loader is silent (R280, R282): no memory written, `PC` at
`CFG.ENTRY_PC`, `NextPC` four past it, `heap` at `CFG.HEAP_START`, everything else zero, no oracle, empty sinks
(assumptions 1, 2 and 12: unsafe, the spec fixes none of these values beyond the alignment of R281). -/
def State.reset : State where
  mem := []
  regs := Vector.replicate 32 0
  hi := 0
  lo := 0
  pc := Config.default.entryPc
  nextPc := Config.default.entryPc + 4#32
  stepCount := 0
  exited := false
  exitCode := 0
  heap := Config.default.heapStart
  pkey := Vector.replicate 32 0
  poff := 0
  cfg := Config.default
  oracle := []
  sink1 := []
  sink2 := []

end Sys2Proof.Machine
end

