-- ==== Sys2Proof/Machine/Memory.lean ====
section
/-! DEFINITION. Memory (spec/20_memory.md): bytes, the word primitives of R43 and R44, the sub-word accesses of R47
and R48, the load port's `set_range` (R46). -/

namespace Sys2Proof.Machine

namespace Memory

/-- What an address never written reads as (R41). -/
def unwritten : Byte := 0#8

/-- The byte at an address. -/
def readByte : Memory → Nat → Byte
  | [], _ => unwritten
  | c :: m, a => if c.1 = a then c.2 else readByte m a

/-- The memory without any entry for an address. -/
def erase (m : Memory) (a : Nat) : Memory := m.filter fun c => c.1 != a

/-- The memory with one more entry, placed before the first entry of a higher address. -/
def insert : Memory → Nat → Byte → Memory
  | [], a, v => [(a, v)]
  | c :: m, a, v => if a < c.1 then (a, v) :: c :: m else c :: insert m a v

/-- The memory after one byte is written. Writing what an unwritten address reads as removes the entry, so a byte
written with 0 is indistinguishable from one never written (R44). -/
def writeByte (m : Memory) (a : Nat) (v : Byte) : Memory :=
  if v = unwritten then erase m a else insert (erase m a) a v

/-- Strictly rising addresses from `lo` up, all below 2^32 (R40), no entry equal to an unwritten byte. -/
def wfFrom : Nat → Memory → Bool
  | _, [] => true
  | lo, c :: m => decide (lo ≤ c.1) && decide (c.1 < 2 ^ 32) && c.2 != unwritten && wfFrom (c.1 + 1) m

/-- The canonical form: equal contents are equal lists. -/
def wf (m : Memory) : Bool := wfFrom 0 m

/-! ### Words (R40, R43 to R45) -/

/-- The address of the aligned word containing a byte address: `a & 0xFFFFFFFC` (R40). -/
def wordBase (a : Word) : Word := a &&& 0xFFFFFFFC#32

/-- The offset `a & 3` of a byte address inside its word (R45). -/
def offset (a : Word) : Nat := (a &&& 3#32).toNat

/-- The word containing a byte address, its first byte the most significant (R40, R45). -/
def wordAt (m : Memory) (a : Word) : Word :=
  let base := (wordBase a).toNat
  wordOfBytes (readByte m base) (readByte m (base + 1)) (readByte m (base + 2)) (readByte m (base + 3))

/-- The memory with the word containing a byte address replaced. -/
def setWordAt (m : Memory) (a : Word) (v : Word) : Memory :=
  let base := (wordBase a).toNat
  writeByte (writeByte (writeByte (writeByte m base (byteOf v 0)) (base + 1) (byteOf v 1)) (base + 2) (byteOf v 2))
    (base + 3) (byteOf v 3)

/-- `read_word(addr)` (R43). -/
def readWord (m : Memory) (a : Word) : Except Fault Word :=
  if a &&& 3#32 = 0#32 then .ok (wordAt m a) else .error (.misalignedAccess a)

/-- `write_word(addr, value)` (R44). -/
def writeWord (m : Memory) (a : Word) (v : Word) : Except Fault Memory :=
  if a &&& 3#32 = 0#32 then .ok (setWordAt m a v) else .error (.misalignedAccess a)

/-! ### Bytes and halfwords inside a word (R45, R47, R48) -/

/-- `w[lo+len-1 : lo] <- v`: the word with a slice replaced (R9). -/
def setSlice {len : Nat} (w : Word) (lo : Nat) (v : BitVec len) : Word :=
  (w &&& ~~~((BitVec.allOnes len).setWidth 32 <<< lo)) ||| (v.setWidth 32 <<< lo)

/-- The word with the byte at offset `b` replaced: `w[31-8b : 24-8b] <- v` (R48). -/
def setByteOf (w : Word) (b : Nat) (v : Byte) : Word := setSlice w (24 - 8 * b) v

/-- `w[31-8b : 16-8b]`, the halfword at the even offset `b` (R45, R47). -/
def halfOf (w : Word) (b : Nat) : BitVec 16 := w.extractLsb' (16 - 8 * b) 16

/-- The word with the halfword at the even offset `b` replaced (R48). -/
def setHalfOf (w : Word) (b : Nat) (v : BitVec 16) : Word := setSlice w (16 - 8 * b) v

/-- The word with the bytes from offset `b` on replaced by a byte string, in address order (R222). -/
def setBytesOf : Word → Nat → List Byte → Word
  | w, _, [] => w
  | w, b, v :: vs => setBytesOf (setByteOf w b v) (b + 1) vs

/-! ### `MemRead` and `MemWrite` (R47 to R49) -/

/-- `MemRead(addr, 1)`: never misaligned. -/
def memReadByte (m : Memory) (addr : Word) : Byte := byteOf (wordAt m addr) (offset addr)

/-- `MemRead(addr, 2)`. -/
def memReadHalf (m : Memory) (addr : Word) : Except Fault (BitVec 16) :=
  if addr &&& 1#32 = 0#32 then .ok (halfOf (wordAt m addr) (offset addr)) else .error (.misalignedAccess addr)

/-- `MemRead(addr, 4)`. -/
def memReadWord (m : Memory) (addr : Word) : Except Fault Word := readWord m addr

/-- `MemWrite(addr, 1, v)`: never misaligned. -/
def memWriteByte (m : Memory) (addr : Word) (v : Byte) : Memory :=
  setWordAt m addr (setByteOf (wordAt m addr) (offset addr) v)

/-- `MemWrite(addr, 2, v)`. -/
def memWriteHalf (m : Memory) (addr : Word) (v : BitVec 16) : Except Fault Memory :=
  if addr &&& 1#32 = 0#32 then .ok (setWordAt m addr (setHalfOf (wordAt m addr) (offset addr) v))
  else .error (.misalignedAccess addr)

/-- `MemWrite(addr, 4, v)`. -/
def memWriteWord (m : Memory) (addr : Word) (v : Word) : Except Fault Memory := writeWord m addr v

/-! ### Byte strings -/

/-- The `n` bytes at byte addresses `a`, `a+1`, ..., modulo 2^32 (R212). -/
def readBytes (m : Memory) (a : Word) : Nat → List Byte
  | 0 => []
  | n + 1 => readByte m a.toNat :: readBytes m (a + 1#32) n

/-- The bytes of a string written at `a`, `a+1`, ... (R46). -/
def storeBytes : Memory → Nat → List Byte → Memory
  | m, _, [] => m
  | m, a, v :: vs => storeBytes (writeByte m a v) (a + 1) vs

/-- `set_range(addr, bytes)`, the load port's primitive: a range that would pass `0xFFFFFFFF` is refused (R46). -/
def setRange (m : Memory) (a : Word) (bytes : List Byte) : Option Memory :=
  if a.toNat + bytes.length ≤ 2 ^ 32 then some (storeBytes m a.toNat bytes) else none

end Memory

end Sys2Proof.Machine
end

