-- ==== Sys2Proof/Machine/Ops.lean ====
section
/-! DEFINITION. The named operations over the state: registers (spec/10_state.md R11), the fetch, the retirement and
the failure of a step (spec/40_step_cycle.md R92, R93, R95 to R97), the sinks and the oracle. -/

namespace Sys2Proof.Machine

namespace State

/-! ### General registers -/

/-- `x[r]`: register 0 reads as zero (R11). -/
def reg (s : State) (r : Reg) : Word := if r = 0#5 then 0#32 else s.regs[r.toNat]'r.isLt

/-- `x[r] <- v`: a write to register 0 is discarded (R11). -/
def setReg (s : State) (r : Reg) (v : Word) : State :=
  if r = 0#5 then s else { s with regs := s.regs.set r.toNat v r.isLt }

/-! ### Retirement (R95, R96, R98) -/

/-- R96: `PC <- NextPC`, `NextPC <- nextPc'`, `step <- step + 1`, and slot 0 of the register file is zero (R98).
`nextPc'` is the staged value of R95. -/
def retire (s : State) (nextPc' : Word) : State :=
  { s with pc := s.nextPc, nextPc := nextPc', stepCount := s.stepCount + 1#64, regs := s.regs.set 0 0#32 }

/-- Retirement in sequence: `NextPC' = NextPC + 4`, the staged value no transfer replaced (R95). -/
def advance (s : State) : State := s.retire (s.nextPc + 4#32)

/-! ### Memory, outputs, oracle -/

/-- The state with its memory replaced. -/
def setMem (s : State) (m : Memory) : State := { s with mem := m }

/-- Bytes emitted to sink 1 or, for any other descriptor, sink 2 (R212). -/
def emit (s : State) (fd : Word) (bytes : List Byte) : State :=
  if fd = Config.fdStdout then { s with sink1 := s.sink1 ++ bytes } else { s with sink2 := s.sink2 ++ bytes }

end State

/-- `get_preimage(key)` (R220): the value of a key, or none. -/
def Oracle.get : Oracle → Key → Option (List Byte)
  | [], _ => none
  | e :: o, k => if e.1 = k then some e.2 else Oracle.get o k

/-! ### Outcomes of the execute phase -/

/-- R97, R251, R261: a failure saves nothing, changes nothing and transfers control nowhere. This hardware has no
exception entry and no return from one (R261, R262): this is all that raising an error does. -/
def raise (e : Fault) : Result := .fault e

/-- The instruction is done and control goes on in sequence. -/
def complete (s : State) : Result := .next s.advance

/-- The instruction is done and has staged `target` as `NextPC'` (R160). -/
def completeTo (target : Word) (s : State) : Result := .next (s.retire target)

/-- R92 and R93: the PC check, then `read_word(PC)`. -/
def fetch (s : State) : Except Fault Word := s.mem.readWord s.pc

end Sys2Proof.Machine
end

