-- ==== Sys2Proof/Machine/Operands.lean ====
section
/-! DEFINITION. Every operand form of the instruction set (spec/30_encoding.md R73): immediates, effective addresses,
shift amounts, branch and jump targets, the link address. -/

namespace Sys2Proof.Machine

/-- `sext_16(imm)` (R9). -/
def sext16 (imm : BitVec 16) : Word := imm.signExtend 32

/-- `zext_16(imm)` (R9). -/
def zext16 (imm : BitVec 16) : Word := imm.setWidth 32

/-- `imm ++ 0x0000`, the operand of `lui` (R73). -/
def upperImm (imm : BitVec 16) : Word := imm ++ 0#16

/-- `sext_8` of a loaded byte (R9). -/
def sext8 (b : Byte) : Word := b.signExtend 32

/-- `zext_8` of a loaded byte (R9). -/
def zext8 (b : Byte) : Word := b.setWidth 32

/-- The one addressing mode: `x[rs] + sext_16(imm)`, modulo 2^32 (R140). -/
def effAddr (s : State) (rs : Reg) (imm : BitVec 16) : Word := s.reg rs + sext16 imm

/-- `x[rs][4:0]`, the amount of a variable shift (R73, R130). -/
def shiftAmount (s : State) (rs : Reg) : Nat := ((s.reg rs).extractLsb' 0 5).toNat

/-- `PC + 4 + (sext_16(imm) << 2)`, the target of a conditional branch at `pc` (R161). -/
def branchTarget (pc : Word) (imm : BitVec 16) : Word := pc + 4#32 + (sext16 imm <<< 2)

/-- `(PC + 4)[31:28] ++ target ++ 00`, the target of `j` and `jal` at `pc` (R161). -/
def jumpTarget (pc : Word) (target : BitVec 26) : Word := (pc + 4#32).extractLsb' 28 4 ++ target ++ 0#2

/-- `PC + 8`, the link address (R161). -/
def linkAddr (pc : Word) : Word := pc + 8#32

end Sys2Proof.Machine
end

