-- ==== Sys2Proof/Machine/Flags.lean ====
section
/-! DEFINITION. Comparisons. This hardware has no condition codes and no instruction writes a flag (spec/10_state.md
R15; the one flag of the state, `exited`, is written by system calls alone): compare results go to general registers
and branches compare registers directly. -/

namespace Sys2Proof.Machine

/-- `1 if c else 0`, the result of a compare instruction (R119). -/
def boolWord (c : Bool) : Word := if c then 1#32 else 0#32

/-- `signed(a) < signed(b)` (R9). -/
def lessSigned (a b : Word) : Bool := decide (a.toInt < b.toInt)

/-- `a <u b` (R9). -/
def lessUnsigned (a b : Word) : Bool := decide (a.toNat < b.toNat)

/-- `v[31] = 1`, that is `signed(v) < 0` (R171). -/
def isNegative (v : Word) : Bool := v.getLsbD 31

end Sys2Proof.Machine
end

