-- ==== Sys2Proof/Machine/Alu.lean ====
section
/-! DEFINITION. Arithmetic and logical instructions (spec/41_alu.md R110 to R129). Each reads its sources before it
writes its one destination and retires in sequence (R110); nothing traps on overflow (R129). -/

namespace Sys2Proof.Machine

/-- R110, register-register: `x[rd] <- f(x[rs], x[rt])`. -/
def aluReg (f : Word → Word → Word) (rd rs rt : Reg) (s : State) : Result :=
  complete (s.setReg rd (f (s.reg rs) (s.reg rt)))

/-- R110, register-immediate: `x[rt] <- f(x[rs], operand)`. -/
def aluImm (f : Word → Word → Word) (rt rs : Reg) (operand : Word) (s : State) : Result :=
  complete (s.setReg rt (f (s.reg rs) operand))

/-- R111, `add`: `x[rd] <- x[rs] + x[rt]`, modulo 2^32, no trap (R129). -/
def execAdd (rd rs rt : Reg) (s : State) : Result := aluReg (fun a b => a + b) rd rs rt s

/-- R112, `addu`: `x[rd] <- x[rs] + x[rt]`, modulo 2^32. -/
def execAddu (rd rs rt : Reg) (s : State) : Result := aluReg (fun a b => a + b) rd rs rt s

/-- R113, `sub`: `x[rd] <- x[rs] - x[rt]`, modulo 2^32, no trap (R129). -/
def execSub (rd rs rt : Reg) (s : State) : Result := aluReg (fun a b => a - b) rd rs rt s

/-- R114, `subu`: `x[rd] <- x[rs] - x[rt]`, modulo 2^32. -/
def execSubu (rd rs rt : Reg) (s : State) : Result := aluReg (fun a b => a - b) rd rs rt s

/-- R115, `and`: `x[rd] <- x[rs] & x[rt]`. -/
def execAnd (rd rs rt : Reg) (s : State) : Result := aluReg (fun a b => a &&& b) rd rs rt s

/-- R116, `or`: `x[rd] <- x[rs] | x[rt]`. -/
def execOr (rd rs rt : Reg) (s : State) : Result := aluReg (fun a b => a ||| b) rd rs rt s

/-- R117, `xor`: `x[rd] <- x[rs] ^ x[rt]`. -/
def execXor (rd rs rt : Reg) (s : State) : Result := aluReg (fun a b => a ^^^ b) rd rs rt s

/-- R118, `nor`: `x[rd] <- ~(x[rs] | x[rt])`. -/
def execNor (rd rs rt : Reg) (s : State) : Result := aluReg (fun a b => ~~~(a ||| b)) rd rs rt s

/-- R119, `slt`: `x[rd] <- 1 if signed(x[rs]) < signed(x[rt]) else 0`. -/
def execSlt (rd rs rt : Reg) (s : State) : Result := aluReg (fun a b => boolWord (lessSigned a b)) rd rs rt s

/-- R120, `sltu`: `x[rd] <- 1 if x[rs] <u x[rt] else 0`. -/
def execSltu (rd rs rt : Reg) (s : State) : Result := aluReg (fun a b => boolWord (lessUnsigned a b)) rd rs rt s

/-- R121, `addi`: `x[rt] <- x[rs] + sext_16(imm)`, modulo 2^32, no trap (R129). -/
def execAddi (rt rs : Reg) (imm : BitVec 16) (s : State) : Result :=
  aluImm (fun a b => a + b) rt rs (sext16 imm) s

/-- R122, `addiu`: `x[rt] <- x[rs] + sext_16(imm)`, modulo 2^32. -/
def execAddiu (rt rs : Reg) (imm : BitVec 16) (s : State) : Result :=
  aluImm (fun a b => a + b) rt rs (sext16 imm) s

/-- R123, `slti`: `x[rt] <- 1 if signed(x[rs]) < signed(sext_16(imm)) else 0`. -/
def execSlti (rt rs : Reg) (imm : BitVec 16) (s : State) : Result :=
  aluImm (fun a b => boolWord (lessSigned a b)) rt rs (sext16 imm) s

/-- R124, `sltiu`: `x[rt] <- 1 if x[rs] <u sext_16(imm) else 0`. -/
def execSltiu (rt rs : Reg) (imm : BitVec 16) (s : State) : Result :=
  aluImm (fun a b => boolWord (lessUnsigned a b)) rt rs (sext16 imm) s

/-- R125, `andi`: `x[rt] <- x[rs] & zext_16(imm)`. -/
def execAndi (rt rs : Reg) (imm : BitVec 16) (s : State) : Result :=
  aluImm (fun a b => a &&& b) rt rs (zext16 imm) s

/-- R126, `ori`: `x[rt] <- x[rs] | zext_16(imm)`. -/
def execOri (rt rs : Reg) (imm : BitVec 16) (s : State) : Result :=
  aluImm (fun a b => a ||| b) rt rs (zext16 imm) s

/-- R127, `xori`: `x[rt] <- x[rs] ^ zext_16(imm)`. -/
def execXori (rt rs : Reg) (imm : BitVec 16) (s : State) : Result :=
  aluImm (fun a b => a ^^^ b) rt rs (zext16 imm) s

/-- R128, `lui`: `x[rt] <- imm ++ 0x0000`. -/
def execLui (rt : Reg) (imm : BitVec 16) (s : State) : Result := complete (s.setReg rt (upperImm imm))

end Sys2Proof.Machine
end

