-- ==== Sys2Proof/Machine/Branch.lean ====
section
/-! DEFINITION. Branch and jump instructions (spec/44_branch_jump.md R160 to R177): a taken transfer stages its target
into `NextPC`, and the delay slot at the old `NextPC` always executes. -/

namespace Sys2Proof.Machine

/-- The check of R162, the first action of each of the 12 instructions of this file. -/
def transferCheck (s : State) (r : Result) : Result :=
  if s.cfg.delaySlotBranch = .fault ∧ s.nextPc ≠ s.pc + 4#32 then raise (.branchInDelaySlot s.pc) else r

/-- A conditional branch (R160): taken, it stages `PC + 4 + (sext_16(imm) << 2)`; not taken, control goes on in
sequence. The condition `c` and the branch's address are those of `s`, before any link is written into `t`. -/
def branchIf (c : Bool) (imm : BitVec 16) (s t : State) : Result :=
  if c then completeTo (branchTarget s.pc imm) t else complete t

/-- The state with the link address of the instruction at `PC` in a register (R161, R175). -/
def link (r : Reg) (s : State) : State := s.setReg r (linkAddr s.pc)

/-- Register 31, the link register of `jal`, `bltzal`, `bgezal` (R175). -/
def linkReg : Reg := 31#5

/-! ### Jumps -/

/-- R163, `j`. -/
def execJ (target : BitVec 26) (s : State) : Result :=
  transferCheck s (completeTo (jumpTarget s.pc target) s)

/-- R164, `jal`: `x[31] <- PC + 8`. -/
def execJal (target : BitVec 26) (s : State) : Result :=
  transferCheck s (completeTo (jumpTarget s.pc target) (link linkReg s))

/-- R165, `jr`: the target is staged unchecked (R172). -/
def execJr (rs : Reg) (s : State) : Result := transferCheck s (completeTo (s.reg rs) s)

/-- R166, `jalr`: the target is read before the link is written. -/
def execJalr (rd rs : Reg) (s : State) : Result := transferCheck s (completeTo (s.reg rs) (link rd s))

/-! ### Conditional branches -/

/-- R167, `beq`: taken if `x[rs] = x[rt]`. -/
def execBeq (rs rt : Reg) (imm : BitVec 16) (s : State) : Result :=
  transferCheck s (branchIf (s.reg rs == s.reg rt) imm s s)

/-- R168, `bne`: taken if `x[rs] != x[rt]`. -/
def execBne (rs rt : Reg) (imm : BitVec 16) (s : State) : Result :=
  transferCheck s (branchIf (s.reg rs != s.reg rt) imm s s)

/-- R169, `blez`: taken if `x[rs] = 0` or `x[rs][31] = 1`. -/
def execBlez (rs : Reg) (imm : BitVec 16) (s : State) : Result :=
  transferCheck s (branchIf (s.reg rs == 0#32 || isNegative (s.reg rs)) imm s s)

/-- R170, `bgtz`: taken if `x[rs] != 0` and `x[rs][31] = 0`. -/
def execBgtz (rs : Reg) (imm : BitVec 16) (s : State) : Result :=
  transferCheck s (branchIf (s.reg rs != 0#32 && !isNegative (s.reg rs)) imm s s)

/-- R171, `bltz`: taken if `x[rs][31] = 1`. -/
def execBltz (rs : Reg) (imm : BitVec 16) (s : State) : Result :=
  transferCheck s (branchIf (isNegative (s.reg rs)) imm s s)

/-- R173, `bgez`: taken if `x[rs][31] = 0`. -/
def execBgez (rs : Reg) (imm : BitVec 16) (s : State) : Result :=
  transferCheck s (branchIf (!isNegative (s.reg rs)) imm s s)

/-- R174, `bltzal`: the link is written whether or not the branch is taken, after the old `x[rs]` is tested. -/
def execBltzal (rs : Reg) (imm : BitVec 16) (s : State) : Result :=
  transferCheck s (branchIf (isNegative (s.reg rs)) imm s (link linkReg s))

/-- R177, `bgezal`: as `bltzal`, taken if `x[rs][31] = 0`. -/
def execBgezal (rs : Reg) (imm : BitVec 16) (s : State) : Result :=
  transferCheck s (branchIf (!isNegative (s.reg rs)) imm s (link linkReg s))

end Sys2Proof.Machine
end

