-- ==== Sys2Proof/Machine/Illegal.lean ====
section
/-! DEFINITION. The 13 rows of the opcode table this hardware rejects (spec/30_encoding.md R80): each raises
`IllegalInstruction` with the instruction word, whatever the state (assumption 10). -/

namespace Sys2Proof.Machine

/-- The failure of R80 and R94: `IllegalInstruction(insn)`. -/
def rejectWord (i : Instr) : Result := raise (.illegalInstruction (encode i))

/-- R80 item 2, `break`: there is no trap mechanism to deliver it to. -/
def execBreak (code : BitVec 20) (_s : State) : Result := rejectWord (.breakpoint code)

/-- R80 item 3, `cop0`: there is no coprocessor. -/
def execCop0 (low : BitVec 26) (_s : State) : Result := rejectWord (.cop0 low)

/-- R80 item 3, `cop1`: there is no coprocessor. -/
def execCop1 (low : BitVec 26) (_s : State) : Result := rejectWord (.cop1 low)

/-- R80 item 3, `cop2`: there is no coprocessor. -/
def execCop2 (low : BitVec 26) (_s : State) : Result := rejectWord (.cop2 low)

/-- R80 item 3, `cop3`: there is no coprocessor. -/
def execCop3 (low : BitVec 26) (_s : State) : Result := rejectWord (.cop3 low)

/-- R80 item 3, `lwc0`: there is no coprocessor. -/
def execLwc0 (low : BitVec 26) (_s : State) : Result := rejectWord (.lwc0 low)

/-- R80 item 3, `lwc1`: there is no coprocessor. -/
def execLwc1 (low : BitVec 26) (_s : State) : Result := rejectWord (.lwc1 low)

/-- R80 item 3, `lwc2`: there is no coprocessor. -/
def execLwc2 (low : BitVec 26) (_s : State) : Result := rejectWord (.lwc2 low)

/-- R80 item 3, `lwc3`: there is no coprocessor. -/
def execLwc3 (low : BitVec 26) (_s : State) : Result := rejectWord (.lwc3 low)

/-- R80 item 3, `swc0`: there is no coprocessor. -/
def execSwc0 (low : BitVec 26) (_s : State) : Result := rejectWord (.swc0 low)

/-- R80 item 3, `swc1`: there is no coprocessor. -/
def execSwc1 (low : BitVec 26) (_s : State) : Result := rejectWord (.swc1 low)

/-- R80 item 3, `swc2`: there is no coprocessor. -/
def execSwc2 (low : BitVec 26) (_s : State) : Result := rejectWord (.swc2 low)

/-- R80 item 3, `swc3`: there is no coprocessor. -/
def execSwc3 (low : BitVec 26) (_s : State) : Result := rejectWord (.swc3 low)

end Sys2Proof.Machine
end

