-- ==== Sys2Proof/Machine/LoadStore.lean ====
section
/-! DEFINITION. Load and store instructions (spec/43_load_store.md R140 to R156): one addressing mode, one data access to
one aligned word, big-endian. -/

namespace Sys2Proof.Machine

open Memory

/-- A load that always completes writes `x[rt]` (R141; a write to register 0 is discarded, R143). -/
def loaded (rt : Reg) (v : Word) (s : State) : Result := complete (s.setReg rt v)

/-- A load whose access may be misaligned: the check precedes the register write (R142). -/
def loadedIf (rt : Reg) (r : Except Fault Word) (s : State) : Result :=
  match r with
  | .ok v => loaded rt v s
  | .error e => raise e

/-- A store whose access may be misaligned: a failed check writes nothing (R142). -/
def storedIf (r : Except Fault Memory) (s : State) : Result :=
  match r with
  | .ok m => complete (s.setMem m)
  | .error e => raise e

/-- `lwl`, `lwr`, `swl`, `swr` are `IllegalInstruction` unless `CFG.UNALIGNED_WORD_OPS` is true (R80 item 5). -/
def unalignedOnly (i : Instr) (r : Result) (s : State) : Result :=
  if s.cfg.unalignedWordOps then r else raise (.illegalInstruction (encode i))

/-! ### The partial-word merges (R149, R150, R154, R155) -/

/-- `(w << 8b) | (old & ((1 << 8b) - 1))`: `lwl` at offset `b` (R149). -/
def mergeLwl (w old : Word) (b : Nat) : Word := (w <<< (8 * b)) ||| (old &&& ((1#32 <<< (8 * b)) - 1#32))

/-- `(old & ~(0xFFFFFFFF >> s)) | (w >> s)` with `s = 24 - 8b`: `lwr` at offset `b` (R150). -/
def mergeLwr (w old : Word) (b : Nat) : Word :=
  (old &&& ~~~(0xFFFFFFFF#32 >>> (24 - 8 * b))) ||| (w >>> (24 - 8 * b))

/-- `(w & ~(0xFFFFFFFF >> 8b)) | (v >> 8b)`: `swl` at offset `b` (R154). -/
def mergeSwl (w v : Word) (b : Nat) : Word := (w &&& ~~~(0xFFFFFFFF#32 >>> (8 * b))) ||| (v >>> (8 * b))

/-- `(w & ~(0xFFFFFFFF << s)) | (v << s)` with `s = 24 - 8b`: `swr` at offset `b` (R155). -/
def mergeSwr (w v : Word) (b : Nat) : Word :=
  (w &&& ~~~(0xFFFFFFFF#32 <<< (24 - 8 * b))) ||| (v <<< (24 - 8 * b))

/-! ### Loads -/

/-- R144, `lb`: `x[rt] <- sext_8(MemRead(addr, 1))`. -/
def execLb (rt : Reg) (imm : BitVec 16) (rs : Reg) (s : State) : Result :=
  loaded rt (sext8 (memReadByte s.mem (effAddr s rs imm))) s

/-- R145, `lbu`: `x[rt] <- zext_8(MemRead(addr, 1))`. -/
def execLbu (rt : Reg) (imm : BitVec 16) (rs : Reg) (s : State) : Result :=
  loaded rt (zext8 (memReadByte s.mem (effAddr s rs imm))) s

/-- R146, `lh`: `x[rt] <- sext_16(MemRead(addr, 2))`. -/
def execLh (rt : Reg) (imm : BitVec 16) (rs : Reg) (s : State) : Result :=
  loadedIf rt ((memReadHalf s.mem (effAddr s rs imm)).map sext16) s

/-- R147, `lhu`: `x[rt] <- zext_16(MemRead(addr, 2))`. -/
def execLhu (rt : Reg) (imm : BitVec 16) (rs : Reg) (s : State) : Result :=
  loadedIf rt ((memReadHalf s.mem (effAddr s rs imm)).map zext16) s

/-- R148, `lw`: `x[rt] <- MemRead(addr, 4)`. -/
def execLw (rt : Reg) (imm : BitVec 16) (rs : Reg) (s : State) : Result :=
  loadedIf rt (memReadWord s.mem (effAddr s rs imm)) s

/-- R149, `lwl`: the bytes from `addr` to the end of its word into the most significant bytes of `x[rt]`. -/
def execLwl (rt : Reg) (imm : BitVec 16) (rs : Reg) (s : State) : Result :=
  let addr := effAddr s rs imm
  unalignedOnly (.lwl rt imm rs) (loaded rt (mergeLwl (wordAt s.mem addr) (s.reg rt) (offset addr)) s) s

/-- R150, `lwr`: the bytes from the start of the word to `addr` into the least significant bytes of `x[rt]`. -/
def execLwr (rt : Reg) (imm : BitVec 16) (rs : Reg) (s : State) : Result :=
  let addr := effAddr s rs imm
  unalignedOnly (.lwr rt imm rs) (loaded rt (mergeLwr (wordAt s.mem addr) (s.reg rt) (offset addr)) s) s

/-! ### Stores -/

/-- R151, `sb`: `MemWrite(addr, 1, x[rt][7:0])`. -/
def execSb (rt : Reg) (imm : BitVec 16) (rs : Reg) (s : State) : Result :=
  complete (s.setMem (memWriteByte s.mem (effAddr s rs imm) ((s.reg rt).setWidth 8)))

/-- R152, `sh`: `MemWrite(addr, 2, x[rt][15:0])`. -/
def execSh (rt : Reg) (imm : BitVec 16) (rs : Reg) (s : State) : Result :=
  storedIf (memWriteHalf s.mem (effAddr s rs imm) ((s.reg rt).setWidth 16)) s

/-- R153, `sw`: `MemWrite(addr, 4, x[rt])`. -/
def execSw (rt : Reg) (imm : BitVec 16) (rs : Reg) (s : State) : Result :=
  storedIf (memWriteWord s.mem (effAddr s rs imm) (s.reg rt)) s

/-- R154, `swl`: the most significant bytes of `x[rt]` into memory from `addr` to the end of its word. -/
def execSwl (rt : Reg) (imm : BitVec 16) (rs : Reg) (s : State) : Result :=
  let addr := effAddr s rs imm
  unalignedOnly (.swl rt imm rs)
    (complete (s.setMem (setWordAt s.mem addr (mergeSwl (wordAt s.mem addr) (s.reg rt) (offset addr))))) s

/-- R155, `swr`: the least significant bytes of `x[rt]` into memory from the start of the word to `addr`. -/
def execSwr (rt : Reg) (imm : BitVec 16) (rs : Reg) (s : State) : Result :=
  let addr := effAddr s rs imm
  unalignedOnly (.swr rt imm rs)
    (complete (s.setMem (setWordAt s.mem addr (mergeSwr (wordAt s.mem addr) (s.reg rt) (offset addr))))) s

end Sys2Proof.Machine
end

