-- ==== Sys2Proof/Machine/MulDiv.lean ====
section
/-! DEFINITION. Multiply, divide and the hi/lo moves (spec/45_muldiv.md R180 to R190): exact integer arithmetic, narrowed
at the end. -/

namespace Sys2Proof.Machine

/-- Both result registers written, the step retired (R180). -/
def writeHiLo (hi lo : Word) (s : State) : Result := complete { s with hi := hi, lo := lo }

/-- A 64-bit product split: `hi <- P[63:32]`, `lo <- P[31:0]` (R181). -/
def writeProduct (p : BitVec 64) (s : State) : Result := writeHiLo (p.extractLsb' 32 32) (p.extractLsb' 0 32) s

/-- R181, `mult`: the exact signed product modulo 2^64. -/
def execMult (rs rt : Reg) (s : State) : Result :=
  writeProduct (BitVec.ofInt 64 ((s.reg rs).toInt * (s.reg rt).toInt)) s

/-- R182, `multu`: the exact unsigned product. -/
def execMultu (rs rt : Reg) (s : State) : Result :=
  writeProduct (BitVec.ofNat 64 ((s.reg rs).toNat * (s.reg rt).toNat)) s

/-- R183, `div`: the quotient truncated toward zero to `lo`, the remainder with the sign of the dividend to `hi`, each
`u32` of the exact integer; a zero divisor is `DivideByZero` and writes neither register. -/
def execDiv (rs rt : Reg) (s : State) : Result :=
  if s.reg rt = 0#32 then raise (.divideByZero s.pc)
  else
    let n := (s.reg rs).toInt
    let d := (s.reg rt).toInt
    let q := n.tdiv d
    writeHiLo (BitVec.ofInt 32 (n - q * d)) (BitVec.ofInt 32 q) s

/-- R184, `divu`: `lo <- floor(x[rs] / x[rt])`, `hi <- x[rs] mod x[rt]`, unsigned; a zero divisor as in R183. -/
def execDivu (rs rt : Reg) (s : State) : Result :=
  if s.reg rt = 0#32 then raise (.divideByZero s.pc)
  else writeHiLo (BitVec.ofNat 32 ((s.reg rs).toNat % (s.reg rt).toNat)) (BitVec.ofNat 32 ((s.reg rs).toNat / (s.reg rt).toNat)) s

/-- R185, `mfhi`: `x[rd] <- hi`. -/
def execMfhi (rd : Reg) (s : State) : Result := complete (s.setReg rd s.hi)

/-- R186, `mthi`: `hi <- x[rs]`, `lo` unchanged. -/
def execMthi (rs : Reg) (s : State) : Result := complete { s with hi := s.reg rs }

/-- R187, `mflo`: `x[rd] <- lo`. -/
def execMflo (rd : Reg) (s : State) : Result := complete (s.setReg rd s.lo)

/-- R188, `mtlo`: `lo <- x[rs]`, `hi` unchanged. -/
def execMtlo (rs : Reg) (s : State) : Result := complete { s with lo := s.reg rs }

end Sys2Proof.Machine
end

