-- ==== Sys2Proof/Machine/Shift.lean ====
section
/-! DEFINITION. Shift instructions (spec/42_shift.md R130 to R136). The value comes from `x[rt]`, the amount, always 0
to 31, from the `shamt` field or the low five bits of `x[rs]`. -/

namespace Sys2Proof.Machine

/-- `v << n` (R9): zeros enter at bit 0. -/
def shiftLeft (v : Word) (n : Nat) : Word := v <<< n

/-- `v >> n` (R9): zeros enter at bit 31. -/
def shiftRight (v : Word) (n : Nat) : Word := v >>> n

/-- `v >>a n` (R9): copies of bit 31 enter at bit 31. -/
def shiftRightArith (v : Word) (n : Nat) : Word := v.sshiftRight n

/-- R130: `x[rd] <- f(x[rt], amount)`. -/
def shiftBy (f : Word → Nat → Word) (rd rt : Reg) (amount : Nat) (s : State) : Result :=
  complete (s.setReg rd (f (s.reg rt) amount))

/-- R131, `sll`: `x[rd] <- x[rt] << shamt`. -/
def execSll (rd rt : Reg) (shamt : BitVec 5) (s : State) : Result := shiftBy shiftLeft rd rt shamt.toNat s

/-- R132, `srl`: `x[rd] <- x[rt] >> shamt`. -/
def execSrl (rd rt : Reg) (shamt : BitVec 5) (s : State) : Result := shiftBy shiftRight rd rt shamt.toNat s

/-- R133, `sra`: `x[rd] <- x[rt] >>a shamt`. -/
def execSra (rd rt : Reg) (shamt : BitVec 5) (s : State) : Result := shiftBy shiftRightArith rd rt shamt.toNat s

/-- R134, `sllv`: `x[rd] <- x[rt] << x[rs][4:0]`. -/
def execSllv (rd rt rs : Reg) (s : State) : Result := shiftBy shiftLeft rd rt (shiftAmount s rs) s

/-- R135, `srlv`: `x[rd] <- x[rt] >> x[rs][4:0]`. -/
def execSrlv (rd rt rs : Reg) (s : State) : Result := shiftBy shiftRight rd rt (shiftAmount s rs) s

/-- R136, `srav`: `x[rd] <- x[rt] >>a x[rs][4:0]`. -/
def execSrav (rd rt rs : Reg) (s : State) : Result := shiftBy shiftRightArith rd rt (shiftAmount s rs) s

end Sys2Proof.Machine
end

