-- ==== Sys2Proof/Machine/Syscall.lean ====
section
/-! DEFINITION. The `syscall` instruction, the seven emulated system calls and the preimage oracle protocol
(spec/46_syscall.md R200 to R227). The call is emulated inside the step: no trap, no handler, no saved address. -/

namespace Sys2Proof.Machine

open Memory

/-! ### The register convention (R201) -/

/-- `$v0`: the number in, the result out. -/
def regV0 : Reg := 2#5
/-- `$a0`: the first argument. -/
def regA0 : Reg := 4#5
/-- `$a1`: the second argument. -/
def regA1 : Reg := 5#5
/-- `$a2`: the third argument. -/
def regA2 : Reg := 6#5
/-- `$a3`: the error flag out. -/
def regA3 : Reg := 7#5

/-- A system call that returns: `x[2] <- result`, `x[7] <- 0`, and the step retires in sequence (R200, R201). -/
def returns (result : Word) (s : State) : Result := complete ((s.setReg regV0 result).setReg regA3 0#32)

/-! ### Process calls -/

/-- R204, `exit` and `exit_group`: `x[2]` and `x[7]` are not written, and the step retires like any other. -/
def sysExit (s : State) : Result :=
  complete { s with exited := true, exitCode := (s.reg regA0).setWidth 8 }

/-- R205, the cursor `brk` leaves: it advances, it never retreats. -/
def brkHeap (request heap : Word) : Word := if lessUnsigned heap request then request else heap

/-- R205, `brk`. -/
def sysBrk (s : State) : Result :=
  let heap := brkHeap (s.reg regA0) s.heap
  returns heap { s with heap := heap }

/-- R206, the length of a mapping rounded up to the page size, modulo 2^32. -/
def mmapSize (pageBytes length : Word) : Word := (length + (pageBytes - 1#32)) &&& ~~~(pageBytes - 1#32)

/-- R206, `mmap`: it returns the cursor and then advances it by the rounded length, modulo 2^32. -/
def sysMmap (s : State) : Result :=
  returns s.heap { s with heap := s.heap + mmapSize s.cfg.pageBytes (s.reg regA1) }

/-- R207, `clone`: success without spawning. -/
def sysClone (s : State) : Result := returns s.cfg.cloneResult s

/-! ### `read` and `write` on the standard descriptors -/

/-- R209, `read` on descriptor 0: always end of file. -/
def readStdin (s : State) : Result := returns 0#32 s

/-- R212, `write` on descriptor 1 or 2: the `x[6]` bytes from `x[5]` pass through to the sink `x[4]`, read from the
pre-step memory; no data access, no effect on memory. -/
def writeSink (s : State) : Result :=
  let count := s.reg regA2
  returns count (s.emit (s.reg regA0) (readBytes s.mem (s.reg regA1) count.toNat))

/-! ### The preimage channel -/

/-- `m`: the bytes of the one word at the buffer address that a preimage call may move (R222, R224). -/
def preimageSpan (buffer count : Word) : Nat := min (4 - offset buffer) count.toNat

/-- `rem`: the value bytes not yet delivered (R222). -/
def preimageRest (v : List Byte) (poff : Word) : Nat := v.length - poff.toNat

/-- `n`: the value bytes a preimage `read` delivers (R222). -/
def preimageCount (v : List Byte) (poff buffer count : Word) : Nat :=
  min (preimageSpan buffer count) (preimageRest v poff)

/-- `c`: the value bytes delivered, zero-padded to four (R222). -/
def preimageChunk (v : List Byte) (poff : Word) (n : Nat) : List Byte :=
  (v.drop poff.toNat).take n ++ List.replicate (4 - n) 0#8

/-- R222, `read` on `FD_PREIMAGE`: at most four bytes of the value of `pkey` into one word of memory. -/
def readPreimage (s : State) : Result :=
  match s.oracle.get s.pkey with
  | none => raise (.oracleMiss s.pkey)
  | some v =>
    let buffer := s.reg regA1
    let m := preimageSpan buffer (s.reg regA2)
    let n := preimageCount v s.poff buffer (s.reg regA2)
    if n = 0 then returns 0#32 s
    else
      let word := setBytesOf (wordAt s.mem buffer) (offset buffer) ((preimageChunk v s.poff n).take m)
      returns (BitVec.ofNat 32 n)
        { s with mem := setWordAt s.mem buffer word, poff := s.poff + BitVec.ofNat 32 n }

/-- `pkey[m .. 31] ++ d`: the first bytes dropped, as many appended (R224). -/
def shiftKey (k : Key) (d : List Byte) : Key :=
  ⟨((k.toList ++ d).drop d.length).toArray, by simp⟩

/-- The bytes of memory a preimage `write` shifts into the key, in address order (R224). -/
def keyBytes (s : State) : List Byte :=
  let buffer := s.reg regA1
  ((wordBytes (wordAt s.mem buffer)).drop (offset buffer)).take (preimageSpan buffer (s.reg regA2))

/-- R224, `write` on `FD_PREIMAGE`: at most four bytes of memory into the low end of `pkey`, and `poff <- 0`; nothing
changes but `x[2]` and `x[7]` when there is no byte to move. -/
def writePreimage (s : State) : Result :=
  let m := preimageSpan (s.reg regA1) (s.reg regA2)
  if m = 0 then returns 0#32 s
  else returns (BitVec.ofNat 32 m) { s with pkey := shiftKey s.pkey (keyBytes s), poff := 0#32 }

/-! ### Dispatch -/

/-- Which rule a `syscall` comes to, by its number and, for `read` and `write`, its descriptor. -/
inductive Call where
  | exit
  | brk
  | mmap
  | clone
  | readStdin
  | readPreimage
  | writeSink
  | writePreimage
  /-- No emulated number (R202). -/
  | unknownNumber
  /-- `read` or `write` on no emulated descriptor (R208, R210). -/
  | unknownDescriptor
deriving DecidableEq, Repr

/-- R208: `read` by the descriptor in `x[4]`. -/
def readCall (cfg : Config) (fd : Word) : Call :=
  if fd = Config.fdStdin then .readStdin
  else if fd = cfg.fdPreimage then .readPreimage
  else .unknownDescriptor

/-- R210: `write` by the descriptor in `x[4]`. -/
def writeCall (cfg : Config) (fd : Word) : Call :=
  if fd = Config.fdStdout ∨ fd = Config.fdStderr then .writeSink
  else if fd = cfg.fdPreimage then .writePreimage
  else .unknownDescriptor

/-- R200: the call by the number in `x[2]`, all 32 bits compared (R201); numbers a configuration makes equal are told
apart in the order written here (assumption 24). -/
def callOf (cfg : Config) (num fd : Word) : Call :=
  if num = cfg.sysExit ∨ num = cfg.sysExitGroup then .exit
  else if num = cfg.sysBrk then .brk
  else if num = cfg.sysMmap then .mmap
  else if num = cfg.sysClone then .clone
  else if num = cfg.sysRead then readCall cfg fd
  else if num = cfg.sysWrite then writeCall cfg fd
  else .unknownNumber

/-- The call the registers of a state ask for. -/
def State.call (s : State) : Call := callOf s.cfg (s.reg regV0) (s.reg regA0)

/-- R200, `syscall`. -/
def execSyscall (s : State) : Result :=
  match s.call with
  | .exit => sysExit s
  | .brk => sysBrk s
  | .mmap => sysMmap s
  | .clone => sysClone s
  | .readStdin => readStdin s
  | .readPreimage => readPreimage s
  | .writeSink => writeSink s
  | .writePreimage => writePreimage s
  | .unknownNumber => raise (.unsupportedSyscall (s.reg regV0) none)
  | .unknownDescriptor => raise (.unsupportedSyscall (s.reg regV0) (some (s.reg regA0)))

/-- R226: the condition DOC0 calls `KeyRequested`, a function of `pkey`, `poff` and the oracle; `Idle` is its
negation. R226 does not say which of the two holds when the oracle has no value for `pkey`: the model answers `Idle`
(DESIGN CHOICE, assumption 26). No instruction reads it. -/
def keyRequested (s : State) : Bool :=
  match s.oracle.get s.pkey with
  | some v => decide (s.poff.toNat < v.length)
  | none => false

end Sys2Proof.Machine
end

