-- ==== Sys2Proof/Machine/Step.lean ====
section
/-! DEFINITION. The step (spec/40_step_cycle.md R90 to R99): halt check, PC check, fetch, decode, execute and retire. -/

namespace Sys2Proof.Machine

/-- R98. The three outcomes of R90 are the three of the interface: completed is a next state, failed is a fault, halted is
the refusal `halted`. A state with `exited` true is final and has no successor (R91, assumption 7). A failing step
answers the error alone: the state is as it was (R97). -/
def step (s : State) : Host.Outcome State Fault Refusal :=
  if s.exited then .refused .halted
  else
    match fetch s with
    | .error e => raise e
    | .ok word =>
      match decodeWord word with
      | .error _ => raise (.illegalInstruction word)
      | .ok i => exec i s

/-- The state with an instruction stored at `PC`, where the next step fetches. The opcode table's bit numbering is
that of the 32-bit word (R71), and the word is stored big-endian (R45, R70). It stands for the load of a program from
outside (assumption 11). -/
def State.withFetchWord (s : State) (nbits w : Nat) : State :=
  s.setMem (Memory.setWordAt s.mem s.pc (BitVec.ofNat 32 (w % 2 ^ nbits)))

end Sys2Proof.Machine
end

