-- ==== Sys2Proof/Machine/Merkle.lean ====
section
/-! DEFINITION. The Merkle tree over memory and its proof generator (spec/20_memory.md R50 to R57). Every function takes
the hash as an argument; the machine's own are the instances at `Config.hash` (R5). No cache is modelled (R56). -/

namespace Sys2Proof.Machine

open Memory

/-- A hash function from byte strings to 32 bytes, the parameter `H` of R5. -/
abbrev HashFn := List Byte → Hash

/-- The index of the chunk holding a byte address: `a >> 5` (R50). -/
def chunkIndex (a : Word) : Nat := a.toNat / Config.chunkBytes

/-- The 32 bytes of chunk `c` in address order (R50). -/
def chunk (m : Memory) (c : Nat) : List Byte :=
  (List.range Config.chunkBytes).map fun i => readByte m (Config.chunkBytes * c + i)

/-- `H(left ++ right)`; the left child covers the lower addresses (R51). -/
def hashPair (H : HashFn) (left right : Hash) : Hash := H (left.toList ++ right.toList)

/-- `node(k, i)`: the node at level `k` covering the chunks `i * 2^k` to `(i+1) * 2^k - 1` (R51). -/
def node (H : HashFn) (m : Memory) : Nat → Nat → Hash
  | 0, c => H (chunk m c)
  | k + 1, i => hashPair H (node H m k (2 * i)) (node H m k (2 * i + 1))

/-- `merkle_root() = node(27, 0)` (R52). -/
def merkleRootWith (H : HashFn) (m : Memory) : Hash := node H m Config.depth 0

/-- `p[k] = node(k, (c >> k) ^ 1)` for `k = 0 .. 26`, leaf to root (R54). -/
def merkleProofWith (H : HashFn) (m : Memory) (a : Word) : List Hash :=
  (List.range Config.depth).map fun k => node H m k ((chunkIndex a >>> k) ^^^ 1)

/-- One run of the loop of R55: from the node of index `c` with value `h`, up through the siblings. -/
def climb (H : HashFn) : Nat → Hash → List Hash → Hash
  | _, h, [] => h
  | c, h, p :: ps => climb H (c / 2) (if c % 2 = 0 then hashPair H h p else hashPair H p h) ps

/-- `root_from(c, chunk_bytes, p)` (R55). -/
def rootFrom (H : HashFn) (c : Nat) (bytes : List Byte) (siblings : List Hash) : Hash := climb H c (H bytes) siblings

/-- The zero hashes: `Z_0 = H(0^32)`, `Z_k = H(Z_(k-1) ++ Z_(k-1))` (R53). -/
def zeroHash (H : HashFn) : Nat → Hash
  | 0 => H (List.replicate Config.chunkBytes 0#8)
  | k + 1 => hashPair H (zeroHash H k) (zeroHash H k)

/-- No entry of the memory lies in the chunks a node covers. -/
def emptyUnder (m : Memory) (k i : Nat) : Bool :=
  m.all fun e => decide (e.1 / Config.chunkBytes / 2 ^ k ≠ i)

/-- R53's evaluation of a node: a node over no entry is the zero hash of its level, and only the other nodes are
visited. -/
def sparseNode (H : HashFn) (m : Memory) : Nat → Nat → Hash
  | 0, c => H (chunk m c)
  | k + 1, i =>
    if emptyUnder m (k + 1) i then zeroHash H (k + 1)
    else hashPair H (sparseNode H m k (2 * i)) (sparseNode H m k (2 * i + 1))

/-- The root under the machine's hash (R7, R52). -/
def merkleRoot (m : Memory) : Hash := merkleRootWith Config.hash m

/-- The proof of an address under the machine's hash (R7, R54). -/
def merkleProof (m : Memory) (a : Word) : List Hash := merkleProofWith Config.hash m a

end Sys2Proof.Machine
end

