-- ==== Sys2Proof/Machine/Encoding.lean ====
section
/-! DEFINITION. The canonical state encoding, its inverse and the state hash (spec/10_state.md R30 to R33). -/

namespace Sys2Proof.Machine

/-- What an encoding holds: every field of R10 but the memory, of which only the root is left (R32). -/
structure Header where
  root : Hash
  pc : Word
  nextPc : Word
  hi : Word
  lo : Word
  heap : Word
  exitCode : Byte
  exited : Bool
  stepCount : BitVec 64
  regs : Vector Word 32
  pkey : Key
  poff : Word
deriving DecidableEq, Repr

/-- A state with its memory replaced by a root; slot 0 of the registers is 0 (R11, R30). -/
def State.header (s : State) (root : Hash) : Header where
  root := root
  pc := s.pc
  nextPc := s.nextPc
  hi := s.hi
  lo := s.lo
  heap := s.heap
  exitCode := s.exitCode
  exited := s.exited
  stepCount := s.stepCount
  regs := Vector.ofFn fun i => s.reg (BitVec.ofFin i)
  pkey := s.pkey
  poff := s.poff

/-- A 64-bit value as 8 big-endian bytes (R30). -/
def doubleBytes (v : BitVec 64) : List Byte := wordBytes (v.extractLsb' 32 32) ++ wordBytes (v.extractLsb' 0 32)

/-- The table of R30, row by row. -/
def Header.encode (h : Header) : List Byte :=
  h.root.toList ++ wordBytes h.pc ++ wordBytes h.nextPc ++ wordBytes h.hi ++ wordBytes h.lo ++ wordBytes h.heap ++
    [h.exitCode] ++ [if h.exited then 1#8 else 0#8] ++ doubleBytes h.stepCount ++ h.regs.toList.flatMap wordBytes ++
    h.pkey.toList ++ wordBytes h.poff

/-- The length of an encoding (R30). -/
def encodingLength : Nat := 226

/-- `encode_witness(S)` under a hash (R30). -/
def encodeWitnessWith (H : HashFn) (s : State) : List Byte := (s.header (merkleRootWith H s.mem)).encode

/-- `state_hash(S) = H(encode_witness(S))` under a hash (R31). -/
def stateHashWith (H : HashFn) (s : State) : Hash := H (encodeWitnessWith H s)

/-- `encode_witness(S)` (R7, R30). -/
def encodeWitness (s : State) : List Byte := encodeWitnessWith Config.hash s

/-- `state_hash(S)` (R7, R31). -/
def stateHash (s : State) : Hash := stateHashWith Config.hash s

/-- The byte at an offset of an encoding. -/
def byteAt (l : List Byte) (i : Nat) : Byte := l.getD i 0#8

/-- The big-endian word at an offset of an encoding. -/
def wordOf (l : List Byte) (i : Nat) : Word :=
  wordOfBytes (byteAt l i) (byteAt l (i + 1)) (byteAt l (i + 2)) (byteAt l (i + 3))

/-- The 32 bytes at an offset of an encoding. -/
def bytes32 (l : List Byte) (i : Nat) : Vector Byte 32 := Vector.ofFn fun j => byteAt l (i + j.val)

/-- The fields at the offsets of R30's table, with the flag read beforehand. -/
def decodeFields (l : List Byte) (exited : Bool) : Header where
  root := bytes32 l 0
  pc := wordOf l 32
  nextPc := wordOf l 36
  hi := wordOf l 40
  lo := wordOf l 44
  heap := wordOf l 48
  exitCode := byteAt l 52
  exited := exited
  stepCount := wordOf l 54 ++ wordOf l 58
  regs := Vector.ofFn fun j => wordOf l (62 + 4 * j.val)
  pkey := bytes32 l 190
  poff := wordOf l 222

/-- `decode` (R32): it refuses a length other than 226 and a byte 53 other than `0x00` or `0x01`, and nothing else. -/
def decodeWitness (l : List Byte) : Option Header :=
  if l.length = encodingLength then
    if byteAt l 53 = 0#8 then some (decodeFields l false)
    else if byteAt l 53 = 1#8 then some (decodeFields l true)
    else none
  else none

end Sys2Proof.Machine
end

