-- ==== Sys2Proof/Machine/Witness.lean ====
section
/-! DEFINITION. The step witness (spec/47_witness.md R230 to R236): a pure function of the pre-step state, the instruction
it executes and the oracle's answer, kept nowhere in the state. -/

namespace Sys2Proof.Machine

/-- `MemProof` (R232): the word touched, its chunk and the siblings, of the pre-step memory. -/
structure MemProof where
  addr : Word
  chunk : List Byte
  siblings : List Hash
deriving DecidableEq, Repr

/-- `PreimageEvent` (R235). -/
structure PreimageEvent where
  key : Key
  offset : Word
  data : List Byte
deriving DecidableEq, Repr

/-- The witness record (R230). -/
structure StepWitness where
  preState : List Byte
  proofs : List MemProof
  preimage : Option PreimageEvent
deriving DecidableEq, Repr

/-- `has_preimage()` (R235). -/
def StepWitness.hasPreimage (w : StepWitness) : Bool := w.preimage.isSome

/-- The proof of a touched word (R232). -/
def memProof (H : HashFn) (m : Memory) (addr : Word) : MemProof :=
  ⟨addr, chunk m (chunkIndex addr), merkleProofWith H m addr⟩

/-- The data access of a load or store, or of a preimage call that moves a byte: the aligned word (R234). -/
def preimageAccess (s : State) : Option Word :=
  match s.call with
  | .readPreimage =>
    match s.oracle.get s.pkey with
    | some v =>
      if preimageCount v s.poff (s.reg regA1) (s.reg regA2) = 0 then none else some (Memory.wordBase (s.reg regA1))
    | none => none
  | .writePreimage =>
    if preimageSpan (s.reg regA1) (s.reg regA2) = 0 then none else some (Memory.wordBase (s.reg regA1))
  | .exit | .brk | .mmap | .clone | .readStdin | .writeSink | .unknownNumber | .unknownDescriptor => none

/-- The aligned word of the one data access a completed step makes beyond its fetch, if it makes one (R234). -/
def dataAccess (i : Instr) (s : State) : Option Word :=
  match i with
  | .lb _ imm rs | .lbu _ imm rs | .lh _ imm rs | .lhu _ imm rs | .lw _ imm rs | .lwl _ imm rs | .lwr _ imm rs
  | .sb _ imm rs | .sh _ imm rs | .sw _ imm rs | .swl _ imm rs | .swr _ imm rs =>
    some (Memory.wordBase (effAddr s rs imm))
  | .syscall => preimageAccess s
  | .sll .. | .srl .. | .sra .. | .sllv .. | .srlv .. | .srav .. | .jr .. | .jalr .. => none
  | .mfhi .. | .mthi .. | .mflo .. | .mtlo .. | .mult .. | .multu .. | .div .. | .divu .. => none
  | .add .. | .addu .. | .sub .. | .subu .. | .and .. | .or .. | .xor .. | .nor .. | .slt .. | .sltu .. => none
  | .bltz .. | .bgez .. | .bltzal .. | .bgezal .. | .j .. | .jal .. | .beq .. | .bne .. | .blez .. | .bgtz .. => none
  | .addi .. | .addiu .. | .slti .. | .sltiu .. | .andi .. | .ori .. | .xori .. | .lui .. => none
  | .breakpoint .. | .cop0 .. | .cop1 .. | .cop2 .. | .cop3 .. => none
  | .lwc0 .. | .lwc1 .. | .lwc2 .. | .lwc3 .. | .swc0 .. | .swc1 .. | .swc2 .. | .swc3 .. => none

/-- The event of a `syscall` in this state, if it is a `read` on the preimage descriptor and the oracle answers
(R235). -/
def syscallEvent (s : State) : Option PreimageEvent :=
  if s.call = .readPreimage then
    (s.oracle.get s.pkey).map fun v =>
      ⟨s.pkey, s.poff, (v.drop s.poff.toNat).take (preimageCount v s.poff (s.reg regA1) (s.reg regA2))⟩
  else none

/-- The preimage event of an instruction: only `syscall` has one (R235). -/
def preimageEvent (i : Instr) (s : State) : Option PreimageEvent := if i = .syscall then syscallEvent s else none

/-- The witness of a completed step that executes `i` from `s` (R230 to R235): the pre-state encoding, the fetch proof,
the data proof if there was a data access, and the event. -/
def witnessOf (H : HashFn) (i : Instr) (s : State) : StepWitness where
  preState := encodeWitnessWith H s
  proofs := memProof H s.mem s.pc :: ((dataAccess i s).map (memProof H s.mem)).toList
  preimage := preimageEvent i s

/-- The witness of the step from a state, under a hash: absent for a halted or a failed step (R90, R236). -/
def witnessWith (H : HashFn) (s : State) : Option StepWitness :=
  if s.exited then none
  else
    match step s, fetch s with
    | .next _, .ok word =>
      match decodeWord word with
      | .ok i => some (witnessOf H i s)
      | .error _ => none
    | _, _ => none

/-- The witness of the step from a state (R90, R230). -/
def witness (s : State) : Option StepWitness := witnessWith Config.hash s

end Sys2Proof.Machine
end

