-- ==== Sys2Proof/Machine/Replay.lean ====
section
/-! DEFINITION. Replay (spec/47_witness.md R237): the post-step encoding recomputed from a witness alone. -/

namespace Sys2Proof.Machine

/-- A proof checked against a root: `addr` is a word address, the chunk and the siblings have their lengths, and
`root_from` gives the root (R55, R232). -/
def MemProof.valid (H : HashFn) (root : Hash) (p : MemProof) : Bool :=
  decide (p.addr &&& 3#32 = 0#32) && decide (p.chunk.length = Config.chunkBytes) &&
    decide (p.siblings.length = Config.depth) && decide (rootFrom H (chunkIndex p.addr) p.chunk p.siblings = root)

/-- The part of memory a witness reveals: the chunks of its proofs (R237). -/
def revealed (proofs : List MemProof) : Memory :=
  proofs.foldl (fun m p => Memory.storeBytes m (Config.chunkBytes * chunkIndex p.addr) p.chunk) []

/-- The oracle a replayer needs: the event's bytes at the event's offset (R235, R237, R239). -/
def replayOracle : Option PreimageEvent → Oracle
  | some e => [(e.key, List.replicate e.offset.toNat 0#8 ++ e.data)]
  | none => []

/-- The state a replayer steps: the header's fields, the revealed memory, the event's oracle (R237). -/
def replayState (cfg : Config) (h : Header) (w : StepWitness) : State where
  mem := revealed w.proofs
  regs := h.regs
  hi := h.hi
  lo := h.lo
  pc := h.pc
  nextPc := h.nextPc
  stepCount := h.stepCount
  exited := h.exited
  exitCode := h.exitCode
  heap := h.heap
  pkey := h.pkey
  poff := h.poff
  cfg := cfg
  oracle := replayOracle w.preimage
  sink1 := []
  sink2 := []

/-- The root after the step: recomputed from the data proof's siblings and its chunk after the step; unchanged when
there was no data access (R55, R237). -/
def replayRoot (H : HashFn) (root : Hash) (dataProofs : List MemProof) (after : Memory) : Hash :=
  match dataProofs with
  | [] => root
  | d :: _ => rootFrom H (chunkIndex d.addr) (chunk after (chunkIndex d.addr)) d.siblings

/-- R237: decode the pre-state, check every proof against its root and the fetch proof's address against `PC`, run the
step on what the witness reveals, recompute the root, re-encode. None if the witness does not check or its step does
not complete, a halted pre-state among these. R237 speaks of the witness of a completed step alone; what is answered for
any other record that checks is the model's choice (DESIGN CHOICE, assumption 27): bytes no proof reveals read as 0, the
first data proof alone recomputes the root, proofs and events the step does not use change nothing. -/
def replay (H : HashFn) (cfg : Config) (w : StepWitness) : Option (List Byte) :=
  match decodeWitness w.preState, w.proofs with
  | some h, f :: dataProofs =>
    if f.addr = h.pc ∧ (f :: dataProofs).all (MemProof.valid H h.root) = true then
      match step (replayState cfg h w) with
      | .next t => some (t.header (replayRoot H h.root dataProofs t.mem)).encode
      | .fault _ => none
      | .refused _ => none
    else none
  | _, _ => none

end Sys2Proof.Machine
end

