-- ==== Sys2Proof/Machine/Load.lean ====
section
/-! DEFINITION. The load port (spec/70_reset_and_hazards.md R280 to R285): which loaded states are legal, what a silent loader
supplies, and the state a loader hands over. -/

namespace Sys2Proof.Machine

/-- R281: a legal loaded state. The widths of the register fields are those of their types. The width of `Mem` (R10:
addresses below 2^32) is part of `Memory.wf`, beside the model's canonical form of a memory (assumption 8). -/
structure State.Legal (s : State) : Prop where
  pcAligned : s.pc &&& 3#32 = 0#32
  nextPcAligned : s.nextPc &&& 3#32 = 0#32
  memCanonical : Memory.wf s.mem = true
  slotZero : s.regs[0] = 0#32
  running : s.exited = false

/-- The register set a loader supplies beside the memory: every field of R10 but `Mem` (R7, R280; R285 items 2 to 4). -/
structure RegisterSet where
  pc : Word
  nextPc : Word
  regs : Vector Word 32
  hi : Word
  lo : Word
  heap : Word
  stepCount : BitVec 64
  exited : Bool
  exitCode : Byte
  pkey : Key
  poff : Word
deriving DecidableEq, Repr

/-- R282's column of defaults: what is supplied for the fields on which the loader is silent. -/
def RegisterSet.default (cfg : Config) : RegisterSet where
  pc := cfg.entryPc
  nextPc := cfg.entryPc + 4#32
  regs := Vector.replicate 32 0
  hi := 0
  lo := 0
  heap := cfg.heapStart
  stepCount := 0
  exited := false
  exitCode := 0
  pkey := Vector.replicate 32 0
  poff := 0

/-- The hand-over (R280): a populated memory, a register set and an oracle become the state before the first step, with
empty sinks (R282). Legality is not checked (R281). -/
def State.handOver (cfg : Config) (oracle : Oracle) (m : Memory) (r : RegisterSet) : State where
  mem := m
  regs := r.regs
  hi := r.hi
  lo := r.lo
  pc := r.pc
  nextPc := r.nextPc
  stepCount := r.stepCount
  exited := r.exited
  exitCode := r.exitCode
  heap := r.heap
  pkey := r.pkey
  poff := r.poff
  cfg := cfg
  oracle := oracle
  sink1 := []
  sink2 := []

/-- R282: the state a loader that is silent on everything hands over. `State.reset` is this state at the default
configuration. -/
def State.defaults (cfg : Config) : State := State.handOver cfg [] [] (RegisterSet.default cfg)

/-- The loader's ranges written one after the other by `set_range` (R46, R285 item 1); none if one is refused. -/
def loadImage : Memory → List (Word × List Byte) → Option Memory
  | m, [] => some m
  | m, r :: rs =>
    match m.setRange r.1 r.2 with
    | some m' => loadImage m' rs
    | none => none

/-- R285: the state handed over for an image (item 1), a register set (items 2 to 4) and an oracle (item 5). A loader
that is silent on a register leaves its value in `RegisterSet.default`; one that sets a stack pointer writes slot 29. -/
def State.load (cfg : Config) (oracle : Oracle) (r : RegisterSet) (image : List (Word × List Byte)) : Option State :=
  (loadImage [] image).map fun m => State.handOver cfg oracle m r

end Sys2Proof.Machine
end

