-- ==== Sys2Proof/Safety.lean ====
section
/-! DEFINITION. The terms claims are stated in: what a step leaves as it was, how it retires, which states are final, and
the invariant every step keeps. -/

namespace Sys2Proof.Machine

/-! ### What is read of a state -/

/-- The byte of memory at an address. -/
def State.byte (s : State) (a : Nat) : Byte := Memory.readByte s.mem a

/-! ### Frames: what is the same in two states -/

/-- Every general register reads as before. -/
def SameRegs (s t : State) : Prop := ∀ r, t.reg r = s.reg r

/-- One register was written: it reads the new value, or zero if it is register 0, which discards the write
(spec/10_state.md R11); every other register reads as before. -/
def RegWritten (rd : Reg) (v : Word) (s t : State) : Prop := ∀ r, t.reg r = if r = rd ∧ r ≠ 0#5 then v else s.reg r

/-- `hi` and `lo` are as before. -/
def SameHiLo (s t : State) : Prop := t.hi = s.hi ∧ t.lo = s.lo

/-- Every byte of memory reads as before. -/
def SameMem (s t : State) : Prop := ∀ a, t.byte a = s.byte a

/-- Every byte outside the `n` bytes from `a` on reads as before. -/
def SameMemOutside (a n : Nat) (s t : State) : Prop := ∀ b, b < a ∨ a + n ≤ b → t.byte b = s.byte b

/-- `exited` and `exit_code` are as before. -/
def SameExit (s t : State) : Prop := t.exited = s.exited ∧ t.exitCode = s.exitCode

/-- The heap cursor is as before. -/
def SameHeap (s t : State) : Prop := t.heap = s.heap

/-- The preimage cursor is as before. -/
def SamePreimage (s t : State) : Prop := t.pkey = s.pkey ∧ t.poff = s.poff

/-- Nothing was emitted to a sink. -/
def SameSinks (s t : State) : Prop := t.sink1 = s.sink1 ∧ t.sink2 = s.sink2

/-- The step's parameters are as before. -/
def SameParameters (s t : State) : Prop := t.cfg = s.cfg ∧ t.oracle = s.oracle

/-- Every field only a system call writes is as before, and the step's parameters are. -/
def SameSystem (s t : State) : Prop :=
  SameExit s t ∧ SameHeap s t ∧ SamePreimage s t ∧ SameSinks s t ∧ SameParameters s t

/-! ### Retirement (spec/40_step_cycle.md R96) -/

/-- `PC' = NextPC`, `NextPC' = n`, `step' = step + 1`. -/
def RetiresTo (n : Word) (s t : State) : Prop := t.pc = s.nextPc ∧ t.nextPc = n ∧ t.stepCount = s.stepCount + 1#64

/-- Retirement in sequence: `NextPC' = NextPC + 4`. -/
def Retires (s t : State) : Prop := RetiresTo (s.nextPc + 4#32) s t

/-- The whole effect of an instruction that writes one general register and nothing else (spec/41_alu.md R110). -/
def WritesOnlyReg (rd : Reg) (v : Word) (s t : State) : Prop :=
  Retires s t ∧ RegWritten rd v s t ∧ SameHiLo s t ∧ SameMem s t ∧ SameSystem s t

/-- The whole effect of an instruction that writes `hi` and `lo` and nothing else (spec/45_muldiv.md R180). -/
def WritesOnlyHiLo (hi lo : Word) (s t : State) : Prop :=
  Retires s t ∧ SameRegs s t ∧ t.hi = hi ∧ t.lo = lo ∧ SameMem s t ∧ SameSystem s t

/-- The whole effect of a transfer that links nothing: `NextPC' = n` (spec/44_branch_jump.md R176). -/
def OnlyTransfers (n : Word) (s t : State) : Prop :=
  RetiresTo n s t ∧ SameRegs s t ∧ SameHiLo s t ∧ SameMem s t ∧ SameSystem s t

/-- The whole effect of a linking transfer: `NextPC' = n` and the link `PC + 8` in a register (R161, R176). -/
def TransfersAndLinks (n : Word) (r : Reg) (s t : State) : Prop :=
  RetiresTo n s t ∧ RegWritten r (s.pc + 8#32) s t ∧ SameHiLo s t ∧ SameMem s t ∧ SameSystem s t

/-- The whole effect of a store on everything but the bytes it stores (spec/43_load_store.md R141). -/
def StoresOnly (a n : Nat) (s t : State) : Prop :=
  Retires s t ∧ SameRegs s t ∧ SameHiLo s t ∧ SameMemOutside a n s t ∧ SameSystem s t

/-- The registers after a system call that returns: `x[2]` the result, `x[7]` zero, the others as before
(spec/46_syscall.md R201). -/
def Returned (result : Word) (s t : State) : Prop :=
  ∀ r, t.reg r = if r = 7#5 then 0#32 else if r = 2#5 then result else s.reg r

/-! ### Conditions on a state -/

/-- The check of `spec/44_branch_jump.md` R162 passes. -/
def SlotFree (s : State) : Prop := s.cfg.delaySlotBranch = .fault → s.nextPc = s.pc + 4#32

/-- A configuration whose seven call numbers differ and whose preimage descriptor is none of the standard three, as the
defaults of spec/00_scope.md R5 are: under it each number and descriptor means one call. -/
def DistinctCalls (c : Config) : Prop :=
  [c.sysExit, c.sysExitGroup, c.sysBrk, c.sysMmap, c.sysClone, c.sysRead, c.sysWrite].Nodup ∧
    c.fdPreimage ≠ Config.fdStdin ∧ c.fdPreimage ≠ Config.fdStdout ∧ c.fdPreimage ≠ Config.fdStderr

/-- Halted: a final state (spec/40_step_cycle.md R91, spec/60_exceptions.md R268). -/
def Halted (s : State) : Prop := s.exited = true

/-- Faulted: a state whose step fails, not final and with no successor (spec/60_exceptions.md R252). -/
def Faulted (s : State) : Prop := ∃ e, step s = .fault e

/-- The 12 control transfers of spec/44_branch_jump.md. -/
def Transfer (i : Instr) : Prop :=
  (∃ t, i = .j t) ∨ (∃ t, i = .jal t) ∨ (∃ rs, i = .jr rs) ∨ (∃ rd rs, i = .jalr rd rs) ∨
  (∃ rs rt m, i = .beq rs rt m) ∨ (∃ rs rt m, i = .bne rs rt m) ∨ (∃ rs m, i = .blez rs m) ∨
  (∃ rs m, i = .bgtz rs m) ∨ (∃ rs m, i = .bltz rs m) ∨ (∃ rs m, i = .bgez rs m) ∨
  (∃ rs m, i = .bltzal rs m) ∨ (∃ rs m, i = .bgezal rs m)

/-- The instruction makes a halfword access at an address (spec/20_memory.md R49). -/
def HalfwordAccess (i : Instr) (s : State) (a : Word) : Prop :=
  ∃ rt imm rs, (i = .lh rt imm rs ∨ i = .lhu rt imm rs ∨ i = .sh rt imm rs) ∧ a = effAddr s rs imm

/-- The instruction makes a whole-word access at an address (spec/20_memory.md R49). -/
def WordAccess (i : Instr) (s : State) (a : Word) : Prop :=
  ∃ rt imm rs, (i = .lw rt imm rs ∨ i = .sw rt imm rs) ∧ a = effAddr s rs imm

/-- The instruction divides by a value (spec/45_muldiv.md R183, R184). -/
def DividesBy (i : Instr) (s : State) (d : Word) : Prop :=
  ∃ rs rt, (i = .div rs rt ∨ i = .divu rs rt) ∧ d = s.reg rt

/-- The instruction is one of the five stores (spec/43_load_store.md R151 to R155). -/
def Store (i : Instr) : Prop :=
  ∃ rt imm rs, i = .sb rt imm rs ∨ i = .sh rt imm rs ∨ i = .sw rt imm rs ∨ i = .swl rt imm rs ∨ i = .swr rt imm rs

/-- The next state has every field of the other but `hi` and `lo`. -/
def SameButHiLo (t u : State) : Prop := u = { t with hi := u.hi, lo := u.lo }

/-- The next state has every field of the other but the memory and the sinks. -/
def SameButMemoryAndSinks (t u : State) : Prop :=
  u = { t with mem := u.mem, sink1 := u.sink1, sink2 := u.sink2 }

/-! ### Illegal words and the errors of an instruction -/

/-- The `funct` values of the 27 legal cells of the SPECIAL table (spec/30_encoding.md R77). -/
def legalFuncts : List (BitVec 6) :=
  [0#6, 2#6, 3#6, 4#6, 6#6, 7#6, 8#6, 9#6, 12#6, 16#6, 17#6, 18#6, 19#6, 24#6, 25#6, 26#6, 27#6] ++
  [32#6, 33#6, 34#6, 35#6, 36#6, 37#6, 38#6, 39#6, 42#6, 43#6]

/-- The `op` values of the 26 legal cells of the primary table other than SPECIAL and REGIMM (R76). -/
def legalOps : List (BitVec 6) :=
  [2#6, 3#6, 4#6, 5#6, 6#6, 7#6, 8#6, 9#6, 10#6, 11#6, 12#6, 13#6, 14#6, 15#6] ++
  [32#6, 33#6, 34#6, 35#6, 36#6, 37#6, 38#6, 40#6, 41#6, 42#6, 43#6, 46#6]

/-- The word is one of those R80 lists: an empty or rejected cell of R76 or R77, an `rt` R78 excludes, or one of `lwl`,
`lwr`, `swl`, `swr` while `UNALIGNED_WORD_OPS` is false. -/
def IllegalWord (cfg : Config) (w : Word) : Prop :=
  (opField w = 0#6 ∧ functField w ∉ legalFuncts) ∨
  (opField w = 1#6 ∧ rtField w ∉ [0#5, 1#5, 16#5, 17#5]) ∨
  (opField w ≠ 0#6 ∧ opField w ≠ 1#6 ∧ opField w ∉ legalOps) ∨
  (cfg.unalignedWordOps = false ∧ opField w ∈ [34#6, 38#6, 42#6, 46#6])

/-- The errors of `syscall` in the order of spec/60_exceptions.md R256: the number, the descriptor, the oracle (R202,
R208, R210, R221 of spec/46_syscall.md). -/
def SyscallFailsWith (s : State) (e : Fault) : Prop :=
  (s.reg 2#5 ∉ [s.cfg.sysExit, s.cfg.sysExitGroup, s.cfg.sysBrk, s.cfg.sysMmap, s.cfg.sysClone, s.cfg.sysRead,
      s.cfg.sysWrite] ∧ e = .unsupportedSyscall (s.reg 2#5) none) ∨
  (s.reg 2#5 = s.cfg.sysRead ∧ s.reg 4#5 ∉ [Config.fdStdin, s.cfg.fdPreimage] ∧
    e = .unsupportedSyscall (s.reg 2#5) (some (s.reg 4#5))) ∨
  (s.reg 2#5 = s.cfg.sysWrite ∧ s.reg 4#5 ∉ [Config.fdStdout, Config.fdStderr, s.cfg.fdPreimage] ∧
    e = .unsupportedSyscall (s.reg 2#5) (some (s.reg 4#5))) ∨
  (s.reg 2#5 = s.cfg.sysRead ∧ s.reg 4#5 = s.cfg.fdPreimage ∧ s.oracle.get s.pkey = none ∧ e = .oracleMiss s.pkey)

/-- The error the execute phase of an instruction raises in a state (spec/60_exceptions.md R250, R256 stages 4, 5). -/
def FailsWith (i : Instr) (s : State) (e : Fault) : Prop :=
  (Transfer i ∧ ¬ SlotFree s ∧ e = .branchInDelaySlot s.pc) ∨
  (∃ a, HalfwordAccess i s a ∧ a &&& 1#32 ≠ 0#32 ∧ e = .misalignedAccess a) ∨
  (∃ a, WordAccess i s a ∧ a &&& 3#32 ≠ 0#32 ∧ e = .misalignedAccess a) ∨
  (DividesBy i s 0#32 ∧ e = .divideByZero s.pc) ∨
  (i = .syscall ∧ SyscallFailsWith s e)

/-! ### The invariant -/

/-- What every step keeps: the memory is in canonical form and slot 0 of the register file is zero (R11, R34 (a)). -/
structure Inv (s : State) : Prop where
  memCanonical : Memory.wf s.mem = true
  slotZero : s.regs[0] = 0#32

end Sys2Proof.Machine
end

