-- ==== Sys2Proof/Certificates/Slice0/Obligations.lean ====
section
/-! DEFINITION. The statements for the provers, listed in OBLIGATIONS.json: each formalises the rules of spec/ its
docstring names. -/

open Sys2Proof Sys2Proof.Machine

/-! ### Encoding (spec/30_encoding.md) -/

/-- Round trip over all instructions (spec/30_encoding.md R70 to R80): no bit of an encoding is dropped. -/
def Obligations.DecodeOfEncodeIsTheInstruction : Prop :=
  (∀ (i : Instr) (rest : List Byte), decodeBytes (wordBytes (encode i) ++ rest) = .ok (i, rest)) ∧
  ∀ (cfg : Config) (i : Instr), decode cfg (encode i) = if i.wellFormed cfg then some i else none

/-- The masks and patterns of spec/opcode_table.json against the decoder written from R74 to R78. -/
def Obligations.DecoderFollowsTheOpcodeTable : Prop :=
  ∀ w : Word,
    (∀ row ∈ opcodeTable, row.fits w = true →
      ∃ i, decodeWord w = .ok i ∧ i.mnemonic = row.mnemonic ∧ i.rejectedRow = !row.legal) ∧
    (∀ i, decodeWord w = .ok i → ∃ row ∈ opcodeTable, row.fits w = true ∧ row.mnemonic = i.mnemonic) ∧
    ∀ row ∈ opcodeTable, ∀ row' ∈ opcodeTable, row.fits w = true → row'.fits w = true → row = row'

/-- R79, row by row of its table. Execution sees the decoded instruction alone (StepRunsTheDecodedInstruction). -/
def Obligations.UnusedFieldsAreIgnored : Prop :=
  ∀ v w : Word, opField v = opField w →
    (opField w = 0#6 → functField v = functField w →
      (functField w ∈ [0#6, 2#6, 3#6] → rtField v = rtField w → rdField v = rdField w →
        shamtField v = shamtField w → decodeWord v = decodeWord w) ∧
      (functField w ∈ [4#6, 6#6, 7#6, 32#6, 33#6, 34#6, 35#6, 36#6, 37#6, 38#6, 39#6, 42#6, 43#6] →
        rsField v = rsField w → rtField v = rtField w → rdField v = rdField w → decodeWord v = decodeWord w) ∧
      (functField w = 8#6 → rsField v = rsField w → decodeWord v = decodeWord w) ∧
      (functField w = 9#6 → rsField v = rsField w → rdField v = rdField w → decodeWord v = decodeWord w) ∧
      (functField w = 12#6 → decodeWord v = decodeWord w) ∧
      (functField w ∈ [16#6, 18#6] → rdField v = rdField w → decodeWord v = decodeWord w) ∧
      (functField w ∈ [17#6, 19#6] → rsField v = rsField w → decodeWord v = decodeWord w) ∧
      (functField w ∈ [24#6, 25#6, 26#6, 27#6] → rsField v = rsField w → rtField v = rtField w →
        decodeWord v = decodeWord w)) ∧
    (opField w = 15#6 → rtField v = rtField w → immField v = immField w → decodeWord v = decodeWord w) ∧
    (opField w ∈ [6#6, 7#6] → rsField v = rsField w → immField v = immField w → decodeWord v = decodeWord w)

/-- R74 (decoding is total, into one of the 57 or IllegalInstruction), R80 (which words), R94 (the step fails). -/
def Obligations.IllegalWordsFailTheStep : Prop :=
  (∀ (cfg : Config) (w : Word), (decode cfg w = none ↔ IllegalWord cfg w) ∧
    ∀ i, decode cfg w = some i → i.wellFormed cfg = true) ∧
  ∀ (s : State) (w : Word), s.exited = false → s.pc &&& 3#32 = 0#32 → Memory.wordAt s.mem s.pc = w →
    (IllegalWord s.cfg w → step s = .fault (.illegalInstruction w)) ∧
    (¬ IllegalWord s.cfg w → ∃ i, decode s.cfg w = some i ∧ step s = exec i s)

/-- The words are those the spec prints: R111, R124, R128, R131, R136, R144, R155, R164, R166, R168, R177, R183, R187,
R200, R80. -/
def Obligations.SampleWordsDecode : Prop :=
  decodeWord 0x00221820#32 = .ok (.add 3 1 2) ∧
  decodeWord 0x2C22FFFF#32 = .ok (.sltiu 2 1 0xFFFF) ∧
  decodeWord 0x3C021234#32 = .ok (.lui 2 0x1234) ∧
  decodeWord 0x00021900#32 = .ok (.sll 3 2 4) ∧
  decodeWord 0x00221807#32 = .ok (.srav 3 2 1) ∧
  decodeWord 0x80220001#32 = .ok (.lb 2 1 1) ∧
  decodeWord 0xB8220002#32 = .ok (.swr 2 2 1) ∧
  decodeWord 0x0C100008#32 = .ok (.jal 0x100008) ∧
  decodeWord 0x0320F809#32 = .ok (.jalr 31 25) ∧
  decodeWord 0x1422FFFE#32 = .ok (.bne 1 2 0xFFFE) ∧
  decodeWord 0x04310003#32 = .ok (.bgezal 1 3) ∧
  decodeWord 0x0022001A#32 = .ok (.div 1 2) ∧
  decodeWord 0x00001812#32 = .ok (.mflo 3) ∧
  decodeWord 0x0000000C#32 = .ok .syscall ∧
  decodeWord 0x0000000F#32 = .error (.special 15)

/-! ### The step (spec/40_step_cycle.md) and the state (spec/10_state.md) -/

/-- R93, R94, R98; the bytes are big-endian (R70). -/
def Obligations.StepRunsTheDecodedInstruction : Prop :=
  ∀ (s : State) (i : Instr), s.exited = false → s.pc &&& 3#32 = 0#32 →
    decodeBytes [s.byte s.pc.toNat, s.byte (s.pc.toNat + 1), s.byte (s.pc.toNat + 2), s.byte (s.pc.toNat + 3)] =
      .ok (i, []) →
    step s = exec i s

/-- The outcomes of R90; a halted state is final and has no successor (R91). That the interface's refusal carries this
outcome is the model's form (log entry 7). -/
def Obligations.StepHasExactlyThreeOutcomes : Prop :=
  ∀ (H : HashFn) (s : State),
    (s.exited = true ∧ step s = .refused .halted ∧ witnessWith H s = none) ∨
    (s.exited = false ∧ (∃ t, step s = .next t) ∧ ∃ w, witnessWith H s = some w) ∨
    (s.exited = false ∧ (∃ e, step s = .fault e) ∧ witnessWith H s = none)

/-- R250 (the six errors, what raises each, what each carries) and R256 (the order). -/
def Obligations.StepFailsWithTheFirstErrorItMeets : Prop :=
  ∀ (s : State) (e : Fault), s.exited = false → DistinctCalls s.cfg →
    (step s = .fault e ↔
      (s.pc &&& 3#32 ≠ 0#32 ∧ e = .misalignedAccess s.pc) ∨
      (s.pc &&& 3#32 = 0#32 ∧ decode s.cfg (Memory.wordAt s.mem s.pc) = none ∧
        e = .illegalInstruction (Memory.wordAt s.mem s.pc)) ∨
      (s.pc &&& 3#32 = 0#32 ∧ ∃ i, decode s.cfg (Memory.wordAt s.mem s.pc) = some i ∧ FailsWith i s e))

/-- R95, R96; with R12 (no instruction writes PC), R13 and R17. -/
def Obligations.CompletedStepRetires : Prop :=
  ∀ s t : State, s.exited = false → step s = .next t →
    t.pc = s.nextPc ∧ t.stepCount = s.stepCount + 1#64 ∧
    (t.nextPc = s.nextPc + 4#32 ∨ ∃ i, decode s.cfg (Memory.wordAt s.mem s.pc) = some i ∧ Transfer i)

/-- R100. In the model the oracle is a field of the state that no step changes (log entries 3, 4). -/
def Obligations.OracleMattersOnlyAtTheCurrentKey : Prop :=
  ∀ (H : HashFn) (s : State) (o : Oracle), o.get s.pkey = s.oracle.get s.pkey →
    (∀ t, step s = .next t → step { s with oracle := o } = .next { t with oracle := o }) ∧
    (∀ e, step s = .fault e → step { s with oracle := o } = .fault e) ∧
    (∀ r, step s = .refused r → step { s with oracle := o } = .refused r) ∧
    witnessWith H { s with oracle := o } = witnessWith H s

/-- R34 (a) and the model's canonical form of memory (log entry 8), from every state that has them. -/
def Obligations.EveryStepKeepsTheInvariant : Prop :=
  ∀ s t : State, Inv s → step s = .next t → Inv t ∧ SameParameters s t

/-- R34 (a) at the loaded state. -/
def Obligations.ResetMeetsTheInvariant : Prop :=
  Inv State.reset

/-- R15, R16, R204. The model's own: the form of the halted outcome (log entry 7), and that the exit numbers come first in a
configuration that gives another call the same number (log entry 24). -/
def Obligations.ExitedIsSetOnlyByTheExitCalls : Prop :=
  ∀ s : State,
    (s.exited = true → step s = .refused .halted) ∧
    ∀ t, s.exited = false → step s = .next t →
      (decode s.cfg (Memory.wordAt s.mem s.pc) = some .syscall ∧
          (s.reg 2#5 = s.cfg.sysExit ∨ s.reg 2#5 = s.cfg.sysExitGroup) ∧
          t.exited = true ∧ t.exitCode = (s.reg 4#5).setWidth 8) ∨
      (¬ (decode s.cfg (Memory.wordAt s.mem s.pc) = some .syscall ∧
          (s.reg 2#5 = s.cfg.sysExit ∨ s.reg 2#5 = s.cfg.sysExitGroup)) ∧
          SameExit s t)

/-- R14. -/
def Obligations.HiLoAreTouchedOnlyByTheirInstructions : Prop :=
  ∀ (i : Instr) (s t : State), exec i s = .next t →
    (t.hi ≠ s.hi → (∃ rs rt, i = .mult rs rt ∨ i = .multu rs rt ∨ i = .div rs rt ∨ i = .divu rs rt) ∨
      ∃ rs, i = .mthi rs) ∧
    (t.lo ≠ s.lo → (∃ rs rt, i = .mult rs rt ∨ i = .multu rs rt ∨ i = .div rs rt ∨ i = .divu rs rt) ∨
      ∃ rs, i = .mtlo rs) ∧
    ∀ hi lo : Word, (∀ rd, i ≠ .mfhi rd ∧ i ≠ .mflo rd) →
      ∃ u, exec i { s with hi := hi, lo := lo } = .next u ∧ SameButHiLo t u

/-- R19, and the writes of R18. -/
def Obligations.CursorsMoveOnlyByTheirCalls : Prop :=
  ∀ (i : Instr) (s t : State), exec i s = .next t →
    (t.heap ≠ s.heap → i = .syscall ∧ (s.reg 2#5 = s.cfg.sysBrk ∨ s.reg 2#5 = s.cfg.sysMmap)) ∧
    (t.pkey ≠ s.pkey →
      i = .syscall ∧ s.reg 2#5 = s.cfg.sysWrite ∧ s.reg 4#5 = s.cfg.fdPreimage ∧ t.poff = 0#32) ∧
    (t.poff ≠ s.poff → i = .syscall ∧ s.reg 4#5 = s.cfg.fdPreimage ∧
      ((s.reg 2#5 = s.cfg.sysWrite ∧ t.poff = 0#32) ∨
       (s.reg 2#5 = s.cfg.sysRead ∧ t.poff = s.poff + t.reg 2#5)))

/-- R58, R42: the write side of the two-location bound. -/
def Obligations.MemoryChangesOnlyInTheAccessedWord : Prop :=
  ∀ (i : Instr) (s t : State) (a : Nat), exec i s = .next t → t.byte a ≠ s.byte a →
    ∃ d, dataAccess i s = some d ∧ d &&& 3#32 = 0#32 ∧ d.toNat ≤ a ∧ a < d.toNat + 4 ∧
      (Store i ∨ (i = .syscall ∧ s.call = .readPreimage))

/-- R58: the read side of the two-location bound, on which the witness rests (R237). -/
def Obligations.StepDependsOnTwoWordsOfMemory : Prop :=
  ∀ (s t : State) (m : Memory) (i : Instr), s.exited = false → step s = .next t →
    decode s.cfg (Memory.wordAt s.mem s.pc) = some i →
    Memory.wordAt m s.pc = Memory.wordAt s.mem s.pc →
    (∀ d, dataAccess i s = some d → Memory.wordAt m d = Memory.wordAt s.mem d) →
    ∃ u, step { s with mem := m } = .next u ∧ SameButMemoryAndSinks t u ∧
      ∀ d, dataAccess i s = some d → Memory.wordAt u.mem d = Memory.wordAt t.mem d

/-! ### Memory (spec/20_memory.md) and load (spec/70_reset_and_hazards.md) -/

/-- R43, R44. -/
def Obligations.ReadWordReturnsTheLastWordWritten : Prop :=
  ∀ (m : Memory) (a v : Word),
    (a &&& 3#32 ≠ 0#32 → m.readWord a = .error (.misalignedAccess a) ∧
      m.writeWord a v = .error (.misalignedAccess a)) ∧
    (a &&& 3#32 = 0#32 → Memory.readWord [] a = .ok 0#32 ∧
      ∃ m', m.writeWord a v = .ok m' ∧ m'.readWord a = .ok v ∧
        (∀ b, b &&& 3#32 = 0#32 → b ≠ a → m'.readWord b = m.readWord b) ∧
        (Memory.wf m = true → m.readWord a = .ok 0#32 → m'.writeWord a 0#32 = .ok m))

/-- R45, for data and for the fetch. -/
def Obligations.BytesLieBigEndianInTheirWord : Prop :=
  (∀ s : State, s.pc &&& 3#32 = 0#32 → fetch s = .ok (wordOfBytes (s.byte s.pc.toNat) (s.byte (s.pc.toNat + 1))
    (s.byte (s.pc.toNat + 2)) (s.byte (s.pc.toNat + 3)))) ∧
  ∀ (m : Memory) (a : Word),
    m.readByte a.toNat =
      (m.wordAt (a &&& 0xFFFFFFFC#32)).extractLsb' (24 - 8 * (a &&& 3#32).toNat) 8 ∧
    m.memReadByte a = m.readByte a.toNat ∧
    (a &&& 1#32 = 0#32 →
      m.memReadHalf a = .ok (if a &&& 2#32 = 0#32 then (m.wordAt (a &&& 0xFFFFFFFC#32)).extractLsb' 16 16
        else (m.wordAt (a &&& 0xFFFFFFFC#32)).extractLsb' 0 16) ∧
      m.memReadHalf a = .ok (m.readByte a.toNat ++ m.readByte (a.toNat + 1))) ∧
    (a &&& 3#32 = 0#32 → ∀ v m', m.writeWord a v = .ok m' →
      m'.readByte a.toNat = v.extractLsb' 24 8 ∧ m'.readByte (a.toNat + 1) = v.extractLsb' 16 8 ∧
      m'.readByte (a.toNat + 2) = v.extractLsb' 8 8 ∧ m'.readByte (a.toNat + 3) = v.extractLsb' 0 8)

/-- The model's canonical form (log entry 8); R33 then holds of states as data. -/
def Obligations.CanonicalMemoriesWithEqualBytesAreEqual : Prop :=
  ∀ m m' : Memory, Memory.wf m = true → Memory.wf m' = true → (∀ a, m.readByte a = m'.readByte a) → m = m'

/-- R46. The canonical form that the last clause keeps is the model's (log entry 8), and so is `none` for the refusal
(log entry 25). -/
def Obligations.SetRangeStoresExactlyItsBytes : Prop :=
  ∀ (m : Memory) (a : Word) (bytes : List Byte),
    (a.toNat + bytes.length ≤ 2 ^ 32 → ∃ m', m.setRange a bytes = some m' ∧
      (∀ b, m'.readByte b =
        if a.toNat ≤ b ∧ b < a.toNat + bytes.length then bytes.getD (b - a.toNat) 0#8 else m.readByte b) ∧
      (Memory.wf m = true → Memory.wf m' = true)) ∧
    (2 ^ 32 < a.toNat + bytes.length → m.setRange a bytes = none)

/-- R282's column of defaults, for every ENTRY_PC and HEAP_START, and R281's legality (with the canonical memory of log
entry 8). That State.reset is this state at Config.default is the model's choice (log entries 1, 2, 12). -/
def Obligations.DefaultLoadedStateIsLegal : Prop :=
  State.reset = State.defaults Config.default ∧
  ∀ (cfg : Config) (s : State), s = State.defaults cfg →
    s.pc = cfg.entryPc ∧ s.nextPc = s.pc + 4#32 ∧ (∀ r, s.reg r = 0#32) ∧ s.hi = 0#32 ∧ s.lo = 0#32 ∧
    s.heap = cfg.heapStart ∧ s.exited = false ∧ s.exitCode = 0#8 ∧ s.stepCount = 0#64 ∧
    s.pkey.toList = List.replicate 32 0#8 ∧ s.poff = 0#32 ∧ (∀ a, s.byte a = 0#8) ∧
    (∀ k, s.oracle.get k = none) ∧ s.sink1 = [] ∧ s.sink2 = [] ∧
    (cfg.entryPc &&& 3#32 = 0#32 → s.Legal)

/-! ### Arithmetic and logic (spec/41_alu.md), shifts (spec/42_shift.md) -/

/-- R111 to R114, and of R110 and R129 what they say of these four. -/
def Obligations.AddAndSubWrap : Prop :=
  ∀ (s : State) (rd rs rt : Reg) (shamt : BitVec 5),
    (decodeWord (rWord 0 rs rt rd shamt 32) = .ok (.add rd rs rt) ∧
      ∃ t, exec (.add rd rs rt) s = .next t ∧
        WritesOnlyReg rd (BitVec.ofNat 32 ((s.reg rs).toNat + (s.reg rt).toNat)) s t) ∧
    (decodeWord (rWord 0 rs rt rd shamt 33) = .ok (.addu rd rs rt) ∧
      ∃ t, exec (.addu rd rs rt) s = .next t ∧
        WritesOnlyReg rd (BitVec.ofNat 32 ((s.reg rs).toNat + (s.reg rt).toNat)) s t) ∧
    (decodeWord (rWord 0 rs rt rd shamt 34) = .ok (.sub rd rs rt) ∧
      ∃ t, exec (.sub rd rs rt) s = .next t ∧
        WritesOnlyReg rd (BitVec.ofInt 32 ((s.reg rs).toNat - (s.reg rt).toNat)) s t) ∧
    (decodeWord (rWord 0 rs rt rd shamt 35) = .ok (.subu rd rs rt) ∧
      ∃ t, exec (.subu rd rs rt) s = .next t ∧
        WritesOnlyReg rd (BitVec.ofInt 32 ((s.reg rs).toNat - (s.reg rt).toNat)) s t)

/-- R115 to R118, and of R110 what it says of these four. -/
def Obligations.BitwiseInstructionsWorkBitByBit : Prop :=
  ∀ (s : State) (rd rs rt : Reg) (shamt : BitVec 5),
    (decodeWord (rWord 0 rs rt rd shamt 36) = .ok (.and rd rs rt) ∧
      ∃ t v, exec (.and rd rs rt) s = .next t ∧ WritesOnlyReg rd v s t ∧
        ∀ k < 32, v.getLsbD k = ((s.reg rs).getLsbD k && (s.reg rt).getLsbD k)) ∧
    (decodeWord (rWord 0 rs rt rd shamt 37) = .ok (.or rd rs rt) ∧
      ∃ t v, exec (.or rd rs rt) s = .next t ∧ WritesOnlyReg rd v s t ∧
        ∀ k < 32, v.getLsbD k = ((s.reg rs).getLsbD k || (s.reg rt).getLsbD k)) ∧
    (decodeWord (rWord 0 rs rt rd shamt 38) = .ok (.xor rd rs rt) ∧
      ∃ t v, exec (.xor rd rs rt) s = .next t ∧ WritesOnlyReg rd v s t ∧
        ∀ k < 32, v.getLsbD k = ((s.reg rs).getLsbD k != (s.reg rt).getLsbD k)) ∧
    (decodeWord (rWord 0 rs rt rd shamt 39) = .ok (.nor rd rs rt) ∧
      ∃ t v, exec (.nor rd rs rt) s = .next t ∧ WritesOnlyReg rd v s t ∧
        ∀ k < 32, v.getLsbD k = !((s.reg rs).getLsbD k || (s.reg rt).getLsbD k))

/-- R119, R120, and of R110 what it says of these two. -/
def Obligations.CompareWritesOneOrZero : Prop :=
  ∀ (s : State) (rd rs rt : Reg) (shamt : BitVec 5),
    (decodeWord (rWord 0 rs rt rd shamt 42) = .ok (.slt rd rs rt) ∧
      ∃ t, exec (.slt rd rs rt) s = .next t ∧
        WritesOnlyReg rd (if (s.reg rs).toInt < (s.reg rt).toInt then 1#32 else 0#32) s t) ∧
    (decodeWord (rWord 0 rs rt rd shamt 43) = .ok (.sltu rd rs rt) ∧
      ∃ t, exec (.sltu rd rs rt) s = .next t ∧
        WritesOnlyReg rd (if (s.reg rs).toNat < (s.reg rt).toNat then 1#32 else 0#32) s t)

/-- R121 to R124, and of R110 what it says of these four. -/
def Obligations.SignExtendedImmediateArithmetic : Prop :=
  ∀ (s : State) (rt rs : Reg) (imm : BitVec 16),
    (decodeWord (iWord 8 rs rt imm) = .ok (.addi rt rs imm) ∧
      ∃ t, exec (.addi rt rs imm) s = .next t ∧
        WritesOnlyReg rt (BitVec.ofInt 32 ((s.reg rs).toNat + imm.toInt)) s t) ∧
    (decodeWord (iWord 9 rs rt imm) = .ok (.addiu rt rs imm) ∧
      ∃ t, exec (.addiu rt rs imm) s = .next t ∧
        WritesOnlyReg rt (BitVec.ofInt 32 ((s.reg rs).toNat + imm.toInt)) s t) ∧
    (decodeWord (iWord 10 rs rt imm) = .ok (.slti rt rs imm) ∧
      ∃ t, exec (.slti rt rs imm) s = .next t ∧
        WritesOnlyReg rt (if (s.reg rs).toInt < imm.toInt then 1#32 else 0#32) s t) ∧
    (decodeWord (iWord 11 rs rt imm) = .ok (.sltiu rt rs imm) ∧
      ∃ t, exec (.sltiu rt rs imm) s = .next t ∧
        WritesOnlyReg rt (if (s.reg rs).toNat < (BitVec.ofInt 32 imm.toInt).toNat then 1#32 else 0#32) s t)

/-- R125 to R128, and of R110 what it says of these four. -/
def Obligations.ZeroExtendedImmediateLogic : Prop :=
  ∀ (s : State) (rt rs : Reg) (imm : BitVec 16),
    (decodeWord (iWord 12 rs rt imm) = .ok (.andi rt rs imm) ∧
      ∃ t, exec (.andi rt rs imm) s = .next t ∧
        WritesOnlyReg rt (0#16 ++ ((s.reg rs).extractLsb' 0 16 &&& imm)) s t) ∧
    (decodeWord (iWord 13 rs rt imm) = .ok (.ori rt rs imm) ∧
      ∃ t, exec (.ori rt rs imm) s = .next t ∧
        WritesOnlyReg rt ((s.reg rs).extractLsb' 16 16 ++ ((s.reg rs).extractLsb' 0 16 ||| imm)) s t) ∧
    (decodeWord (iWord 14 rs rt imm) = .ok (.xori rt rs imm) ∧
      ∃ t, exec (.xori rt rs imm) s = .next t ∧
        WritesOnlyReg rt ((s.reg rs).extractLsb' 16 16 ++ ((s.reg rs).extractLsb' 0 16 ^^^ imm)) s t) ∧
    (decodeWord (iWord 15 rs rt imm) = .ok (.lui rt imm) ∧
      ∃ t, exec (.lui rt imm) s = .next t ∧ WritesOnlyReg rt (BitVec.ofNat 32 (imm.toNat * 65536)) s t)

/-- R131 to R133 (Int division by a positive number is the floor), and of R130 what it says of these three. -/
def Obligations.ShiftsByTheShamtField : Prop :=
  ∀ (s : State) (rd rt rs : Reg) (shamt : BitVec 5),
    (decodeWord (rWord 0 rs rt rd shamt 0) = .ok (.sll rd rt shamt) ∧
      ∃ t, exec (.sll rd rt shamt) s = .next t ∧
        WritesOnlyReg rd (BitVec.ofNat 32 ((s.reg rt).toNat * 2 ^ shamt.toNat)) s t) ∧
    (decodeWord (rWord 0 rs rt rd shamt 2) = .ok (.srl rd rt shamt) ∧
      ∃ t, exec (.srl rd rt shamt) s = .next t ∧
        WritesOnlyReg rd (BitVec.ofNat 32 ((s.reg rt).toNat / 2 ^ shamt.toNat)) s t) ∧
    (decodeWord (rWord 0 rs rt rd shamt 3) = .ok (.sra rd rt shamt) ∧
      ∃ t, exec (.sra rd rt shamt) s = .next t ∧
        WritesOnlyReg rd (BitVec.ofInt 32 ((s.reg rt).toInt / (2 : Int) ^ shamt.toNat)) s t)

/-- R134 to R136, and of R130 what it says of these three. -/
def Obligations.ShiftsByTheLowFiveBits : Prop :=
  ∀ (s : State) (rd rt rs : Reg) (shamt : BitVec 5),
    (decodeWord (rWord 0 rs rt rd shamt 4) = .ok (.sllv rd rt rs) ∧
      ∃ t, exec (.sllv rd rt rs) s = .next t ∧
        WritesOnlyReg rd (BitVec.ofNat 32 ((s.reg rt).toNat * 2 ^ ((s.reg rs).toNat % 32))) s t) ∧
    (decodeWord (rWord 0 rs rt rd shamt 6) = .ok (.srlv rd rt rs) ∧
      ∃ t, exec (.srlv rd rt rs) s = .next t ∧
        WritesOnlyReg rd (BitVec.ofNat 32 ((s.reg rt).toNat / 2 ^ ((s.reg rs).toNat % 32))) s t) ∧
    (decodeWord (rWord 0 rs rt rd shamt 7) = .ok (.srav rd rt rs) ∧
      ∃ t, exec (.srav rd rt rs) s = .next t ∧
        WritesOnlyReg rd (BitVec.ofInt 32 ((s.reg rt).toInt / (2 : Int) ^ ((s.reg rs).toNat % 32))) s t)

/-! ### Loads and stores (spec/43_load_store.md) -/

/-- R144, R145 (with R140's address), and of R141 what it says of these two. -/
def Obligations.LoadByteExtends : Prop :=
  ∀ (s : State) (rt rs : Reg) (imm : BitVec 16) (addr : Word),
    addr = BitVec.ofInt 32 ((s.reg rs).toNat + imm.toInt) →
    (decodeWord (iWord 32 rs rt imm) = .ok (.lb rt imm rs) ∧
      ∃ t, exec (.lb rt imm rs) s = .next t ∧
        WritesOnlyReg rt (BitVec.ofInt 32 (s.byte addr.toNat).toInt) s t) ∧
    (decodeWord (iWord 36 rs rt imm) = .ok (.lbu rt imm rs) ∧
      ∃ t, exec (.lbu rt imm rs) s = .next t ∧
        WritesOnlyReg rt (BitVec.ofNat 32 (s.byte addr.toNat).toNat) s t)

/-- R146, R147 (with R140's address), and of R141, R142 what they say of these two. -/
def Obligations.LoadHalfwordExtendsOrFails : Prop :=
  ∀ (s : State) (rt rs : Reg) (imm : BitVec 16) (addr : Word),
    addr = BitVec.ofInt 32 ((s.reg rs).toNat + imm.toInt) →
    (decodeWord (iWord 33 rs rt imm) = .ok (.lh rt imm rs) ∧
      decodeWord (iWord 37 rs rt imm) = .ok (.lhu rt imm rs)) ∧
    (addr.toNat % 2 = 0 →
      (∃ t, exec (.lh rt imm rs) s = .next t ∧
        WritesOnlyReg rt (BitVec.ofInt 32 (s.byte addr.toNat ++ s.byte (addr.toNat + 1)).toInt) s t) ∧
      (∃ t, exec (.lhu rt imm rs) s = .next t ∧
        WritesOnlyReg rt (BitVec.ofNat 32 (s.byte addr.toNat ++ s.byte (addr.toNat + 1)).toNat) s t)) ∧
    (addr.toNat % 2 = 1 →
      exec (.lh rt imm rs) s = .fault (.misalignedAccess addr) ∧
      exec (.lhu rt imm rs) s = .fault (.misalignedAccess addr))

/-- R148 (with R140's address), and of R141, R142 what they say of lw. -/
def Obligations.LoadWordOrFails : Prop :=
  ∀ (s : State) (rt rs : Reg) (imm : BitVec 16) (addr : Word),
    addr = BitVec.ofInt 32 ((s.reg rs).toNat + imm.toInt) →
    decodeWord (iWord 35 rs rt imm) = .ok (.lw rt imm rs) ∧
    (addr.toNat % 4 = 0 → ∃ t, exec (.lw rt imm rs) s = .next t ∧
      WritesOnlyReg rt (wordOfBytes (s.byte addr.toNat) (s.byte (addr.toNat + 1)) (s.byte (addr.toNat + 2))
        (s.byte (addr.toNat + 3))) s t) ∧
    (addr.toNat % 4 ≠ 0 → exec (.lw rt imm rs) s = .fault (.misalignedAccess addr))

/-- R149, R150 (with R140's address), and of R141 what it says of these two. -/
def Obligations.LoadPartialWordMerges : Prop :=
  ∀ (s : State) (rt rs : Reg) (imm : BitVec 16) (addr : Word),
    addr = BitVec.ofInt 32 ((s.reg rs).toNat + imm.toInt) →
    (decodeWord (iWord 34 rs rt imm) = .ok (.lwl rt imm rs) ∧
      decodeWord (iWord 38 rs rt imm) = .ok (.lwr rt imm rs)) ∧
    (s.cfg.unalignedWordOps = true →
      (∃ t v, exec (.lwl rt imm rs) s = .next t ∧ WritesOnlyReg rt v s t ∧ ∀ k < 4, byteOf v k =
        if k + addr.toNat % 4 < 4 then s.byte (addr.toNat + k) else byteOf (s.reg rt) k) ∧
      (∃ t v, exec (.lwr rt imm rs) s = .next t ∧ WritesOnlyReg rt v s t ∧ ∀ k < 4, byteOf v k =
        if 3 ≤ k + addr.toNat % 4 then s.byte (addr.toNat + k - 3) else byteOf (s.reg rt) k)) ∧
    (s.cfg.unalignedWordOps = false →
      exec (.lwl rt imm rs) s = .fault (.illegalInstruction (iWord 34 rs rt imm)) ∧
      exec (.lwr rt imm rs) s = .fault (.illegalInstruction (iWord 38 rs rt imm)))

/-- R151 (with R140's address), and of R141 what it says of sb. -/
def Obligations.StoreByteChangesOneByte : Prop :=
  ∀ (s : State) (rt rs : Reg) (imm : BitVec 16) (addr : Word),
    addr = BitVec.ofInt 32 ((s.reg rs).toNat + imm.toInt) →
    decodeWord (iWord 40 rs rt imm) = .ok (.sb rt imm rs) ∧
    ∃ t, exec (.sb rt imm rs) s = .next t ∧ StoresOnly addr.toNat 1 s t ∧
      t.byte addr.toNat = (s.reg rt).extractLsb' 0 8

/-- R152, R153 (with R140's address), and of R141, R142 what they say of these two. -/
def Obligations.StoreHalfwordAndWordOrFail : Prop :=
  ∀ (s : State) (rt rs : Reg) (imm : BitVec 16) (addr : Word),
    addr = BitVec.ofInt 32 ((s.reg rs).toNat + imm.toInt) →
    (decodeWord (iWord 41 rs rt imm) = .ok (.sh rt imm rs) ∧
      decodeWord (iWord 43 rs rt imm) = .ok (.sw rt imm rs)) ∧
    (addr.toNat % 2 = 0 → ∃ t, exec (.sh rt imm rs) s = .next t ∧ StoresOnly addr.toNat 2 s t ∧
      t.byte addr.toNat = (s.reg rt).extractLsb' 8 8 ∧ t.byte (addr.toNat + 1) = (s.reg rt).extractLsb' 0 8) ∧
    (addr.toNat % 2 = 1 → exec (.sh rt imm rs) s = .fault (.misalignedAccess addr)) ∧
    (addr.toNat % 4 = 0 → ∃ t, exec (.sw rt imm rs) s = .next t ∧ StoresOnly addr.toNat 4 s t ∧
      ∀ k < 4, t.byte (addr.toNat + k) = (s.reg rt).extractLsb' (24 - 8 * k) 8) ∧
    (addr.toNat % 4 ≠ 0 → exec (.sw rt imm rs) s = .fault (.misalignedAccess addr))

/-- R154, R155 (with R140's address), and of R141 what it says of these two. -/
def Obligations.StorePartialWordMerges : Prop :=
  ∀ (s : State) (rt rs : Reg) (imm : BitVec 16) (addr : Word) (b : Nat),
    addr = BitVec.ofInt 32 ((s.reg rs).toNat + imm.toInt) → b = addr.toNat % 4 →
    (decodeWord (iWord 42 rs rt imm) = .ok (.swl rt imm rs) ∧
      decodeWord (iWord 46 rs rt imm) = .ok (.swr rt imm rs)) ∧
    (s.cfg.unalignedWordOps = true →
      (∃ t, exec (.swl rt imm rs) s = .next t ∧ StoresOnly addr.toNat (4 - b) s t ∧
        ∀ k < 4 - b, t.byte (addr.toNat + k) = byteOf (s.reg rt) k) ∧
      (∃ t, exec (.swr rt imm rs) s = .next t ∧ StoresOnly (addr.toNat - b) (b + 1) s t ∧
        ∀ k ≤ b, t.byte (addr.toNat - b + k) = byteOf (s.reg rt) (3 - b + k))) ∧
    (s.cfg.unalignedWordOps = false →
      exec (.swl rt imm rs) s = .fault (.illegalInstruction (iWord 42 rs rt imm)) ∧
      exec (.swr rt imm rs) s = .fault (.illegalInstruction (iWord 46 rs rt imm)))

/-- R156. -/
def Obligations.UnalignedWordIdiom : Prop :=
  ∀ (s : State) (rt rs : Reg), s.cfg.unalignedWordOps = true →
    (rt ≠ 0#5 → rt ≠ rs → ∃ t u, exec (.lwl rt 0#16 rs) s = .next t ∧ exec (.lwr rt 3#16 rs) t = .next u ∧
      ∀ k < 4, byteOf (u.reg rt) k = s.byte (s.reg rs + BitVec.ofNat 32 k).toNat) ∧
    (∃ t u, exec (.swl rt 0#16 rs) s = .next t ∧ exec (.swr rt 3#16 rs) t = .next u ∧
      (∀ k < 4, u.byte (s.reg rs + BitVec.ofNat 32 k).toNat = byteOf (s.reg rt) k) ∧
      ∀ a, (∀ k < 4, a ≠ (s.reg rs + BitVec.ofNat 32 k).toNat) → u.byte a = s.byte a)

/-! ### Branches and jumps (spec/44_branch_jump.md) -/

/-- R162; what the transfer then does, under either policy, is the next four statements'. -/
def Obligations.TransferInATakenSlotFails : Prop :=
  ∀ (s : State) (i : Instr), Transfer i →
    (s.cfg.delaySlotBranch = .fault → s.nextPc ≠ s.pc + 4#32 → exec i s = .fault (.branchInDelaySlot s.pc)) ∧
    (s.cfg.delaySlotBranch = .sequential ∨ s.nextPc = s.pc + 4#32 → ∃ t, exec i s = .next t)

/-- R163, R164, and of R160, R161, R175, R176 what they say of these two. -/
def Obligations.JumpsTargetTheSlotsRegion : Prop :=
  ∀ (s : State) (target : BitVec 26) (T : Word),
    T = BitVec.ofNat 32 ((s.pc + 4#32).toNat / 2 ^ 28 * 2 ^ 28 + 4 * target.toNat) →
    (decodeWord (jWord 2 target) = .ok (.j target) ∧ decodeWord (jWord 3 target) = .ok (.jal target)) ∧
    (SlotFree s →
      (∃ t, exec (.j target) s = .next t ∧ OnlyTransfers T s t) ∧
      (∃ t, exec (.jal target) s = .next t ∧ TransfersAndLinks T 31#5 s t)) ∧
    (¬ SlotFree s →
      exec (.j target) s = .fault (.branchInDelaySlot s.pc) ∧
      exec (.jal target) s = .fault (.branchInDelaySlot s.pc))

/-- R165, R166, and of R160, R161, R175, R176 what they say of these two. -/
def Obligations.RegisterJumpsUseTheOldValue : Prop :=
  ∀ (s : State) (rd rs rt : Reg) (shamt : BitVec 5),
    (decodeWord (rWord 0 rs rt rd shamt 8) = .ok (.jr rs) ∧
      decodeWord (rWord 0 rs rt rd shamt 9) = .ok (.jalr rd rs)) ∧
    (SlotFree s →
      (∃ t, exec (.jr rs) s = .next t ∧ OnlyTransfers (s.reg rs) s t) ∧
      (∃ t, exec (.jalr rd rs) s = .next t ∧ TransfersAndLinks (s.reg rs) rd s t)) ∧
    (¬ SlotFree s →
      exec (.jr rs) s = .fault (.branchInDelaySlot s.pc) ∧
      exec (.jalr rd rs) s = .fault (.branchInDelaySlot s.pc))

/-- R167 to R171, R173, and of R160, R161, R176 what they say of these six. -/
def Obligations.ConditionalBranchesStageTheirTarget : Prop :=
  ∀ (s : State) (rs rt : Reg) (imm : BitVec 16) (T : Word),
    T = BitVec.ofInt 32 (s.pc.toNat + 4 + 4 * imm.toInt) →
    (decodeWord (iWord 4 rs rt imm) = .ok (.beq rs rt imm) ∧ decodeWord (iWord 5 rs rt imm) = .ok (.bne rs rt imm) ∧
      decodeWord (iWord 6 rs rt imm) = .ok (.blez rs imm) ∧ decodeWord (iWord 7 rs rt imm) = .ok (.bgtz rs imm) ∧
      decodeWord (iWord 1 rs 0 imm) = .ok (.bltz rs imm) ∧ decodeWord (iWord 1 rs 1 imm) = .ok (.bgez rs imm)) ∧
    (SlotFree s →
      (∃ t, exec (.beq rs rt imm) s = .next t ∧
        OnlyTransfers (if s.reg rs = s.reg rt then T else s.nextPc + 4#32) s t) ∧
      (∃ t, exec (.bne rs rt imm) s = .next t ∧
        OnlyTransfers (if s.reg rs ≠ s.reg rt then T else s.nextPc + 4#32) s t) ∧
      (∃ t, exec (.blez rs imm) s = .next t ∧
        OnlyTransfers (if (s.reg rs).toInt ≤ 0 then T else s.nextPc + 4#32) s t) ∧
      (∃ t, exec (.bgtz rs imm) s = .next t ∧
        OnlyTransfers (if 0 < (s.reg rs).toInt then T else s.nextPc + 4#32) s t) ∧
      (∃ t, exec (.bltz rs imm) s = .next t ∧
        OnlyTransfers (if (s.reg rs).toInt < 0 then T else s.nextPc + 4#32) s t) ∧
      (∃ t, exec (.bgez rs imm) s = .next t ∧
        OnlyTransfers (if 0 ≤ (s.reg rs).toInt then T else s.nextPc + 4#32) s t)) ∧
    (¬ SlotFree s → ∀ i ∈ [Instr.beq rs rt imm, .bne rs rt imm, .blez rs imm, .bgtz rs imm, .bltz rs imm, .bgez rs imm],
      exec i s = .fault (.branchInDelaySlot s.pc))

/-- R174, R177, and of R160, R161, R175, R176 what they say of these two. -/
def Obligations.LinkingBranchesAlwaysLink : Prop :=
  ∀ (s : State) (rs : Reg) (imm : BitVec 16) (T : Word),
    T = BitVec.ofInt 32 (s.pc.toNat + 4 + 4 * imm.toInt) →
    (decodeWord (iWord 1 rs 16 imm) = .ok (.bltzal rs imm) ∧
      decodeWord (iWord 1 rs 17 imm) = .ok (.bgezal rs imm)) ∧
    (SlotFree s →
      (∃ t, exec (.bltzal rs imm) s = .next t ∧
        TransfersAndLinks (if (s.reg rs).toInt < 0 then T else s.nextPc + 4#32) 31#5 s t) ∧
      (∃ t, exec (.bgezal rs imm) s = .next t ∧
        TransfersAndLinks (if 0 ≤ (s.reg rs).toInt then T else s.nextPc + 4#32) 31#5 s t)) ∧
    (¬ SlotFree s →
      exec (.bltzal rs imm) s = .fault (.branchInDelaySlot s.pc) ∧
      exec (.bgezal rs imm) s = .fault (.branchInDelaySlot s.pc))

/-- R172. The first part's premise on NextPC is for the untaken branch, which stages NextPC + 4. -/
def Obligations.MisalignedTargetFailsAfterTheSlot : Prop :=
  (∀ (i : Instr) (s t : State), Transfer i → (∀ rd rs, i ≠ .jr rs ∧ i ≠ .jalr rd rs) →
    s.pc &&& 3#32 = 0#32 → s.nextPc &&& 3#32 = 0#32 → exec i s = .next t → t.nextPc &&& 3#32 = 0#32) ∧
  ∀ (rd rs : Reg) (s t u : State), s.reg rs &&& 3#32 ≠ 0#32 →
    (exec (.jr rs) s = .next t ∨ exec (.jalr rd rs) s = .next t) → t.exited = false → step t = .next u →
    u.exited = false → u.pc = s.reg rs ∧ step u = .fault (.misalignedAccess (s.reg rs))

/-! ### Multiply and divide (spec/45_muldiv.md) -/

/-- R181, R182, and of R180, R190 what they say of these two. -/
def Obligations.MultiplySplitsTheExactProduct : Prop :=
  ∀ (s : State) (rs rt rd : Reg) (shamt : BitVec 5),
    (decodeWord (rWord 0 rs rt rd shamt 24) = .ok (.mult rs rt) ∧
      ∃ t, exec (.mult rs rt) s = .next t ∧
        WritesOnlyHiLo (BitVec.ofInt 32 ((s.reg rs).toInt * (s.reg rt).toInt / 2 ^ 32))
          (BitVec.ofInt 32 ((s.reg rs).toInt * (s.reg rt).toInt)) s t) ∧
    (decodeWord (rWord 0 rs rt rd shamt 25) = .ok (.multu rs rt) ∧
      ∃ t, exec (.multu rs rt) s = .next t ∧
        WritesOnlyHiLo (BitVec.ofNat 32 ((s.reg rs).toNat * (s.reg rt).toNat / 2 ^ 32))
          (BitVec.ofNat 32 ((s.reg rs).toNat * (s.reg rt).toNat)) s t)

/-- R183, R184, and of R180, R190 what they say of these two. -/
def Obligations.DivideTruncatesOrFails : Prop :=
  ∀ (s : State) (rs rt rd : Reg) (shamt : BitVec 5),
    (decodeWord (rWord 0 rs rt rd shamt 26) = .ok (.div rs rt) ∧
      decodeWord (rWord 0 rs rt rd shamt 27) = .ok (.divu rs rt)) ∧
    (s.reg rt ≠ 0#32 →
      (∃ t, exec (.div rs rt) s = .next t ∧
        WritesOnlyHiLo (BitVec.ofInt 32 ((s.reg rs).toInt.tmod (s.reg rt).toInt))
          (BitVec.ofInt 32 ((s.reg rs).toInt.tdiv (s.reg rt).toInt)) s t) ∧
      (∃ t, exec (.divu rs rt) s = .next t ∧
        WritesOnlyHiLo (BitVec.ofNat 32 ((s.reg rs).toNat % (s.reg rt).toNat))
          (BitVec.ofNat 32 ((s.reg rs).toNat / (s.reg rt).toNat)) s t)) ∧
    (s.reg rt = 0#32 →
      exec (.div rs rt) s = .fault (.divideByZero s.pc) ∧ exec (.divu rs rt) s = .fault (.divideByZero s.pc))

/-- R185 to R188, and of R180 what it says of these four. -/
def Obligations.HiLoMovesCopy : Prop :=
  ∀ (s : State) (rd rs rt : Reg) (shamt : BitVec 5),
    (decodeWord (rWord 0 rs rt rd shamt 16) = .ok (.mfhi rd) ∧
      ∃ t, exec (.mfhi rd) s = .next t ∧ WritesOnlyReg rd s.hi s t) ∧
    (decodeWord (rWord 0 rs rt rd shamt 17) = .ok (.mthi rs) ∧
      ∃ t, exec (.mthi rs) s = .next t ∧ WritesOnlyHiLo (s.reg rs) s.lo s t) ∧
    (decodeWord (rWord 0 rs rt rd shamt 18) = .ok (.mflo rd) ∧
      ∃ t, exec (.mflo rd) s = .next t ∧ WritesOnlyReg rd s.lo s t) ∧
    (decodeWord (rWord 0 rs rt rd shamt 19) = .ok (.mtlo rs) ∧
      ∃ t, exec (.mtlo rs) s = .next t ∧ WritesOnlyHiLo s.hi (s.reg rs) s t)

/-! ### System calls (spec/46_syscall.md), rejected rows (spec/30_encoding.md R80) -/

/-- R204, with R200's encoding and retirement. The state left is final (R91); that its step answers the refusal
`halted` is the model's form of this (log entry 7). -/
def Obligations.ExitCallsHaltTheMachine : Prop :=
  ∀ (s : State) (rs rt rd : Reg) (shamt : BitVec 5), DistinctCalls s.cfg →
    s.reg 2#5 = s.cfg.sysExit ∨ s.reg 2#5 = s.cfg.sysExitGroup →
    decodeWord (rWord 0 rs rt rd shamt 12) = .ok .syscall ∧
    ∃ t, exec .syscall s = .next t ∧ Retires s t ∧ t.exited = true ∧
      t.exitCode = BitVec.ofNat 8 ((s.reg 4#5).toNat % 256) ∧
      SameRegs s t ∧ SameHiLo s t ∧ SameMem s t ∧ SameHeap s t ∧ SamePreimage s t ∧ SameSinks s t ∧
      SameParameters s t ∧ step t = .refused .halted

/-- R205, R206, R207, with R201's registers and R200's retirement. That mmap's sum past 2^32 wraps follows R206 and is
the model's choice beside U7 of spec/93_implementation_defined.md (log entry 16). -/
def Obligations.BrkMmapCloneReturn : Prop :=
  ∀ s : State, DistinctCalls s.cfg →
    (s.reg 2#5 = s.cfg.sysBrk → ∃ t, exec .syscall s = .next t ∧ Retires s t ∧
      t.heap = (if s.heap.toNat < (s.reg 4#5).toNat then s.reg 4#5 else s.heap) ∧ Returned t.heap s t ∧
      SameHiLo s t ∧ SameMem s t ∧ SameExit s t ∧ SamePreimage s t ∧ SameSinks s t ∧ SameParameters s t) ∧
    (s.reg 2#5 = s.cfg.sysMmap → ∃ t, exec .syscall s = .next t ∧ Retires s t ∧
      t.heap = s.heap + ((s.reg 5#5 + (s.cfg.pageBytes - 1#32)) &&& ~~~(s.cfg.pageBytes - 1#32)) ∧
      Returned s.heap s t ∧ SameHiLo s t ∧ SameMem s t ∧ SameExit s t ∧ SamePreimage s t ∧ SameSinks s t ∧
      SameParameters s t) ∧
    (s.reg 2#5 = s.cfg.sysClone → ∃ t, exec .syscall s = .next t ∧ Retires s t ∧ Returned s.cfg.cloneResult s t ∧
      SameHiLo s t ∧ SameMem s t ∧ SameSystem s t)

/-- R209, R212, with R201's registers and R200's retirement. -/
def Obligations.StandardDescriptorsReadAndWrite : Prop :=
  ∀ s : State, DistinctCalls s.cfg →
    (s.reg 2#5 = s.cfg.sysRead → s.reg 4#5 = Config.fdStdin →
      dataAccess .syscall s = none ∧
      ∃ t, exec .syscall s = .next t ∧ Retires s t ∧ Returned 0#32 s t ∧ SameHiLo s t ∧ SameMem s t ∧
        SameSystem s t) ∧
    ∀ bytes : List Byte, s.reg 2#5 = s.cfg.sysWrite → s.reg 4#5 = Config.fdStdout ∨ s.reg 4#5 = Config.fdStderr →
      bytes = (List.range (s.reg 6#5).toNat).map (fun k => s.byte (s.reg 5#5 + BitVec.ofNat 32 k).toNat) →
      dataAccess .syscall s = none ∧
      ∃ t, exec .syscall s = .next t ∧ Retires s t ∧ Returned (s.reg 6#5) s t ∧
        t.sink1 = (if s.reg 4#5 = Config.fdStdout then s.sink1 ++ bytes else s.sink1) ∧
        t.sink2 = (if s.reg 4#5 = Config.fdStderr then s.sink2 ++ bytes else s.sink2) ∧
        SameHiLo s t ∧ SameMem s t ∧ SameExit s t ∧ SameHeap s t ∧ SamePreimage s t ∧ SameParameters s t

/-- R222, with R201's registers and R200's retirement; of R221 the failure (its one query is at pkey:
OracleMattersOnlyAtTheCurrentKey). -/
def Obligations.PreimageReadDeliversTheNextBytes : Prop :=
  ∀ s : State, DistinctCalls s.cfg → s.reg 2#5 = s.cfg.sysRead → s.reg 4#5 = s.cfg.fdPreimage →
    (s.oracle.get s.pkey = none → exec .syscall s = .fault (.oracleMiss s.pkey)) ∧
    ∀ (v : List Byte) (a m n : Nat), s.oracle.get s.pkey = some v → a = (s.reg 5#5).toNat →
      m = min (4 - a % 4) (s.reg 6#5).toNat → n = min m (v.length - s.poff.toNat) →
      ∃ t, exec .syscall s = .next t ∧ Retires s t ∧ Returned (BitVec.ofNat 32 n) s t ∧
        t.poff = s.poff + BitVec.ofNat 32 n ∧ t.pkey = s.pkey ∧
        (n = 0 → SameMem s t ∧ dataAccess .syscall s = none) ∧
        (0 < n → SameMemOutside a m s t ∧ dataAccess .syscall s = some (Memory.wordBase (s.reg 5#5)) ∧
          ∀ k < m, t.byte (a + k) = if k < n then v.getD (s.poff.toNat + k) 0#8 else 0#8) ∧
        SameHiLo s t ∧ SameExit s t ∧ SameHeap s t ∧ SameSinks s t ∧ SameParameters s t

/-- R224, with R201's registers and R200's retirement. -/
def Obligations.PreimageWriteShiftsTheKey : Prop :=
  ∀ (s : State) (a m : Nat), DistinctCalls s.cfg → s.reg 2#5 = s.cfg.sysWrite → s.reg 4#5 = s.cfg.fdPreimage →
    a = (s.reg 5#5).toNat → m = min (4 - a % 4) (s.reg 6#5).toNat →
    ∃ t, exec .syscall s = .next t ∧ Retires s t ∧ Returned (BitVec.ofNat 32 m) s t ∧
      t.pkey.toList = s.pkey.toList.drop m ++ (List.range m).map (fun k => s.byte (a + k)) ∧
      t.poff = (if m = 0 then s.poff else 0#32) ∧
      dataAccess .syscall s = (if m = 0 then none else some (Memory.wordBase (s.reg 5#5))) ∧
      SameHiLo s t ∧ SameMem s t ∧ SameExit s t ∧ SameHeap s t ∧ SameSinks s t ∧ SameParameters s t

/-- R202, and the last case of R208 and R210. -/
def Obligations.UnsupportedCallsFail : Prop :=
  ∀ s : State,
    (s.reg 2#5 ∉ [s.cfg.sysExit, s.cfg.sysRead, s.cfg.sysWrite, s.cfg.sysBrk, s.cfg.sysMmap, s.cfg.sysClone,
        s.cfg.sysExitGroup] →
      exec .syscall s = .fault (.unsupportedSyscall (s.reg 2#5) none)) ∧
    (DistinctCalls s.cfg → s.reg 2#5 = s.cfg.sysRead → s.reg 4#5 ≠ 0#32 → s.reg 4#5 ≠ s.cfg.fdPreimage →
      exec .syscall s = .fault (.unsupportedSyscall (s.reg 2#5) (some (s.reg 4#5)))) ∧
    (DistinctCalls s.cfg → s.reg 2#5 = s.cfg.sysWrite → s.reg 4#5 ≠ 1#32 → s.reg 4#5 ≠ 2#32 →
      s.reg 4#5 ≠ s.cfg.fdPreimage →
      exec .syscall s = .fault (.unsupportedSyscall (s.reg 2#5) (some (s.reg 4#5))))

/-- R80 items 2 and 3: the rows of the opcode table this hardware rejects. That such a word decodes to a named
instruction whose meaning raises the error is the model's form (log entry 10); R74 and R94 reject it while decoding. -/
def Obligations.RejectedRowsAlwaysFail : Prop :=
  ∀ (s : State) (code : BitVec 20) (low : BitVec 26),
    (∀ w : Word, w = (0#6 ++ code ++ 13#6 : BitVec (6 + 20 + 6)) →
      decodeWord w = .ok (.breakpoint code) ∧ exec (.breakpoint code) s = .fault (.illegalInstruction w)) ∧
    ∀ p ∈ [(16#6, Instr.cop0 low), (17#6, .cop1 low), (18#6, .cop2 low), (19#6, .cop3 low),
        (48#6, .lwc0 low), (49#6, .lwc1 low), (50#6, .lwc2 low), (51#6, .lwc3 low),
        (56#6, .swc0 low), (57#6, .swc1 low), (58#6, .swc2 low), (59#6, .swc3 low)],
      decodeWord (jWord p.1 low) = .ok p.2 ∧ exec p.2 s = .fault (.illegalInstruction (jWord p.1 low))

/-! ### The tree, the state encoding, the witness (spec/20_memory.md, spec/10_state.md, spec/47_witness.md) -/

/-- R54, and R55's first equation: proof validity. -/
def Obligations.MerkleProofsVerify : Prop :=
  ∀ (H : HashFn) (m : Memory) (a : Word),
    (merkleProofWith H m a).length = 27 ∧
    (∀ k < 27, (merkleProofWith H m a)[k]? = some (node H m k ((a.toNat / 32 / 2 ^ k) ^^^ 1))) ∧
    rootFrom H (a.toNat / 32) (chunk m (a.toNat / 32)) (merkleProofWith H m a) = merkleRootWith H m

/-- R55. -/
def Obligations.RootAfterAWriteComesFromTheOldProof : Prop :=
  ∀ (H : HashFn) (m m' : Memory) (a v : Word), m.writeWord a v = .ok m' →
    rootFrom H (a.toNat / 32) (chunk m (a.toNat / 32)) (merkleProofWith H m a) = merkleRootWith H m ∧
    chunk m' (a.toNat / 32) = (chunk m (a.toNat / 32)).take (a.toNat % 32) ++ wordBytes v ++
      (chunk m (a.toNat / 32)).drop (a.toNat % 32 + 4) ∧
    merkleProofWith H m' a = merkleProofWith H m a ∧
    merkleRootWith H m' = rootFrom H (a.toNat / 32) (chunk m' (a.toNat / 32)) (merkleProofWith H m a)

/-- R53. -/
def Obligations.ZeroSubtreesHaveTheZeroHash : Prop :=
  ∀ (H : HashFn) (m : Memory) (k i : Nat),
    ((∀ c, i * 2 ^ k ≤ c → c < (i + 1) * 2 ^ k → chunk m c = List.replicate 32 0#8) →
      node H m k i = zeroHash H k) ∧
    merkleRootWith H [] = zeroHash H 27 ∧
    sparseNode H m k i = node H m k i

/-- R30's table. -/
def Obligations.EncodingLaysOutEveryField : Prop :=
  ∀ (H : HashFn) (s : State) (e : List Byte), e = encodeWitnessWith H s →
    e.length = 226 ∧ e.take 32 = (merkleRootWith H s.mem).toList ∧
    (e.drop 32).take 20 = wordBytes s.pc ++ wordBytes s.nextPc ++ wordBytes s.hi ++ wordBytes s.lo ++
      wordBytes s.heap ∧
    (e.drop 52).take 2 = [s.exitCode, if s.exited then 1#8 else 0#8] ∧
    (e.drop 54).take 8 = (List.range 8).map (fun k => s.stepCount.extractLsb' (56 - 8 * k) 8) ∧
    (∀ r : Reg, (e.drop (62 + 4 * r.toNat)).take 4 = wordBytes (s.reg r)) ∧
    (e.drop 190).take 32 = s.pkey.toList ∧ e.drop 222 = wordBytes s.poff

/-- R32. -/
def Obligations.DecodingInvertsTheStateEncoding : Prop :=
  (∀ (H : HashFn) (s : State), decodeWitness (encodeWitnessWith H s) = some (s.header (merkleRootWith H s.mem))) ∧
  ∀ l : List Byte,
    (decodeWitness l = none ↔ l.length ≠ 226 ∨ (l[53]? ≠ some 0#8 ∧ l[53]? ≠ some 1#8)) ∧
    ∀ h, decodeWitness l = some h → h.encode = l

/-- R231, R232, R233, R235; dataAccess is R234's table. -/
def Obligations.WitnessHoldsValidProofs : Prop :=
  ∀ (H : HashFn) (s t : State) (i : Instr), s.exited = false → step s = .next t →
    decode s.cfg (Memory.wordAt s.mem s.pc) = some i →
    ∃ w, witnessWith H s = some w ∧ w.preState = encodeWitnessWith H s ∧
      w.proofs.map MemProof.addr = s.pc :: (dataAccess i s).toList ∧
      (∀ p ∈ w.proofs, p.addr &&& 3#32 = 0#32 ∧ p.chunk = chunk s.mem (p.addr.toNat / 32) ∧
        p.siblings = merkleProofWith H s.mem p.addr ∧
        rootFrom H (p.addr.toNat / 32) p.chunk p.siblings = merkleRootWith H s.mem) ∧
      (w.preimage.isSome = true ↔ i = .syscall ∧ s.call = .readPreimage) ∧
      ∀ e, w.preimage = some e → e.key = s.pkey ∧ e.offset = s.poff ∧
        ∃ v, s.oracle.get s.pkey = some v ∧ e.data = (v.drop s.poff.toNat).take (t.reg 2#5).toNat

/-- R237. -/
def Obligations.ReplayComputesThePostState : Prop :=
  ∀ (H : HashFn) (s t : State), s.exited = false → step s = .next t →
    ∃ w, witnessWith H s = some w ∧ replay H s.cfg w = some (encodeWitnessWith H t)
end

