-- ==== Sys2Proof/Laws/Fields.lean ====
section
/-! SUPPORT. The fields of R-, I- and J-type words, the bytes of a word, and the mask lemmas of the opcode table. -/

namespace Sys2Proof

/-- Concatenation as arithmetic: the left operand supplies the high bits (spec/00_scope.md R9). -/
theorem toNat_append_eq {v w : Nat} (a : BitVec v) (b : BitVec w) :
    (a ++ b).toNat = a.toNat * 2 ^ w + b.toNat := by
  rw [BitVec.toNat_append, ← Nat.shiftLeft_add_eq_or_of_lt b.isLt, Nat.shiftLeft_eq]

/-- A bit slice as arithmetic. -/
theorem toNat_slice_eq {w : Nat} (a : BitVec w) (lo len : Nat) :
    (a.extractLsb' lo len).toNat = a.toNat / 2 ^ lo % 2 ^ len := by
  simp [BitVec.extractLsb'_toNat, Nat.shiftRight_eq_div_pow]

theorem toNat_rWord (op : BitVec 6) (rs rt rd : Reg) (sh : BitVec 5) (f : BitVec 6) :
    (rWord op rs rt rd sh f).toNat = op.toNat * 67108864 + rs.toNat * 2097152 + rt.toNat * 65536 +
      rd.toNat * 2048 + sh.toNat * 64 + f.toNat := by
  unfold rWord
  simp only [toNat_append_eq]
  omega

theorem toNat_iWord (op : BitVec 6) (rs rt : Reg) (imm : BitVec 16) :
    (iWord op rs rt imm).toNat = op.toNat * 67108864 + rs.toNat * 2097152 + rt.toNat * 65536 + imm.toNat := by
  unfold iWord
  simp only [toNat_append_eq]
  omega

theorem toNat_jWord (op : BitVec 6) (target : BitVec 26) :
    (jWord op target).toNat = op.toNat * 67108864 + target.toNat := by
  unfold jWord
  simp only [toNat_append_eq]
  omega

/-! ### Fields of the three formats -/

@[simp] theorem opField_rWord (op : BitVec 6) (rs rt rd : Reg) (sh : BitVec 5) (f : BitVec 6) :
    opField (rWord op rs rt rd sh f) = op := by
  apply BitVec.eq_of_toNat_eq
  simp only [opField, toNat_slice_eq, toNat_rWord]
  omega

@[simp] theorem rsField_rWord (op : BitVec 6) (rs rt rd : Reg) (sh : BitVec 5) (f : BitVec 6) :
    rsField (rWord op rs rt rd sh f) = rs := by
  apply BitVec.eq_of_toNat_eq
  simp only [rsField, toNat_slice_eq, toNat_rWord]
  omega

@[simp] theorem rtField_rWord (op : BitVec 6) (rs rt rd : Reg) (sh : BitVec 5) (f : BitVec 6) :
    rtField (rWord op rs rt rd sh f) = rt := by
  apply BitVec.eq_of_toNat_eq
  simp only [rtField, toNat_slice_eq, toNat_rWord]
  omega

@[simp] theorem rdField_rWord (op : BitVec 6) (rs rt rd : Reg) (sh : BitVec 5) (f : BitVec 6) :
    rdField (rWord op rs rt rd sh f) = rd := by
  apply BitVec.eq_of_toNat_eq
  simp only [rdField, toNat_slice_eq, toNat_rWord]
  omega

@[simp] theorem shamtField_rWord (op : BitVec 6) (rs rt rd : Reg) (sh : BitVec 5) (f : BitVec 6) :
    shamtField (rWord op rs rt rd sh f) = sh := by
  apply BitVec.eq_of_toNat_eq
  simp only [shamtField, toNat_slice_eq, toNat_rWord]
  omega

@[simp] theorem functField_rWord (op : BitVec 6) (rs rt rd : Reg) (sh : BitVec 5) (f : BitVec 6) :
    functField (rWord op rs rt rd sh f) = f := by
  apply BitVec.eq_of_toNat_eq
  simp only [functField, toNat_slice_eq, toNat_rWord]
  omega

@[simp] theorem opField_iWord (op : BitVec 6) (rs rt : Reg) (imm : BitVec 16) :
    opField (iWord op rs rt imm) = op := by
  apply BitVec.eq_of_toNat_eq
  simp only [opField, toNat_slice_eq, toNat_iWord]
  omega

@[simp] theorem rsField_iWord (op : BitVec 6) (rs rt : Reg) (imm : BitVec 16) :
    rsField (iWord op rs rt imm) = rs := by
  apply BitVec.eq_of_toNat_eq
  simp only [rsField, toNat_slice_eq, toNat_iWord]
  omega

@[simp] theorem rtField_iWord (op : BitVec 6) (rs rt : Reg) (imm : BitVec 16) :
    rtField (iWord op rs rt imm) = rt := by
  apply BitVec.eq_of_toNat_eq
  simp only [rtField, toNat_slice_eq, toNat_iWord]
  omega

@[simp] theorem immField_iWord (op : BitVec 6) (rs rt : Reg) (imm : BitVec 16) :
    immField (iWord op rs rt imm) = imm := by
  apply BitVec.eq_of_toNat_eq
  simp only [immField, toNat_slice_eq, toNat_iWord]
  omega

@[simp] theorem opField_jWord (op : BitVec 6) (target : BitVec 26) :
    opField (jWord op target) = op := by
  apply BitVec.eq_of_toNat_eq
  simp only [opField, toNat_slice_eq, toNat_jWord]
  omega

@[simp] theorem targetField_jWord (op : BitVec 6) (target : BitVec 26) :
    targetField (jWord op target) = target := by
  apply BitVec.eq_of_toNat_eq
  simp only [targetField, toNat_slice_eq, toNat_jWord]
  omega

/-! ### The word of a rejected `break` -/

theorem toNat_encode_breakpoint (code : BitVec 20) : (encode (.breakpoint code)).toNat = code.toNat * 64 + 13 := by
  change ((0#6 ++ code ++ 13#6 : BitVec (6 + 20 + 6))).toNat = _
  simp only [toNat_append_eq, BitVec.toNat_ofNat]
  omega

@[simp] theorem opField_encode_breakpoint (code : BitVec 20) : opField (encode (.breakpoint code)) = 0#6 := by
  apply BitVec.eq_of_toNat_eq
  simp only [opField, toNat_slice_eq, toNat_encode_breakpoint, BitVec.toNat_ofNat]
  omega

@[simp] theorem functField_encode_breakpoint (code : BitVec 20) : functField (encode (.breakpoint code)) = 13#6 := by
  apply BitVec.eq_of_toNat_eq
  simp only [functField, toNat_slice_eq, toNat_encode_breakpoint, BitVec.toNat_ofNat]
  omega

@[simp] theorem codeField_encode_breakpoint (code : BitVec 20) : codeField (encode (.breakpoint code)) = code := by
  apply BitVec.eq_of_toNat_eq
  simp only [codeField, toNat_slice_eq, toNat_encode_breakpoint]
  omega

/-! ### Selector masks (spec/30_encoding.md R74) -/

theorem rWord_selector (op : BitVec 6) (rs rt rd : Reg) (sh : BitVec 5) (f : BitVec 6) :
    rWord op rs rt rd sh f &&& 0xFC00003F = rWord op 0 0 0 0 f := by
  change (op ++ rs ++ rt ++ rd ++ sh ++ f : BitVec (6 + 5 + 5 + 5 + 5 + 6)) &&&
    (BitVec.allOnes 6 ++ 0#5 ++ 0#5 ++ 0#5 ++ 0#5 ++ BitVec.allOnes 6 : BitVec (6 + 5 + 5 + 5 + 5 + 6)) = _
  simp only [BitVec.and_append, BitVec.and_allOnes, BitVec.and_zero]
  rfl

theorem iWord_selector (op : BitVec 6) (rs rt : Reg) (imm : BitVec 16) :
    iWord op rs rt imm &&& 0xFC000000 = iWord op 0 0 0 := by
  change (op ++ rs ++ rt ++ imm : BitVec (6 + 5 + 5 + 16)) &&&
    (BitVec.allOnes 6 ++ 0#5 ++ 0#5 ++ 0#16 : BitVec (6 + 5 + 5 + 16)) = _
  simp only [BitVec.and_append, BitVec.and_allOnes, BitVec.and_zero]
  rfl

theorem iWord_regimm_selector (op : BitVec 6) (rs rt : Reg) (imm : BitVec 16) :
    iWord op rs rt imm &&& 0xFC1F0000 = iWord op 0 rt 0 := by
  change (op ++ rs ++ rt ++ imm : BitVec (6 + 5 + 5 + 16)) &&&
    (BitVec.allOnes 6 ++ 0#5 ++ BitVec.allOnes 5 ++ 0#16 : BitVec (6 + 5 + 5 + 16)) = _
  simp only [BitVec.and_append, BitVec.and_allOnes, BitVec.and_zero]
  rfl

theorem jWord_selector (op : BitVec 6) (target : BitVec 26) : jWord op target &&& 0xFC000000 = jWord op 0 := by
  change (op ++ target : BitVec (6 + 26)) &&& (BitVec.allOnes 6 ++ 0#26 : BitVec (6 + 26)) = _
  simp only [BitVec.and_append, BitVec.and_allOnes, BitVec.and_zero]
  rfl

theorem breakpoint_selector (code : BitVec 20) : encode (.breakpoint code) &&& 0xFC00003F = 13 := by
  change (0#6 ++ code ++ 13#6 : BitVec (6 + 20 + 6)) &&&
    (BitVec.allOnes 6 ++ 0#20 ++ BitVec.allOnes 6 : BitVec (6 + 20 + 6)) = _
  simp only [BitVec.and_append, BitVec.and_allOnes, BitVec.and_zero]
  rfl

/-! ### Bytes of a word (spec/20_memory.md R45) -/

theorem toNat_wordOfBytes (b0 b1 b2 b3 : Byte) :
    (wordOfBytes b0 b1 b2 b3).toNat = b0.toNat * 16777216 + b1.toNat * 65536 + b2.toNat * 256 + b3.toNat := by
  unfold wordOfBytes
  simp only [toNat_append_eq]
  omega

@[simp] theorem byteOf_wordOfBytes_zero (b0 b1 b2 b3 : Byte) : byteOf (wordOfBytes b0 b1 b2 b3) 0 = b0 := by
  apply BitVec.eq_of_toNat_eq
  simp only [byteOf, toNat_slice_eq, toNat_wordOfBytes]
  omega

@[simp] theorem byteOf_wordOfBytes_one (b0 b1 b2 b3 : Byte) : byteOf (wordOfBytes b0 b1 b2 b3) 1 = b1 := by
  apply BitVec.eq_of_toNat_eq
  simp only [byteOf, toNat_slice_eq, toNat_wordOfBytes]
  omega

@[simp] theorem byteOf_wordOfBytes_two (b0 b1 b2 b3 : Byte) : byteOf (wordOfBytes b0 b1 b2 b3) 2 = b2 := by
  apply BitVec.eq_of_toNat_eq
  simp only [byteOf, toNat_slice_eq, toNat_wordOfBytes]
  omega

@[simp] theorem byteOf_wordOfBytes_three (b0 b1 b2 b3 : Byte) : byteOf (wordOfBytes b0 b1 b2 b3) 3 = b3 := by
  apply BitVec.eq_of_toNat_eq
  simp only [byteOf, toNat_slice_eq, toNat_wordOfBytes]
  omega

/-- A word is its four bytes. -/
@[simp] theorem wordOfBytes_byteOf (w : Word) :
    wordOfBytes (byteOf w 0) (byteOf w 1) (byteOf w 2) (byteOf w 3) = w := by
  apply BitVec.eq_of_toNat_eq
  simp only [toNat_wordOfBytes, byteOf, toNat_slice_eq]
  omega

@[simp] theorem length_wordBytes (w : Word) : (wordBytes w).length = 4 := rfl

end Sys2Proof
end

