-- ==== Sys2Proof/Laws/Memory.lean ====
section
/-! SUPPORT. What every memory operation does, said once: the byte laws, the word laws, and that each operation keeps
the canonical form. -/

namespace Sys2Proof.Machine.Memory

/-! ### Bytes -/

@[simp] theorem readByte_nil (a : Nat) : readByte [] a = 0#8 := rfl

theorem readByte_erase (m : Memory) (a b : Nat) :
    readByte (erase m a) b = if b = a then 0#8 else readByte m b := by
  induction m with
  | nil => simp [erase]
  | cons c m ih =>
    have ih' : readByte (List.filter (fun c => c.1 != a) m) b = if b = a then 0#8 else readByte m b := ih
    by_cases hc : c.1 = a
    · simp only [erase, List.filter_cons, hc, bne_self_eq_false, Bool.false_eq_true, if_false, ih', readByte]
      by_cases hb : b = a
      · simp [hb]
      · simp [hb, Ne.symm hb]
    · simp only [erase, List.filter_cons, bne_iff_ne, ne_eq, hc, not_false_eq_true, if_true, readByte, ih']
      by_cases hb : c.1 = b
      · have : b ≠ a := fun e => hc (hb.trans e)
        simp [hb, this]
      · simp [hb]

theorem not_mem_erase (m : Memory) (a : Nat) : ∀ c ∈ erase m a, c.1 ≠ a := by
  intro c hc
  simpa [erase] using (List.mem_filter.mp hc).2

theorem readByte_insert (m : Memory) (a b : Nat) (v : Byte) (h : ∀ c ∈ m, c.1 ≠ a) :
    readByte (insert m a v) b = if b = a then v else readByte m b := by
  induction m with
  | nil => simp [insert, readByte, unwritten, eq_comm]
  | cons c m ih =>
    have hc : c.1 ≠ a := h c (by simp)
    have ih := ih fun d hd => h d (List.mem_cons_of_mem _ hd)
    by_cases hlt : a < c.1
    · simp [insert, hlt, readByte, eq_comm]
    · simp only [insert, hlt, if_false, readByte, ih]
      by_cases hb : c.1 = b
      · have : b ≠ a := fun e => hc (hb.trans e)
        simp [hb, this]
      · simp [hb]

/-- Read after write: the byte written reads back, every other byte reads as before. It holds for every list, canonical
or not. -/
theorem readByte_writeByte (m : Memory) (a b : Nat) (v : Byte) :
    readByte (writeByte m a v) b = if b = a then v else readByte m b := by
  unfold writeByte
  by_cases hv : v = unwritten
  · rw [if_pos hv, readByte_erase]
    simp [hv, unwritten]
  · rw [if_neg hv, readByte_insert _ _ _ _ (not_mem_erase m a), readByte_erase]
    by_cases hb : b = a <;> simp [hb]

/-! ### The canonical form -/

theorem wfFrom_mono {lo lo' : Nat} (h : lo' ≤ lo) {m : Memory} (hm : wfFrom lo m = true) : wfFrom lo' m = true := by
  cases m with
  | nil => rfl
  | cons c m =>
    simp only [wfFrom, Bool.and_eq_true, decide_eq_true_eq] at hm ⊢
    exact ⟨⟨⟨h.trans hm.1.1.1, hm.1.1.2⟩, hm.1.2⟩, hm.2⟩

theorem wfFrom_erase {m : Memory} {lo : Nat} (a : Nat) (hm : wfFrom lo m = true) : wfFrom lo (erase m a) = true := by
  induction m generalizing lo with
  | nil => rfl
  | cons c m ih =>
    simp only [wfFrom, Bool.and_eq_true, decide_eq_true_eq] at hm
    have ih' : wfFrom (c.1 + 1) (List.filter (fun c => c.1 != a) m) = true := ih hm.2
    by_cases hc : c.1 = a
    · simp only [erase, List.filter_cons, hc, bne_self_eq_false, Bool.false_eq_true, if_false]
      exact wfFrom_mono (Nat.le_succ_of_le (hc ▸ hm.1.1.1)) (hc ▸ ih')
    · simp only [erase, List.filter_cons, bne_iff_ne, ne_eq, hc, not_false_eq_true, if_true, wfFrom, Bool.and_eq_true,
        decide_eq_true_eq]
      exact ⟨⟨hm.1.1, by simpa using hm.1.2⟩, ih'⟩

theorem wfFrom_insert {m : Memory} {lo a : Nat} {v : Byte} (hm : wfFrom lo m = true) (hlo : lo ≤ a) (ha : a < 2 ^ 32)
    (hv : v ≠ 0#8) (h : ∀ c ∈ m, c.1 ≠ a) : wfFrom lo (insert m a v) = true := by
  induction m generalizing lo with
  | nil =>
    simp only [insert, wfFrom, Bool.and_eq_true, decide_eq_true_eq, bne_iff_ne]
    exact ⟨⟨⟨hlo, ha⟩, hv⟩, trivial⟩
  | cons c m ih =>
    have hc : c.1 ≠ a := h c (by simp)
    simp only [wfFrom, Bool.and_eq_true, decide_eq_true_eq] at hm
    by_cases hlt : a < c.1
    · simp only [insert, hlt, if_true, wfFrom, Bool.and_eq_true, decide_eq_true_eq, bne_iff_ne]
      exact ⟨⟨⟨hlo, ha⟩, hv⟩, ⟨⟨by omega, hm.1.1.2⟩, by simpa using hm.1.2⟩, hm.2⟩
    · simp only [insert, hlt, if_false, wfFrom, Bool.and_eq_true, decide_eq_true_eq]
      exact ⟨hm.1, ih hm.2 (by omega) fun d hd => h d (List.mem_cons_of_mem _ hd)⟩

/-- Writing a byte of the address space keeps the canonical form. -/
theorem wf_writeByte {m : Memory} {a : Nat} (v : Byte) (hm : wf m = true) (ha : a < 2 ^ 32) :
    wf (writeByte m a v) = true := by
  unfold writeByte
  split
  · exact wfFrom_erase a hm
  · rename_i hv
    exact wfFrom_insert (wfFrom_erase a hm) (Nat.zero_le a) ha hv (not_mem_erase m a)

@[simp] theorem wf_nil : wf [] = true := rfl

/-! ### Words -/

theorem toNat_wordBase (a : Word) : (wordBase a).toNat = a.toNat / 4 * 4 := by
  have hsplit : a = (a.extractLsb' 2 30 ++ a.extractLsb' 0 2 : BitVec (30 + 2)) := by
    apply BitVec.eq_of_toNat_eq
    rw [toNat_append_eq, toNat_slice_eq, toNat_slice_eq]
    omega
  have hmask : wordBase a = (a.extractLsb' 2 30 ++ 0#2 : BitVec (30 + 2)) := by
    have hand : ((a.extractLsb' 2 30 ++ a.extractLsb' 0 2 : BitVec (30 + 2)) &&& (BitVec.allOnes 30 ++ 0#2)) =
        (a.extractLsb' 2 30 ++ 0#2 : BitVec (30 + 2)) := by
      simp only [BitVec.and_append, BitVec.and_allOnes, BitVec.and_zero]
    exact (congrArg (fun x : Word => x &&& 0xFFFFFFFC#32) hsplit).trans hand
  rw [hmask, toNat_append_eq, toNat_slice_eq]
  have := a.isLt
  simp only [BitVec.toNat_ofNat]
  omega

theorem offset_eq_mod (a : Word) : offset a = a.toNat % 4 := by
  unfold offset
  rw [BitVec.toNat_and]
  exact Nat.and_two_pow_sub_one_eq_mod a.toNat 2

theorem offset_lt (a : Word) : offset a < 4 := by rw [offset_eq_mod]; omega

theorem wordBase_add_offset (a : Word) : (wordBase a).toNat + offset a = a.toNat := by
  rw [toNat_wordBase, offset_eq_mod]; omega

theorem aligned_iff (a : Word) : a &&& 3#32 = 0#32 ↔ a.toNat % 4 = 0 := by
  rw [← offset_eq_mod, offset]
  exact ⟨fun h => by simp [h], fun h => BitVec.eq_of_toNat_eq h⟩

theorem even_iff (a : Word) : a &&& 1#32 = 0#32 ↔ a.toNat % 2 = 0 := by
  have h1 : (a &&& 1#32).toNat = a.toNat % 2 := by
    rw [BitVec.toNat_and]; exact Nat.and_two_pow_sub_one_eq_mod a.toNat 1
  rw [← h1]
  exact ⟨fun h => by simp [h], fun h => BitVec.eq_of_toNat_eq h⟩

@[simp] theorem wordBase_aligned (a : Word) : wordBase a &&& 3#32 = 0#32 := by
  rw [aligned_iff, toNat_wordBase]; omega

@[simp] theorem wordBase_wordBase (a : Word) : wordBase (wordBase a) = wordBase a := by
  apply BitVec.eq_of_toNat_eq; rw [toNat_wordBase, toNat_wordBase]; omega

theorem wordBase_of_aligned {a : Word} (h : a &&& 3#32 = 0#32) : wordBase a = a := by
  apply BitVec.eq_of_toNat_eq; rw [toNat_wordBase]; rw [aligned_iff] at h; omega

/-- What every byte reads after a word is replaced. -/
theorem readByte_setWordAt (m : Memory) (a v : Word) (b : Nat) :
    readByte (setWordAt m a v) b =
      if (wordBase a).toNat ≤ b ∧ b < (wordBase a).toNat + 4 then byteOf v (b - (wordBase a).toNat)
      else readByte m b := by
  simp only [setWordAt, readByte_writeByte]
  generalize (wordBase a).toNat = base
  by_cases h3 : b = base + 3
  · subst h3; simp
  by_cases h2 : b = base + 2
  · subst h2; simp
  by_cases h1 : b = base + 1
  · subst h1; simp
  by_cases h0 : b = base
  · subst h0; simp
  · rw [if_neg h3, if_neg h2, if_neg h1, if_neg h0, if_neg (by omega)]

/-- Replacing a word keeps the canonical form. -/
theorem wf_setWordAt {m : Memory} (a v : Word) (hm : wf m = true) : wf (setWordAt m a v) = true := by
  have hb : (wordBase a).toNat + 3 < 2 ^ 32 := by rw [toNat_wordBase]; have := a.isLt; omega
  unfold setWordAt
  exact wf_writeByte _ (wf_writeByte _ (wf_writeByte _ (wf_writeByte _ hm (by omega)) (by omega)) (by omega)) hb

/-- A byte of the word containing an address. -/
theorem byteOf_wordAt (m : Memory) (a : Word) {i : Nat} (hi : i < 4) :
    byteOf (wordAt m a) i = readByte m ((wordBase a).toNat + i) := by
  unfold wordAt
  match i, hi with
  | 0, _ => simp
  | 1, _ => simp
  | 2, _ => simp
  | 3, _ => simp

/-- Two words with the same four bytes are equal. -/
theorem word_ext {v w : Word} (h : ∀ i < 4, byteOf v i = byteOf w i) : v = w := by
  rw [← wordOfBytes_byteOf v, ← wordOfBytes_byteOf w, h 0 (by omega), h 1 (by omega), h 2 (by omega), h 3 (by omega)]

/-- Two memories with the same bytes hold the same words. -/
theorem wordAt_congr {m m' : Memory} {a : Word}
    (h : ∀ b, (wordBase a).toNat ≤ b → b < (wordBase a).toNat + 4 → readByte m' b = readByte m b) :
    wordAt m' a = wordAt m a := by
  unfold wordAt
  simp only [h _ (Nat.le_refl _) (by omega), h _ (by omega) (by omega : (wordBase a).toNat + 1 < (wordBase a).toNat + 4),
    h _ (by omega) (by omega : (wordBase a).toNat + 2 < (wordBase a).toNat + 4),
    h _ (by omega) (by omega : (wordBase a).toNat + 3 < (wordBase a).toNat + 4)]

/-- What every word reads after a word is replaced (spec/20_memory.md R44). -/
theorem wordAt_setWordAt (m : Memory) (a b v : Word) :
    wordAt (setWordAt m a v) b = if wordBase b = wordBase a then v else wordAt m b := by
  by_cases h : wordBase b = wordBase a
  · rw [if_pos h]
    apply word_ext
    intro i hi
    rw [byteOf_wordAt _ _ hi, readByte_setWordAt, h, if_pos (by omega)]
    congr 1; omega
  · rw [if_neg h]
    apply wordAt_congr
    intro c hc hc'
    have hne : (wordBase b).toNat ≠ (wordBase a).toNat := fun e => h (BitVec.eq_of_toNat_eq e)
    rw [readByte_setWordAt, if_neg]
    rw [toNat_wordBase] at *
    rw [toNat_wordBase] at *
    omega

theorem readWord_of_aligned {m : Memory} {a : Word} (h : a &&& 3#32 = 0#32) : readWord m a = .ok (wordAt m a) :=
  if_pos h

theorem readWord_of_misaligned {m : Memory} {a : Word} (h : a &&& 3#32 ≠ 0#32) :
    readWord m a = .error (.misalignedAccess a) := if_neg h

theorem writeWord_of_aligned {m : Memory} {a v : Word} (h : a &&& 3#32 = 0#32) :
    writeWord m a v = .ok (setWordAt m a v) := if_pos h

theorem writeWord_of_misaligned {m : Memory} {a v : Word} (h : a &&& 3#32 ≠ 0#32) :
    writeWord m a v = .error (.misalignedAccess a) := if_neg h

/-! ### Slices of a word -/

/-- A bit of a word with a slice replaced. -/
theorem getLsbD_setSlice {len : Nat} (w : Word) (lo : Nat) (v : BitVec len) (k : Nat) (hk : k < 32) :
    (setSlice w lo v).getLsbD k = if lo ≤ k ∧ k < lo + len then v.getLsbD (k - lo) else w.getLsbD k := by
  unfold setSlice
  by_cases h1 : lo ≤ k
  · by_cases h2 : k < lo + len
    · have h3 : k - lo < len := by omega
      simp [hk, h1, h2, h3, Nat.not_lt.mpr h1]
    · have h3 : ¬ k - lo < len := by omega
      have h5 : v.getLsbD (k - lo) = false := BitVec.getLsbD_of_ge _ _ (by omega)
      simp [hk, h2, h3, h5, Nat.not_lt.mpr h1]
  · have h3 : k < lo := by omega
    simp [hk, h1, h3]

/-- Byte `i` of a word with byte `b` replaced. -/
theorem byteOf_setByteOf (w : Word) (v : Byte) {b i : Nat} (hb : b < 4) (hi : i < 4) :
    byteOf (setByteOf w b v) i = if i = b then v else byteOf w i := by
  apply BitVec.eq_of_getLsbD_eq
  intro k hk
  have hx : (byteOf (setByteOf w b v) i).getLsbD k = (setByteOf w b v).getLsbD (24 - 8 * i + k) := by
    simp [byteOf, hk]
  rw [hx, setByteOf, getLsbD_setSlice _ _ _ _ (by omega)]
  by_cases h : i = b
  · subst h; simp [hk]
  · rw [if_neg (by omega), if_neg h]
    simp [byteOf, hk]

/-- Byte `i` of a word with the halfword at offset `b` replaced. -/
theorem byteOf_setHalfOf (w : Word) (v : BitVec 16) {b i : Nat} (hb : b = 0 ∨ b = 2) (hi : i < 4) :
    byteOf (setHalfOf w b v) i =
      if i = b then v.extractLsb' 8 8 else if i = b + 1 then v.extractLsb' 0 8 else byteOf w i := by
  apply BitVec.eq_of_getLsbD_eq
  intro k hk
  have hx : (byteOf (setHalfOf w b v) i).getLsbD k = (setHalfOf w b v).getLsbD (24 - 8 * i + k) := by
    simp [byteOf, hk]
  rw [hx, setHalfOf, getLsbD_setSlice _ _ _ _ (by omega)]
  by_cases h : i = b
  · subst h
    rw [if_pos (by omega), if_pos rfl]
    simp only [BitVec.getLsbD_extractLsb', hk, decide_true, Bool.true_and]
    congr 1; omega
  · rw [if_neg h]
    by_cases h' : i = b + 1
    · subst h'
      rw [if_pos (by omega), if_pos rfl]
      simp only [BitVec.getLsbD_extractLsb', hk, decide_true, Bool.true_and]
      congr 1; omega
    · rw [if_neg (by omega), if_neg h']
      simp [byteOf, hk]

/-! ### `MemWrite` -/

/-- A byte store writes the byte at its address and leaves every other byte as it was (spec/20_memory.md R48). -/
theorem readByte_memWriteByte (m : Memory) (a : Word) (v : Byte) (b : Nat) :
    readByte (memWriteByte m a v) b = if b = a.toNat then v else readByte m b := by
  have ho := offset_lt a
  have hs := wordBase_add_offset a
  rw [memWriteByte, readByte_setWordAt]
  by_cases h : (wordBase a).toNat ≤ b ∧ b < (wordBase a).toNat + 4
  · rw [if_pos h, byteOf_setByteOf _ _ ho (by omega), byteOf_wordAt _ _ (by omega)]
    have : (wordBase a).toNat + (b - (wordBase a).toNat) = b := by omega
    rw [this]
    by_cases hb : b = a.toNat
    · rw [if_pos (by omega), if_pos hb]
    · rw [if_neg (by omega), if_neg hb]
  · rw [if_neg h, if_neg (by omega)]

/-- A halfword store at an even address: its two bytes, high byte first, and nothing else (R45, R48). -/
theorem readByte_memWriteHalf {m m' : Memory} {a : Word} {v : BitVec 16} (h : memWriteHalf m a v = .ok m') (b : Nat) :
    readByte m' b = if b = a.toNat then v.extractLsb' 8 8 else if b = a.toNat + 1 then v.extractLsb' 0 8
      else readByte m b := by
  unfold memWriteHalf at h
  split at h
  · rename_i he
    injection h with h
    subst h
    have ho := offset_lt a
    have hm := offset_eq_mod a
    rw [even_iff] at he
    have hs := wordBase_add_offset a
    have hcase : offset a = 0 ∨ offset a = 2 := by omega
    rw [readByte_setWordAt]
    by_cases hr : (wordBase a).toNat ≤ b ∧ b < (wordBase a).toNat + 4
    · rw [if_pos hr, byteOf_setHalfOf _ _ hcase (by omega), byteOf_wordAt _ _ (by omega)]
      have : (wordBase a).toNat + (b - (wordBase a).toNat) = b := by omega
      rw [this]
      by_cases hb : b = a.toNat
      · rw [if_pos (by omega), if_pos hb]
      · rw [if_neg (by omega), if_neg hb]
        by_cases hb' : b = a.toNat + 1
        · rw [if_pos (by omega), if_pos hb']
        · rw [if_neg (by omega), if_neg hb']
    · rw [if_neg hr, if_neg (by omega), if_neg (by omega)]
  · cases h

theorem wf_memWriteByte {m : Memory} (a : Word) (v : Byte) (hm : wf m = true) : wf (memWriteByte m a v) = true :=
  wf_setWordAt a _ hm

theorem wf_memWriteHalf {m m' : Memory} {a : Word} {v : BitVec 16} (h : memWriteHalf m a v = .ok m')
    (hm : wf m = true) : wf m' = true := by
  unfold memWriteHalf at h
  split at h
  · injection h with h; subst h; exact wf_setWordAt a _ hm
  · cases h

theorem wf_memWriteWord {m m' : Memory} {a v : Word} (h : memWriteWord m a v = .ok m') (hm : wf m = true) :
    wf m' = true := by
  unfold memWriteWord writeWord at h
  split at h
  · injection h with h; subst h; exact wf_setWordAt a _ hm
  · cases h

/-! ### Byte strings -/

/-- What every byte reads after a byte string is stored (R46). -/
theorem readByte_storeBytes (m : Memory) (a : Nat) (bytes : List Byte) (b : Nat) :
    readByte (storeBytes m a bytes) b =
      if a ≤ b ∧ b < a + bytes.length then bytes.getD (b - a) 0#8 else readByte m b := by
  induction bytes generalizing m a with
  | nil => simp only [storeBytes, List.length_nil]; rw [if_neg (by omega)]
  | cons v vs ih =>
    rw [storeBytes, ih, readByte_writeByte]
    simp only [List.length_cons]
    by_cases h : a + 1 ≤ b ∧ b < a + 1 + vs.length
    · rw [if_pos h, if_pos (by omega)]
      have : b - a = (b - (a + 1)) + 1 := by omega
      rw [this, List.getD_cons_succ]
    · rw [if_neg h]
      by_cases hb : b = a
      · subst hb; simp
      · rw [if_neg hb, if_neg (by omega)]

/-- Storing a byte string inside the address space keeps the canonical form. -/
theorem wf_storeBytes {m : Memory} {a : Nat} {bytes : List Byte} (hm : wf m = true)
    (h : a + bytes.length ≤ 2 ^ 32) : wf (storeBytes m a bytes) = true := by
  induction bytes generalizing m a with
  | nil => exact hm
  | cons v vs ih =>
    simp only [List.length_cons] at h
    exact ih (wf_writeByte v hm (by omega)) (by omega)

theorem wf_setRange {m m' : Memory} {a : Word} {bytes : List Byte} (hm : wf m = true)
    (h : setRange m a bytes = some m') : wf m' = true := by
  unfold setRange at h
  split at h
  · injection h with h; subst h; exact wf_storeBytes hm ‹_›
  · cases h

@[simp] theorem length_readBytes (m : Memory) (a : Word) (n : Nat) : (readBytes m a n).length = n := by
  induction n generalizing a with
  | zero => rfl
  | succ n ih => simp [readBytes, ih]

end Sys2Proof.Machine.Memory
end

