-- ==== Sys2Proof/Laws/LoadStore.lean ====
section
/-! SUPPORT. Bytes and halfwords inside their word (spec/20_memory.md R45, R47), and the partial-word
merges (spec/43_load_store.md R149, R150, R154, R155), byte by byte: byte 0 of a word is its most significant one. -/

namespace Sys2Proof.Machine

/-- The effective address from the signed offset: a sum of integers modulo 2^32 (R140). -/
theorem effAddr_eq (s : State) (rs : Reg) (imm : BitVec 16) :
    effAddr s rs imm = BitVec.ofInt 32 ((s.reg rs).toNat + imm.toInt) := by
  apply BitVec.eq_of_toNat_eq
  have h : sext16 imm = BitVec.ofInt 32 imm.toInt := rfl
  rw [effAddr, h, BitVec.toNat_add, BitVec.toNat_ofInt, BitVec.toNat_ofInt]
  have := (s.reg rs).isLt
  omega

/-- The byte at an address, inside its word (R45). -/
theorem byteOf_wordAt_offset (m : Memory) (a : Word) :
    byteOf (Memory.wordAt m a) (Memory.offset a) = Memory.readByte m a.toNat := by
  rw [Memory.byteOf_wordAt _ _ (Memory.offset_lt a), Memory.wordBase_add_offset]

/-- A halfword is its byte at the lower address followed by the other (R45). -/
theorem halfOf_eq_append (w : Word) {b : Nat} (hb : b = 0 ∨ b = 2) :
    Memory.halfOf w b = byteOf w b ++ byteOf w (b + 1) := by
  apply BitVec.eq_of_toNat_eq
  rw [toNat_append_eq]
  unfold Memory.halfOf byteOf
  rw [toNat_slice_eq, toNat_slice_eq, toNat_slice_eq]
  have := w.isLt
  rcases hb with rfl | rfl <;> simp <;> omega

/-- The halfword at an even address (R45, R47). -/
theorem halfOf_wordAt (m : Memory) (a : Word) (h : a.toNat % 2 = 0) :
    Memory.halfOf (Memory.wordAt m a) (Memory.offset a) =
      Memory.readByte m a.toNat ++ Memory.readByte m (a.toNat + 1) := by
  have := Memory.offset_eq_mod a
  rw [halfOf_eq_append _ (by omega), byteOf_wordAt_offset, Memory.byteOf_wordAt _ _ (by omega), ← Nat.add_assoc,
    Memory.wordBase_add_offset]

theorem offset_cases {b : Nat} (h : b < 4) : b = 0 ∨ b = 1 ∨ b = 2 ∨ b = 3 := by omega

/-- `lwl`: bytes `b` to 3 of the word, then the low bytes of the old register. -/
theorem byteOf_mergeLwl (w old : Word) {b k : Nat} (hb : b < 4) (hk : k < 4) :
    byteOf (mergeLwl w old b) k = if k + b < 4 then byteOf w (k + b) else byteOf old k := by
  rcases offset_cases hb with rfl | rfl | rfl | rfl <;> rcases offset_cases hk with rfl | rfl | rfl | rfl <;>
    (apply BitVec.eq_of_getLsbD_eq; intro i hi
     simp only [byteOf, mergeLwl, BitVec.getLsbD_extractLsb', hi]
     interval_cases i <;> simp)

/-- `lwr`: the high bytes of the old register, then bytes 0 to `b` of the word. -/
theorem byteOf_mergeLwr (w old : Word) {b k : Nat} (hb : b < 4) (hk : k < 4) :
    byteOf (mergeLwr w old b) k = if 3 ≤ k + b then byteOf w (k + b - 3) else byteOf old k := by
  rcases offset_cases hb with rfl | rfl | rfl | rfl <;> rcases offset_cases hk with rfl | rfl | rfl | rfl <;>
    (apply BitVec.eq_of_getLsbD_eq; intro i hi
     simp only [byteOf, mergeLwr, BitVec.getLsbD_extractLsb', hi]
     interval_cases i <;> simp)

/-- `swl`: bytes 0 to `b - 1` of the old word, then the high bytes of the register. -/
theorem byteOf_mergeSwl (w v : Word) {b k : Nat} (hb : b < 4) (hk : k < 4) :
    byteOf (mergeSwl w v b) k = if b ≤ k then byteOf v (k - b) else byteOf w k := by
  rcases offset_cases hb with rfl | rfl | rfl | rfl <;> rcases offset_cases hk with rfl | rfl | rfl | rfl <;>
    (apply BitVec.eq_of_getLsbD_eq; intro i hi
     simp only [byteOf, mergeSwl, BitVec.getLsbD_extractLsb', hi]
     interval_cases i <;> simp)

/-- `swr`: the low bytes of the register, then bytes `b + 1` to 3 of the old word. -/
theorem byteOf_mergeSwr (w v : Word) {b k : Nat} (hb : b < 4) (hk : k < 4) :
    byteOf (mergeSwr w v b) k = if k ≤ b then byteOf v (3 - b + k) else byteOf w k := by
  rcases offset_cases hb with rfl | rfl | rfl | rfl <;> rcases offset_cases hk with rfl | rfl | rfl | rfl <;>
    (apply BitVec.eq_of_getLsbD_eq; intro i hi
     simp only [byteOf, mergeSwr, BitVec.getLsbD_extractLsb', hi]
     interval_cases i <;> simp)

end Sys2Proof.Machine
end

