-- ==== Sys2Proof/Laws/State.lean ====
section
/-! SUPPORT. One lemma per field per update of the state, so that no proof unfolds a record update. -/

namespace Sys2Proof.Machine.State

/-! ### setMem -/

@[simp] theorem setMem_mem (s : State) (m : Memory) : (s.setMem m).mem = m := rfl
@[simp] theorem setMem_regs (s : State) (m : Memory) : (s.setMem m).regs = s.regs := rfl
@[simp] theorem setMem_hi (s : State) (m : Memory) : (s.setMem m).hi = s.hi := rfl
@[simp] theorem setMem_lo (s : State) (m : Memory) : (s.setMem m).lo = s.lo := rfl
@[simp] theorem setMem_pc (s : State) (m : Memory) : (s.setMem m).pc = s.pc := rfl
@[simp] theorem setMem_nextPc (s : State) (m : Memory) : (s.setMem m).nextPc = s.nextPc := rfl
@[simp] theorem setMem_stepCount (s : State) (m : Memory) : (s.setMem m).stepCount = s.stepCount := rfl
@[simp] theorem setMem_exited (s : State) (m : Memory) : (s.setMem m).exited = s.exited := rfl
@[simp] theorem setMem_exitCode (s : State) (m : Memory) : (s.setMem m).exitCode = s.exitCode := rfl
@[simp] theorem setMem_heap (s : State) (m : Memory) : (s.setMem m).heap = s.heap := rfl
@[simp] theorem setMem_pkey (s : State) (m : Memory) : (s.setMem m).pkey = s.pkey := rfl
@[simp] theorem setMem_poff (s : State) (m : Memory) : (s.setMem m).poff = s.poff := rfl
@[simp] theorem setMem_cfg (s : State) (m : Memory) : (s.setMem m).cfg = s.cfg := rfl
@[simp] theorem setMem_oracle (s : State) (m : Memory) : (s.setMem m).oracle = s.oracle := rfl
@[simp] theorem setMem_sink1 (s : State) (m : Memory) : (s.setMem m).sink1 = s.sink1 := rfl
@[simp] theorem setMem_sink2 (s : State) (m : Memory) : (s.setMem m).sink2 = s.sink2 := rfl
@[simp] theorem setMem_reg (s : State) (m : Memory) (r : Reg) : (s.setMem m).reg r = s.reg r := rfl

/-! ### setReg -/

@[simp] theorem setReg_mem (s : State) (r : Reg) (v : Word) : (s.setReg r v).mem = s.mem := by
  unfold setReg; split <;> rfl
@[simp] theorem setReg_hi (s : State) (r : Reg) (v : Word) : (s.setReg r v).hi = s.hi := by
  unfold setReg; split <;> rfl
@[simp] theorem setReg_lo (s : State) (r : Reg) (v : Word) : (s.setReg r v).lo = s.lo := by
  unfold setReg; split <;> rfl
@[simp] theorem setReg_pc (s : State) (r : Reg) (v : Word) : (s.setReg r v).pc = s.pc := by
  unfold setReg; split <;> rfl
@[simp] theorem setReg_nextPc (s : State) (r : Reg) (v : Word) : (s.setReg r v).nextPc = s.nextPc := by
  unfold setReg; split <;> rfl
@[simp] theorem setReg_stepCount (s : State) (r : Reg) (v : Word) : (s.setReg r v).stepCount = s.stepCount := by
  unfold setReg; split <;> rfl
@[simp] theorem setReg_exited (s : State) (r : Reg) (v : Word) : (s.setReg r v).exited = s.exited := by
  unfold setReg; split <;> rfl
@[simp] theorem setReg_exitCode (s : State) (r : Reg) (v : Word) : (s.setReg r v).exitCode = s.exitCode := by
  unfold setReg; split <;> rfl
@[simp] theorem setReg_heap (s : State) (r : Reg) (v : Word) : (s.setReg r v).heap = s.heap := by
  unfold setReg; split <;> rfl
@[simp] theorem setReg_pkey (s : State) (r : Reg) (v : Word) : (s.setReg r v).pkey = s.pkey := by
  unfold setReg; split <;> rfl
@[simp] theorem setReg_poff (s : State) (r : Reg) (v : Word) : (s.setReg r v).poff = s.poff := by
  unfold setReg; split <;> rfl
@[simp] theorem setReg_cfg (s : State) (r : Reg) (v : Word) : (s.setReg r v).cfg = s.cfg := by
  unfold setReg; split <;> rfl
@[simp] theorem setReg_oracle (s : State) (r : Reg) (v : Word) : (s.setReg r v).oracle = s.oracle := by
  unfold setReg; split <;> rfl
@[simp] theorem setReg_sink1 (s : State) (r : Reg) (v : Word) : (s.setReg r v).sink1 = s.sink1 := by
  unfold setReg; split <;> rfl
@[simp] theorem setReg_sink2 (s : State) (r : Reg) (v : Word) : (s.setReg r v).sink2 = s.sink2 := by
  unfold setReg; split <;> rfl

/-- A write to register 0 is discarded (spec/10_state.md R11). -/
@[simp] theorem setReg_zero (s : State) (v : Word) : s.setReg 0#5 v = s := rfl

/-- Register 0 reads as zero (R11). -/
@[simp] theorem reg_zero (s : State) : s.reg 0#5 = 0#32 := rfl

/-- What a register reads after a register write (R11). -/
theorem reg_setReg (s : State) (r q : Reg) (v : Word) :
    (s.setReg r v).reg q = if q = r ∧ q ≠ 0#5 then v else s.reg q := by
  unfold reg setReg
  by_cases hr : r = 0#5
  · by_cases hq : q = 0#5 <;> simp [hr, hq]
  · by_cases hq : q = 0#5
    · simp [hq]
    · by_cases h : q = r
      · subst h; simp [hq]
      · have hne : r.toNat ≠ q.toNat := fun e => h (BitVec.eq_of_toNat_eq e.symm)
        simp [hr, hq, h, Vector.getElem_set_ne _ _ hne]

/-- The slots of the register file after a register write. -/
theorem slot_setReg (s : State) (r : Reg) (v : Word) (h : s.regs[0] = 0#32) : (s.setReg r v).regs[0] = 0#32 := by
  unfold setReg
  by_cases hr : r = 0#5
  · simpa [hr] using h
  · have hne : r.toNat ≠ 0 := fun e => hr (BitVec.eq_of_toNat_eq e)
    simp [hr, Vector.getElem_set_ne _ _ hne, h]

/-! ### retire and advance (spec/40_step_cycle.md R96, R98) -/

@[simp] theorem retire_mem (s : State) (n : Word) : (s.retire n).mem = s.mem := rfl
@[simp] theorem retire_hi (s : State) (n : Word) : (s.retire n).hi = s.hi := rfl
@[simp] theorem retire_lo (s : State) (n : Word) : (s.retire n).lo = s.lo := rfl
@[simp] theorem retire_pc (s : State) (n : Word) : (s.retire n).pc = s.nextPc := rfl
@[simp] theorem retire_nextPc (s : State) (n : Word) : (s.retire n).nextPc = n := rfl
@[simp] theorem retire_stepCount (s : State) (n : Word) : (s.retire n).stepCount = s.stepCount + 1#64 := rfl
@[simp] theorem retire_exited (s : State) (n : Word) : (s.retire n).exited = s.exited := rfl
@[simp] theorem retire_exitCode (s : State) (n : Word) : (s.retire n).exitCode = s.exitCode := rfl
@[simp] theorem retire_heap (s : State) (n : Word) : (s.retire n).heap = s.heap := rfl
@[simp] theorem retire_pkey (s : State) (n : Word) : (s.retire n).pkey = s.pkey := rfl
@[simp] theorem retire_poff (s : State) (n : Word) : (s.retire n).poff = s.poff := rfl
@[simp] theorem retire_cfg (s : State) (n : Word) : (s.retire n).cfg = s.cfg := rfl
@[simp] theorem retire_oracle (s : State) (n : Word) : (s.retire n).oracle = s.oracle := rfl
@[simp] theorem retire_sink1 (s : State) (n : Word) : (s.retire n).sink1 = s.sink1 := rfl
@[simp] theorem retire_sink2 (s : State) (n : Word) : (s.retire n).sink2 = s.sink2 := rfl
@[simp] theorem retire_slot (s : State) (n : Word) : (s.retire n).regs[0] = 0#32 := by simp [retire]

@[simp] theorem retire_reg (s : State) (n : Word) (r : Reg) : (s.retire n).reg r = s.reg r := by
  unfold reg retire
  by_cases hr : r = 0#5
  · simp [hr]
  · have hne : (0 : Nat) ≠ r.toNat := fun e => hr (BitVec.eq_of_toNat_eq e.symm)
    simp [hr, Vector.getElem_set_ne _ _ hne]

@[simp] theorem advance_mem (s : State) : s.advance.mem = s.mem := rfl
@[simp] theorem advance_hi (s : State) : s.advance.hi = s.hi := rfl
@[simp] theorem advance_lo (s : State) : s.advance.lo = s.lo := rfl
@[simp] theorem advance_pc (s : State) : s.advance.pc = s.nextPc := rfl
@[simp] theorem advance_nextPc (s : State) : s.advance.nextPc = s.nextPc + 4#32 := rfl
@[simp] theorem advance_stepCount (s : State) : s.advance.stepCount = s.stepCount + 1#64 := rfl
@[simp] theorem advance_exited (s : State) : s.advance.exited = s.exited := rfl
@[simp] theorem advance_exitCode (s : State) : s.advance.exitCode = s.exitCode := rfl
@[simp] theorem advance_heap (s : State) : s.advance.heap = s.heap := rfl
@[simp] theorem advance_pkey (s : State) : s.advance.pkey = s.pkey := rfl
@[simp] theorem advance_poff (s : State) : s.advance.poff = s.poff := rfl
@[simp] theorem advance_cfg (s : State) : s.advance.cfg = s.cfg := rfl
@[simp] theorem advance_oracle (s : State) : s.advance.oracle = s.oracle := rfl
@[simp] theorem advance_sink1 (s : State) : s.advance.sink1 = s.sink1 := rfl
@[simp] theorem advance_sink2 (s : State) : s.advance.sink2 = s.sink2 := rfl
@[simp] theorem advance_slot (s : State) : s.advance.regs[0] = 0#32 := retire_slot s _
@[simp] theorem advance_reg (s : State) (r : Reg) : s.advance.reg r = s.reg r := retire_reg s _ r

/-! ### emit (spec/46_syscall.md R212) -/

@[simp] theorem emit_mem (s : State) (fd : Word) (b : List Byte) : (s.emit fd b).mem = s.mem := by
  unfold emit; split <;> rfl
@[simp] theorem emit_regs (s : State) (fd : Word) (b : List Byte) : (s.emit fd b).regs = s.regs := by
  unfold emit; split <;> rfl
@[simp] theorem emit_hi (s : State) (fd : Word) (b : List Byte) : (s.emit fd b).hi = s.hi := by
  unfold emit; split <;> rfl
@[simp] theorem emit_lo (s : State) (fd : Word) (b : List Byte) : (s.emit fd b).lo = s.lo := by
  unfold emit; split <;> rfl
@[simp] theorem emit_pc (s : State) (fd : Word) (b : List Byte) : (s.emit fd b).pc = s.pc := by
  unfold emit; split <;> rfl
@[simp] theorem emit_nextPc (s : State) (fd : Word) (b : List Byte) : (s.emit fd b).nextPc = s.nextPc := by
  unfold emit; split <;> rfl
@[simp] theorem emit_stepCount (s : State) (fd : Word) (b : List Byte) : (s.emit fd b).stepCount = s.stepCount := by
  unfold emit; split <;> rfl
@[simp] theorem emit_exited (s : State) (fd : Word) (b : List Byte) : (s.emit fd b).exited = s.exited := by
  unfold emit; split <;> rfl
@[simp] theorem emit_exitCode (s : State) (fd : Word) (b : List Byte) : (s.emit fd b).exitCode = s.exitCode := by
  unfold emit; split <;> rfl
@[simp] theorem emit_heap (s : State) (fd : Word) (b : List Byte) : (s.emit fd b).heap = s.heap := by
  unfold emit; split <;> rfl
@[simp] theorem emit_pkey (s : State) (fd : Word) (b : List Byte) : (s.emit fd b).pkey = s.pkey := by
  unfold emit; split <;> rfl
@[simp] theorem emit_poff (s : State) (fd : Word) (b : List Byte) : (s.emit fd b).poff = s.poff := by
  unfold emit; split <;> rfl
@[simp] theorem emit_cfg (s : State) (fd : Word) (b : List Byte) : (s.emit fd b).cfg = s.cfg := by
  unfold emit; split <;> rfl
@[simp] theorem emit_oracle (s : State) (fd : Word) (b : List Byte) : (s.emit fd b).oracle = s.oracle := by
  unfold emit; split <;> rfl
@[simp] theorem emit_reg (s : State) (fd : Word) (b : List Byte) (r : Reg) : (s.emit fd b).reg r = s.reg r := by
  unfold emit; split <;> rfl
theorem emit_sink1 (s : State) (fd : Word) (b : List Byte) :
    (s.emit fd b).sink1 = if fd = Config.fdStdout then s.sink1 ++ b else s.sink1 := by
  unfold emit; split <;> rfl
theorem emit_sink2 (s : State) (fd : Word) (b : List Byte) :
    (s.emit fd b).sink2 = if fd = Config.fdStdout then s.sink2 else s.sink2 ++ b := by
  unfold emit; split <;> rfl

/-! ### link (spec/44_branch_jump.md R161) -/

@[simp] theorem link_mem (s : State) (r : Reg) : (link r s).mem = s.mem := setReg_mem s r _
@[simp] theorem link_hi (s : State) (r : Reg) : (link r s).hi = s.hi := setReg_hi s r _
@[simp] theorem link_lo (s : State) (r : Reg) : (link r s).lo = s.lo := setReg_lo s r _
@[simp] theorem link_pc (s : State) (r : Reg) : (link r s).pc = s.pc := setReg_pc s r _
@[simp] theorem link_nextPc (s : State) (r : Reg) : (link r s).nextPc = s.nextPc := setReg_nextPc s r _
@[simp] theorem link_stepCount (s : State) (r : Reg) : (link r s).stepCount = s.stepCount := setReg_stepCount s r _
@[simp] theorem link_exited (s : State) (r : Reg) : (link r s).exited = s.exited := setReg_exited s r _
@[simp] theorem link_exitCode (s : State) (r : Reg) : (link r s).exitCode = s.exitCode := setReg_exitCode s r _
@[simp] theorem link_heap (s : State) (r : Reg) : (link r s).heap = s.heap := setReg_heap s r _
@[simp] theorem link_pkey (s : State) (r : Reg) : (link r s).pkey = s.pkey := setReg_pkey s r _
@[simp] theorem link_poff (s : State) (r : Reg) : (link r s).poff = s.poff := setReg_poff s r _
@[simp] theorem link_cfg (s : State) (r : Reg) : (link r s).cfg = s.cfg := setReg_cfg s r _
@[simp] theorem link_oracle (s : State) (r : Reg) : (link r s).oracle = s.oracle := setReg_oracle s r _
@[simp] theorem link_sink1 (s : State) (r : Reg) : (link r s).sink1 = s.sink1 := setReg_sink1 s r _
@[simp] theorem link_sink2 (s : State) (r : Reg) : (link r s).sink2 = s.sink2 := setReg_sink2 s r _
theorem link_reg (s : State) (r q : Reg) : (link r s).reg q = if q = r ∧ q ≠ 0#5 then s.pc + 8#32 else s.reg q :=
  reg_setReg s r q _

/-! ### Reading registers does not see the other fields -/

theorem reg_congr {s t : State} (h : t.regs = s.regs) (r : Reg) : t.reg r = s.reg r := by unfold reg; rw [h]

end Sys2Proof.Machine.State
end

