-- ==== Sys2Proof/Laws/Ops.lean ====
section
/-! SUPPORT. Each shared operation of the meanings, said once: if it answers next, then how. -/

namespace Sys2Proof.Machine

/-! ### Outcomes -/

@[simp] theorem complete_eq_next {s t : State} : complete s = .next t ↔ t = s.advance := by
  simp only [complete, Host.Outcome.next.injEq]
  exact eq_comm

@[simp] theorem completeTo_eq_next {n : Word} {s t : State} : completeTo n s = .next t ↔ t = s.retire n := by
  simp only [completeTo, Host.Outcome.next.injEq]
  exact eq_comm

@[simp] theorem raise_ne_next {e : Fault} {t : State} : raise e ≠ .next t := nofun

@[simp] theorem complete_ne_refused {s : State} {r : Refusal} : complete s ≠ .refused r := nofun
@[simp] theorem completeTo_ne_refused {n : Word} {s : State} {r : Refusal} : completeTo n s ≠ .refused r := nofun
@[simp] theorem raise_ne_refused {e : Fault} {r : Refusal} : raise e ≠ .refused r := nofun

/-! ### Loads and stores (spec/43_load_store.md R142) -/

theorem loadedIf_eq_next {rt : Reg} {r : Except Fault Word} {s t : State} :
    loadedIf rt r s = .next t ↔ ∃ v, r = .ok v ∧ t = (s.setReg rt v).advance := by
  cases r with
  | ok v => simp [loadedIf, loaded]
  | error e => simp [loadedIf]

theorem storedIf_eq_next {r : Except Fault Memory} {s t : State} :
    storedIf r s = .next t ↔ ∃ m, r = .ok m ∧ t = (s.setMem m).advance := by
  cases r with
  | ok m => simp [storedIf]
  | error e => simp [storedIf]

theorem unalignedOnly_eq_next {i : Instr} {r : Result} {s t : State} :
    unalignedOnly i r s = .next t ↔ s.cfg.unalignedWordOps = true ∧ r = .next t := by
  unfold unalignedOnly
  by_cases h : s.cfg.unalignedWordOps = true <;> simp [h]

theorem memReadHalf_of_even {m : Memory} {a : Word} (h : a &&& 1#32 = 0#32) :
    Memory.memReadHalf m a = .ok (Memory.halfOf (Memory.wordAt m a) (Memory.offset a)) := if_pos h

theorem memReadHalf_of_odd {m : Memory} {a : Word} (h : a &&& 1#32 ≠ 0#32) :
    Memory.memReadHalf m a = .error (.misalignedAccess a) := if_neg h

/-! ### Transfers (spec/44_branch_jump.md R162) -/

theorem transferCheck_pass {s : State} {r : Result}
    (h : s.cfg.delaySlotBranch = .fault → s.nextPc = s.pc + 4#32) : transferCheck s r = r :=
  if_neg fun hc => hc.2 (h hc.1)

theorem transferCheck_fail {s : State} {r : Result} (hp : s.cfg.delaySlotBranch = .fault)
    (hn : s.nextPc ≠ s.pc + 4#32) : transferCheck s r = .fault (.branchInDelaySlot s.pc) :=
  if_pos ⟨hp, hn⟩

theorem transferCheck_eq_next {s : State} {r : Result} {t : State} :
    transferCheck s r = .next t ↔
      (s.cfg.delaySlotBranch = .fault → s.nextPc = s.pc + 4#32) ∧ r = .next t := by
  unfold transferCheck
  split
  · rename_i h
    exact ⟨fun e => absurd e raise_ne_next, fun e => absurd (e.1 h.1) h.2⟩
  · rename_i h
    exact ⟨fun e => ⟨fun hp => Decidable.byContradiction fun hn => h ⟨hp, hn⟩, e⟩, fun e => e.2⟩

theorem branchIf_eq_next {c : Bool} {imm : BitVec 16} {s u t : State} :
    branchIf c imm s u = .next t ↔
      t = u.retire (if c then branchTarget s.pc imm else u.nextPc + 4#32) := by
  cases c <;> simp [branchIf, State.advance]

/-! ### System calls (spec/46_syscall.md) -/

theorem returns_eq_next {v : Word} {s t : State} :
    returns v s = .next t ↔ t = ((s.setReg regV0 v).setReg regA3 0#32).advance := by simp [returns]

/-- The registers a returning system call leaves (R201). -/
theorem reg_returns (v : Word) (s : State) (r : Reg) :
    ((s.setReg regV0 v).setReg regA3 0#32).reg r =
      if r = 7#5 then 0#32 else if r = 2#5 then v else s.reg r := by
  simp only [State.reg_setReg, regV0, regA3]
  by_cases h7 : r = 7#5
  · subst h7; simp
  · by_cases h2 : r = 2#5
    · subst h2; simp
    · simp [h7, h2]

/-- Which rule a completed `syscall` ran: the eight calls that complete, and nothing else. -/
theorem execSyscall_eq_next {s t : State} (h : execSyscall s = .next t) :
    (s.call = .exit ∧ sysExit s = .next t) ∨ (s.call = .brk ∧ sysBrk s = .next t) ∨
    (s.call = .mmap ∧ sysMmap s = .next t) ∨ (s.call = .clone ∧ sysClone s = .next t) ∨
    (s.call = .readStdin ∧ readStdin s = .next t) ∨ (s.call = .readPreimage ∧ readPreimage s = .next t) ∨
    (s.call = .writeSink ∧ writeSink s = .next t) ∨ (s.call = .writePreimage ∧ writePreimage s = .next t) := by
  unfold execSyscall at h
  cases hc : s.call <;> rw [hc] at h <;> simp_all

/-- What a completed `read` on the preimage descriptor did (R222). -/
theorem readPreimage_eq_next {s t : State} (h : readPreimage s = .next t) :
    ∃ v, s.oracle.get s.pkey = some v ∧
      ((preimageCount v s.poff (s.reg regA1) (s.reg regA2) = 0 ∧ returns 0#32 s = .next t) ∨
       (preimageCount v s.poff (s.reg regA1) (s.reg regA2) ≠ 0 ∧
        returns (BitVec.ofNat 32 (preimageCount v s.poff (s.reg regA1) (s.reg regA2)))
          { s with
            mem := Memory.setWordAt s.mem (s.reg regA1)
              (Memory.setBytesOf (Memory.wordAt s.mem (s.reg regA1)) (Memory.offset (s.reg regA1))
                ((preimageChunk v s.poff (preimageCount v s.poff (s.reg regA1) (s.reg regA2))).take
                  (preimageSpan (s.reg regA1) (s.reg regA2))))
            poff := s.poff + BitVec.ofNat 32 (preimageCount v s.poff (s.reg regA1) (s.reg regA2)) } = .next t)) := by
  unfold readPreimage at h
  cases ho : s.oracle.get s.pkey with
  | none => rw [ho] at h; simp at h
  | some v =>
    rw [ho] at h
    refine ⟨v, rfl, ?_⟩
    by_cases hn : preimageCount v s.poff (s.reg regA1) (s.reg regA2) = 0
    · exact .inl ⟨hn, by simpa [hn] using h⟩
    · exact .inr ⟨hn, by simpa only [if_neg hn] using h⟩

/-! ### The step (spec/40_step_cycle.md R98) -/

/-- What a completed step did: it executed the instruction at an aligned `PC`, in a running state. -/
theorem step_eq_next {s t : State} (h : step s = .next t) :
    s.exited = false ∧ s.pc &&& 3#32 = 0#32 ∧
      ∃ i, decodeWord (Memory.wordAt s.mem s.pc) = .ok i ∧ exec i s = .next t := by
  unfold step at h
  cases he : s.exited with
  | true => rw [he] at h; simp only [if_true, reduceCtorEq] at h
  | false =>
    rw [he] at h
    simp only [Bool.false_eq_true, if_false, fetch] at h
    by_cases ha : s.pc &&& 3#32 = 0#32
    · rw [Memory.readWord_of_aligned ha] at h
      cases hd : decodeWord (Memory.wordAt s.mem s.pc) with
      | error r => simp [hd] at h
      | ok i => simp only [hd] at h; exact ⟨rfl, ha, i, rfl, h⟩
    · rw [Memory.readWord_of_misaligned ha] at h; simp at h

/-- A halted state has no successor. -/
theorem step_halted {s : State} (he : s.exited = true) : step s = .refused .halted := by simp [step, he]

/-- A step on an aligned, running state whose word decodes is the instruction's meaning. -/
theorem step_of_decode {s : State} {i : Instr} (he : s.exited = false) (ha : s.pc &&& 3#32 = 0#32)
    (hd : decodeWord (Memory.wordAt s.mem s.pc) = .ok i) : step s = exec i s := by
  unfold step fetch
  simp [he, Memory.readWord_of_aligned ha, hd]

end Sys2Proof.Machine
end

