-- ==== Sys2Proof/Laws/Frames.lean ====
section
/-! SUPPORT. The frames of Safety.lean, met by the states the shared operations build: one lemma for each shape of
instruction. -/

namespace Sys2Proof.Machine

/-- A state that differs from another in no system field. -/
theorem sameSystem_of {s t : State} (h1 : t.exited = s.exited) (h2 : t.exitCode = s.exitCode) (h3 : t.heap = s.heap)
    (h4 : t.pkey = s.pkey) (h5 : t.poff = s.poff) (h6 : t.sink1 = s.sink1) (h7 : t.sink2 = s.sink2) (h8 : t.cfg = s.cfg)
    (h9 : t.oracle = s.oracle) : SameSystem s t :=
  ⟨⟨h1, h2⟩, h3, ⟨h4, h5⟩, ⟨h6, h7⟩, h8, h9⟩

/-- One register written, then retirement in sequence. -/
theorem writesOnlyReg_advance (s : State) (rd : Reg) (v : Word) : WritesOnlyReg rd v s (s.setReg rd v).advance := by
  refine ⟨⟨?_, ?_, ?_⟩, fun r => ?_, ⟨?_, ?_⟩, fun a => ?_, sameSystem_of ?_ ?_ ?_ ?_ ?_ ?_ ?_ ?_ ?_⟩ <;>
    simp [State.reg_setReg, State.byte]

/-- `hi` and `lo` written, then retirement in sequence. -/
theorem writesOnlyHiLo_advance (s : State) (hi lo : Word) :
    WritesOnlyHiLo hi lo s ({ s with hi := hi, lo := lo } : State).advance :=
  ⟨⟨rfl, rfl, rfl⟩, fun r => by rw [State.advance_reg]; rfl, rfl, rfl, fun _ => rfl,
    sameSystem_of rfl rfl rfl rfl rfl rfl rfl rfl rfl⟩

/-- Memory replaced, then retirement in sequence. -/
theorem storesOnly_advance (s : State) {m : Memory} {a n : Nat}
    (h : ∀ b, b < a ∨ a + n ≤ b → m.readByte b = s.mem.readByte b) : StoresOnly a n s (s.setMem m).advance :=
  ⟨⟨rfl, rfl, rfl⟩, fun r => by rw [State.advance_reg]; rfl, ⟨rfl, rfl⟩, h,
    sameSystem_of rfl rfl rfl rfl rfl rfl rfl rfl rfl⟩

/-- Retirement with a staged target. -/
theorem onlyTransfers_retire (s : State) (n : Word) : OnlyTransfers n s (s.retire n) :=
  ⟨⟨rfl, rfl, rfl⟩, fun r => State.retire_reg s n r, ⟨rfl, rfl⟩, fun _ => rfl,
    sameSystem_of rfl rfl rfl rfl rfl rfl rfl rfl rfl⟩

/-- A link, then retirement with a staged target. -/
theorem transfersAndLinks_retire (s : State) (r : Reg) (n : Word) :
    TransfersAndLinks n r s ((link r s).retire n) := by
  refine ⟨⟨?_, ?_, ?_⟩, fun q => ?_, ⟨?_, ?_⟩, fun a => ?_, sameSystem_of ?_ ?_ ?_ ?_ ?_ ?_ ?_ ?_ ?_⟩ <;>
    simp [State.link_reg, State.byte]

/-- A system call that returns, from any state that has the registers of `s`. -/
theorem returned_advance {s u : State} (v : Word) (h : ∀ r, u.reg r = s.reg r) :
    Returned v s ((u.setReg regV0 v).setReg regA3 0#32).advance := by
  intro r
  rw [State.advance_reg, reg_returns, h]

end Sys2Proof.Machine
end

