-- ==== Sys2Proof/Laws/Exec.lean ====
section
/-! SUPPORT. What executing an instruction can do, said once: every completed execution has one of eight shapes
(`exec_effect`), and a completed `syscall` one of two (`execSyscall_effect`). Whole-machine claims split on these and
never unfold `exec`. -/

namespace Sys2Proof.Machine

/-- `mult`, `multu`, `div` or `divu`. -/
def WritesBothHiLo (i : Instr) : Prop :=
  ∃ rs rt, i = .mult rs rt ∨ i = .multu rs rt ∨ i = .div rs rt ∨ i = .divu rs rt

/-- The shapes of a completed execution. -/
inductive Effect (i : Instr) (s : State) : State → Prop
  /-- One general register. -/
  | reg (hi : i ≠ .syscall) (rd : Reg) (v : Word) : Effect i s (s.setReg rd v).advance
  /-- `hi` or `lo` or both. -/
  | hiLo (hi : i ≠ .syscall) (h l : Word) (hh : h = s.hi ∨ WritesBothHiLo i ∨ ∃ rs, i = .mthi rs)
      (hl : l = s.lo ∨ WritesBothHiLo i ∨ ∃ rs, i = .mtlo rs) :
      Effect i s ({ s with hi := h, lo := l } : State).advance
  /-- One word of memory, the one of the data access. -/
  | store (hi : Store i) (addr v : Word) (hd : dataAccess i s = some (Memory.wordBase addr)) :
      Effect i s (s.setMem (Memory.setWordAt s.mem addr v)).advance
  /-- A staged value of `NextPC`. -/
  | transfer (hi : Transfer i) (n : Word) : Effect i s (s.retire n)
  /-- A link and a staged value of `NextPC`. -/
  | linkedTransfer (hi : Transfer i) (r : Reg) (n : Word) : Effect i s ((link r s).retire n)
  /-- A system call. -/
  | call (hi : i = .syscall) (t : State) (ht : execSyscall s = .next t) : Effect i s t

theorem transfer_ne_syscall {i : Instr} (h : Transfer i) : i ≠ .syscall := by
  rintro rfl
  simp [Transfer] at h

theorem store_ne_syscall {i : Instr} (h : Store i) : i ≠ .syscall := by
  rintro rfl
  simp [Store] at h

theorem effect_of_branchIf {i : Instr} {s u t : State} {c : Bool} {imm : BitVec 16} (hi : Transfer i)
    (hu : u = s ∨ ∃ r, u = link r s) (h : transferCheck s (branchIf c imm s u) = .next t) : Effect i s t := by
  have ht := branchIf_eq_next.1 (transferCheck_eq_next.1 h).2
  subst ht
  rcases hu with rfl | ⟨r, rfl⟩
  · exact .transfer hi _
  · exact .linkedTransfer hi r _

theorem effect_of_completeTo {i : Instr} {s u t : State} {n : Word} (hi : Transfer i)
    (hu : u = s ∨ ∃ r, u = link r s) (h : transferCheck s (completeTo n u) = .next t) : Effect i s t := by
  have ht := completeTo_eq_next.1 (transferCheck_eq_next.1 h).2
  subst ht
  rcases hu with rfl | ⟨r, rfl⟩
  · exact .transfer hi _
  · exact .linkedTransfer hi r _

theorem effect_of_loadedIf {i : Instr} {s t : State} {rt : Reg} {r : Except Fault Word} (hi : i ≠ .syscall)
    (h : loadedIf rt r s = .next t) : Effect i s t := by
  obtain ⟨v, -, rfl⟩ := loadedIf_eq_next.1 h
  exact .reg hi rt v

/-- What a completed execution did. -/
theorem exec_effect {i : Instr} {s t : State} (h : exec i s = .next t) : Effect i s t := by
  cases i
  case syscall => exact .call rfl t h
  case mult rs rt => cases h; exact .hiLo (by simp) _ _ (.inr (.inl ⟨rs, rt, by simp⟩)) (.inr (.inl ⟨rs, rt, by simp⟩))
  case multu rs rt => cases h; exact .hiLo (by simp) _ _ (.inr (.inl ⟨rs, rt, by simp⟩)) (.inr (.inl ⟨rs, rt, by simp⟩))
  case div rs rt =>
    simp only [exec, execDiv] at h
    split at h
    · simp at h
    · cases h; exact .hiLo (by simp) _ _ (.inr (.inl ⟨rs, rt, by simp⟩)) (.inr (.inl ⟨rs, rt, by simp⟩))
  case divu rs rt =>
    simp only [exec, execDivu] at h
    split at h
    · simp at h
    · cases h; exact .hiLo (by simp) _ _ (.inr (.inl ⟨rs, rt, by simp⟩)) (.inr (.inl ⟨rs, rt, by simp⟩))
  case mthi rs => cases h; exact .hiLo (by simp) _ _ (.inr (.inr ⟨rs, rfl⟩)) (.inl rfl)
  case mtlo rs => cases h; exact .hiLo (by simp) _ _ (.inl rfl) (.inr (.inr ⟨rs, rfl⟩))
  case j => exact effect_of_completeTo (by simp [Transfer]) (.inl rfl) h
  case jal => exact effect_of_completeTo (by simp [Transfer]) (.inr ⟨_, rfl⟩) h
  case jr => exact effect_of_completeTo (by simp [Transfer]) (.inl rfl) h
  case jalr => exact effect_of_completeTo (by simp [Transfer]) (.inr ⟨_, rfl⟩) h
  case beq => exact effect_of_branchIf (by simp [Transfer]) (.inl rfl) h
  case bne => exact effect_of_branchIf (by simp [Transfer]) (.inl rfl) h
  case blez => exact effect_of_branchIf (by simp [Transfer]) (.inl rfl) h
  case bgtz => exact effect_of_branchIf (by simp [Transfer]) (.inl rfl) h
  case bltz => exact effect_of_branchIf (by simp [Transfer]) (.inl rfl) h
  case bgez => exact effect_of_branchIf (by simp [Transfer]) (.inl rfl) h
  case bltzal => exact effect_of_branchIf (by simp [Transfer]) (.inr ⟨_, rfl⟩) h
  case bgezal => exact effect_of_branchIf (by simp [Transfer]) (.inr ⟨_, rfl⟩) h
  case lh => exact effect_of_loadedIf (by simp) h
  case lhu => exact effect_of_loadedIf (by simp) h
  case lw => exact effect_of_loadedIf (by simp) h
  case lwl => cases (unalignedOnly_eq_next.1 h).2; exact .reg (by simp) _ _
  case lwr => cases (unalignedOnly_eq_next.1 h).2; exact .reg (by simp) _ _
  case sb => cases h; exact .store (by simp [Store]) _ _ rfl
  case swl => cases (unalignedOnly_eq_next.1 h).2; exact .store (by simp [Store]) _ _ rfl
  case swr => cases (unalignedOnly_eq_next.1 h).2; exact .store (by simp [Store]) _ _ rfl
  case sh =>
    obtain ⟨m, hm, rfl⟩ := storedIf_eq_next.1 h
    unfold Memory.memWriteHalf at hm
    split at hm <;> cases hm
    exact .store (by simp [Store]) _ _ rfl
  case sw =>
    obtain ⟨m, hm, rfl⟩ := storedIf_eq_next.1 h
    unfold Memory.memWriteWord Memory.writeWord at hm
    split at hm <;> cases hm
    exact .store (by simp [Store]) _ _ rfl
  all_goals first | (cases h; exact .reg (by simp) _ _) | cases h

/-- What a completed system call changed before it wrote `x[2]` and `x[7]`. -/
inductive CallEffect (s : State) (result : Word) : State → Prop
  /-- Nothing. -/
  | nothing : CallEffect s result s
  /-- The heap cursor. -/
  | heap (h : s.call = .brk ∨ s.call = .mmap) (v : Word) : CallEffect s result { s with heap := v }
  /-- Bytes to a sink. -/
  | sink (h : s.call = .writeSink) (bytes : List Byte) : CallEffect s result (s.emit (s.reg regA0) bytes)
  /-- The preimage key, and the offset back to 0. -/
  | key (h : s.call = .writePreimage) (k : Key) : CallEffect s result { s with pkey := k, poff := 0#32 }
  /-- The word of the data access, and the offset on by the result. -/
  | word (h : s.call = .readPreimage) (w : Word)
      (hd : dataAccess .syscall s = some (Memory.wordBase (s.reg regA1))) :
      CallEffect s result { s with mem := Memory.setWordAt s.mem (s.reg regA1) w, poff := s.poff + result }

/-- What a completed `syscall` did: it exited, or it returned. -/
theorem execSyscall_effect {s t : State} (h : execSyscall s = .next t) :
    (s.call = .exit ∧
      t = ({ s with exited := true, exitCode := (s.reg regA0).setWidth 8 } : State).advance) ∨
    (s.call ≠ .exit ∧ ∃ v u, CallEffect s v u ∧ t = ((u.setReg regV0 v).setReg regA3 0#32).advance) := by
  rcases execSyscall_eq_next h with ⟨hc, h⟩ | ⟨hc, h⟩ | ⟨hc, h⟩ | ⟨hc, h⟩ | ⟨hc, h⟩ | ⟨hc, h⟩ | ⟨hc, h⟩ | ⟨hc, h⟩
  · cases h; exact .inl ⟨hc, rfl⟩
  · cases h; exact .inr ⟨by simp [hc], _, _, .heap (.inl hc) _, rfl⟩
  · cases h; exact .inr ⟨by simp [hc], _, _, .heap (.inr hc) _, rfl⟩
  · cases h; exact .inr ⟨by simp [hc], _, _, .nothing, rfl⟩
  · cases h; exact .inr ⟨by simp [hc], _, _, .nothing, rfl⟩
  · obtain ⟨v, ho, ⟨hn, h⟩ | ⟨hn, h⟩⟩ := readPreimage_eq_next h
    · cases h; exact .inr ⟨by simp [hc], _, _, .nothing, rfl⟩
    · cases h
      exact .inr ⟨by simp [hc], _, _, .word hc _ (by simp [dataAccess, preimageAccess, hc, ho, hn]), rfl⟩
  · cases h; exact .inr ⟨by simp [hc], _, _, .sink hc _, rfl⟩
  · unfold writePreimage at h
    simp only at h
    split at h
    · cases h; exact .inr ⟨by simp [hc], _, _, .nothing, rfl⟩
    · cases h; exact .inr ⟨by simp [hc], _, _, .key hc _, rfl⟩

/-- What the registers of a state that asks for a call hold. -/
theorem call_registers (s : State) :
    (s.call = .exit ↔ s.reg 2#5 = s.cfg.sysExit ∨ s.reg 2#5 = s.cfg.sysExitGroup) ∧
    (s.call = .brk → s.reg 2#5 = s.cfg.sysBrk) ∧ (s.call = .mmap → s.reg 2#5 = s.cfg.sysMmap) ∧
    (s.call = .readPreimage → s.reg 2#5 = s.cfg.sysRead ∧ s.reg 4#5 = s.cfg.fdPreimage) ∧
    (s.call = .writePreimage → s.reg 2#5 = s.cfg.sysWrite ∧ s.reg 4#5 = s.cfg.fdPreimage) := by
  unfold State.call callOf readCall writeCall regV0 regA0
  refine ⟨⟨?_, fun h => if_pos h⟩, ?_, ?_, ?_, ?_⟩ <;>
    (intro h; split at h <;> simp_all) <;> (repeat' split at h) <;> simp_all

/-- Distinct call numbers and descriptors name their calls. -/
theorem call_of_distinct {s : State} (hd : DistinctCalls s.cfg) :
    (s.reg 2#5 = s.cfg.sysBrk → s.call = .brk) ∧ (s.reg 2#5 = s.cfg.sysMmap → s.call = .mmap) ∧
    (s.reg 2#5 = s.cfg.sysClone → s.call = .clone) ∧
    (s.reg 2#5 = s.cfg.sysRead → s.call = readCall s.cfg (s.reg 4#5)) ∧
    (s.reg 2#5 = s.cfg.sysWrite → s.call = writeCall s.cfg (s.reg 4#5)) := by
  obtain ⟨hd, -⟩ := hd
  simp only [List.nodup_cons, List.mem_cons, List.not_mem_nil, not_or, or_false] at hd
  unfold State.call callOf regV0 regA0
  refine ⟨?_, ?_, ?_, ?_, ?_⟩ <;> intro h <;> rw [h] <;> simp_all [eq_comm]

/-- No instruction is refused. -/
theorem exec_ne_refused (i : Instr) (s : State) (r : Refusal) : exec i s ≠ .refused r := by
  have hl : ∀ rt (x : Except Fault Word), loadedIf rt x s ≠ .refused r := by
    intro rt x; cases x <;> exact nofun
  have hs : ∀ (x : Except Fault Memory), storedIf x s ≠ .refused r := by
    intro x; cases x <;> exact nofun
  have hu : ∀ j (x : State), unalignedOnly j (complete x) s ≠ .refused r := by
    intro j x; unfold unalignedOnly; split <;> exact nofun
  have ht : ∀ n (x : State), transferCheck s (completeTo n x) ≠ .refused r := by
    intro n x; unfold transferCheck; split <;> exact nofun
  have hb : ∀ c imm (x : State), transferCheck s (branchIf c imm s x) ≠ .refused r := by
    intro c imm x; unfold transferCheck branchIf; split
    · exact nofun
    · split <;> exact nofun
  cases i
  case syscall =>
    intro h
    simp only [exec, execSyscall] at h
    split at h
    case h_6 =>
      unfold readPreimage at h
      split at h
      · cases h
      · dsimp only at h; split at h <;> cases h
    case h_8 =>
      unfold writePreimage at h
      dsimp only at h
      split at h <;> cases h
    all_goals cases h
  case div => intro h; simp only [exec, execDiv] at h; split at h <;> cases h
  case divu => intro h; simp only [exec, execDivu] at h; split at h <;> cases h
  all_goals first
    | (intro h; cases h) | exact hl _ _ | exact hs _ | exact hu _ _ | exact ht _ _ | exact hb _ _ _

/-- A step is refused exactly on a halted state. -/
theorem step_eq_refused {s : State} {r : Refusal} : step s = .refused r ↔ s.exited = true ∧ r = .halted := by
  cases he : s.exited with
  | true => rw [step_halted he]; simp [eq_comm]
  | false =>
    simp only [step, he, Bool.false_eq_true, if_false, false_and, iff_false]
    split
    · exact raise_ne_refused
    · split
      · exact raise_ne_refused
      · exact exec_ne_refused _ _ _

end Sys2Proof.Machine
end

