-- ==== Sys2Proof/Laws/Load.lean ====
section
/-! SUPPORT. What the load port hands over: the fields of a handed-over state, that an image loads into a canonical memory,
and that a load with aligned `PC` and `NextPC`, slot 0 zero and `exited` false is legal. -/

namespace Sys2Proof.Machine

namespace State

variable (cfg : Config) (o : Oracle) (m : Memory) (r : RegisterSet)

@[simp] theorem handOver_mem : (handOver cfg o m r).mem = m := rfl
@[simp] theorem handOver_regs : (handOver cfg o m r).regs = r.regs := rfl
@[simp] theorem handOver_hi : (handOver cfg o m r).hi = r.hi := rfl
@[simp] theorem handOver_lo : (handOver cfg o m r).lo = r.lo := rfl
@[simp] theorem handOver_pc : (handOver cfg o m r).pc = r.pc := rfl
@[simp] theorem handOver_nextPc : (handOver cfg o m r).nextPc = r.nextPc := rfl
@[simp] theorem handOver_stepCount : (handOver cfg o m r).stepCount = r.stepCount := rfl
@[simp] theorem handOver_exited : (handOver cfg o m r).exited = r.exited := rfl
@[simp] theorem handOver_exitCode : (handOver cfg o m r).exitCode = r.exitCode := rfl
@[simp] theorem handOver_heap : (handOver cfg o m r).heap = r.heap := rfl
@[simp] theorem handOver_pkey : (handOver cfg o m r).pkey = r.pkey := rfl
@[simp] theorem handOver_poff : (handOver cfg o m r).poff = r.poff := rfl
@[simp] theorem handOver_cfg : (handOver cfg o m r).cfg = cfg := rfl
@[simp] theorem handOver_oracle : (handOver cfg o m r).oracle = o := rfl
@[simp] theorem handOver_sink1 : (handOver cfg o m r).sink1 = [] := rfl
@[simp] theorem handOver_sink2 : (handOver cfg o m r).sink2 = [] := rfl

end State

/-- A legal loaded state has the invariant every step keeps. -/
theorem State.Legal.inv {s : State} (h : s.Legal) : Inv s := ⟨h.memCanonical, h.slotZero⟩

/-- An image loaded into a canonical memory leaves a canonical memory. -/
theorem wf_loadImage {image : List (Word × List Byte)} {m m' : Memory} (hm : Memory.wf m = true)
    (h : loadImage m image = some m') : Memory.wf m' = true := by
  induction image generalizing m with
  | nil => cases h; exact hm
  | cons e es ih =>
    unfold loadImage at h
    split at h
    · exact ih (Memory.wf_setRange hm ‹_›) h
    · exact nomatch h

/-- Everything a load can answer: the hand-over of the image's memory, which is canonical. -/
theorem load_eq_some {cfg : Config} {o : Oracle} {r : RegisterSet} {image : List (Word × List Byte)} {s : State}
    (h : State.load cfg o r image = some s) :
    ∃ m, loadImage [] image = some m ∧ Memory.wf m = true ∧ s = State.handOver cfg o m r := by
  obtain ⟨m, hm, rfl⟩ := Option.map_eq_some_iff.mp h
  exact ⟨m, hm, wf_loadImage rfl hm, rfl⟩

/-- R281 of a loaded state is R281's conditions on the register set. -/
theorem legal_of_load {cfg : Config} {o : Oracle} {r : RegisterSet} {image : List (Word × List Byte)} {s : State}
    (h : State.load cfg o r image = some s) (hpc : r.pc &&& 3#32 = 0#32) (hn : r.nextPc &&& 3#32 = 0#32)
    (h0 : r.regs[0] = 0#32) (he : r.exited = false) : s.Legal := by
  obtain ⟨m, -, hm, rfl⟩ := load_eq_some h
  exact ⟨hpc, hn, hm, h0, he⟩

end Sys2Proof.Machine
end

