-- ==== Sys2Proof/Laws/PerInstr.lean ====
section
/-! SUPPORT. Statements about every instruction as syntax, made constructor by constructor (LAWS.json). The family
`EncodingFitsTable`: the word of an instruction fits the row of the opcode table that bears its mnemonic. -/

namespace Sys2Proof.Laws

/-- The encoding of the instruction fits its row of spec/opcode_table.json. -/
def EncodingFitsTable.Statement (i : Instr) : Prop :=
  ∃ row ∈ opcodeTable, row.mnemonic = i.mnemonic ∧ row.fits (encode i) = true

/-- A row of the table fits a word that its mask takes to its pattern. -/
theorem fits_of_mask {row : OpcodeRow} {w : Word} (h : w &&& row.mask = row.pattern) : row.fits w = true := by
  simpa [OpcodeRow.fits] using h

namespace EncodingFitsTable

theorem sll (rd rt : Reg) (shamt : BitVec 5) : Statement (.sll rd rt shamt) :=
  ⟨⟨"sll", 0xFC00003F, 0x00000000, true⟩, by decide, rfl, fits_of_mask (rWord_selector _ _ _ _ _ _)⟩
theorem srl (rd rt : Reg) (shamt : BitVec 5) : Statement (.srl rd rt shamt) :=
  ⟨⟨"srl", 0xFC00003F, 0x00000002, true⟩, by decide, rfl, fits_of_mask (rWord_selector _ _ _ _ _ _)⟩
theorem sra (rd rt : Reg) (shamt : BitVec 5) : Statement (.sra rd rt shamt) :=
  ⟨⟨"sra", 0xFC00003F, 0x00000003, true⟩, by decide, rfl, fits_of_mask (rWord_selector _ _ _ _ _ _)⟩
theorem sllv (rd rt rs : Reg) : Statement (.sllv rd rt rs) :=
  ⟨⟨"sllv", 0xFC00003F, 0x00000004, true⟩, by decide, rfl, fits_of_mask (rWord_selector _ _ _ _ _ _)⟩
theorem srlv (rd rt rs : Reg) : Statement (.srlv rd rt rs) :=
  ⟨⟨"srlv", 0xFC00003F, 0x00000006, true⟩, by decide, rfl, fits_of_mask (rWord_selector _ _ _ _ _ _)⟩
theorem srav (rd rt rs : Reg) : Statement (.srav rd rt rs) :=
  ⟨⟨"srav", 0xFC00003F, 0x00000007, true⟩, by decide, rfl, fits_of_mask (rWord_selector _ _ _ _ _ _)⟩
theorem jr (rs : Reg) : Statement (.jr rs) :=
  ⟨⟨"jr", 0xFC00003F, 0x00000008, true⟩, by decide, rfl, fits_of_mask (rWord_selector _ _ _ _ _ _)⟩
theorem jalr (rd rs : Reg) : Statement (.jalr rd rs) :=
  ⟨⟨"jalr", 0xFC00003F, 0x00000009, true⟩, by decide, rfl, fits_of_mask (rWord_selector _ _ _ _ _ _)⟩
theorem syscall : Statement (.syscall) :=
  ⟨⟨"syscall", 0xFC00003F, 0x0000000C, true⟩, by decide, rfl, fits_of_mask (rWord_selector _ _ _ _ _ _)⟩
theorem mfhi (rd : Reg) : Statement (.mfhi rd) :=
  ⟨⟨"mfhi", 0xFC00003F, 0x00000010, true⟩, by decide, rfl, fits_of_mask (rWord_selector _ _ _ _ _ _)⟩
theorem mthi (rs : Reg) : Statement (.mthi rs) :=
  ⟨⟨"mthi", 0xFC00003F, 0x00000011, true⟩, by decide, rfl, fits_of_mask (rWord_selector _ _ _ _ _ _)⟩
theorem mflo (rd : Reg) : Statement (.mflo rd) :=
  ⟨⟨"mflo", 0xFC00003F, 0x00000012, true⟩, by decide, rfl, fits_of_mask (rWord_selector _ _ _ _ _ _)⟩
theorem mtlo (rs : Reg) : Statement (.mtlo rs) :=
  ⟨⟨"mtlo", 0xFC00003F, 0x00000013, true⟩, by decide, rfl, fits_of_mask (rWord_selector _ _ _ _ _ _)⟩
theorem mult (rs rt : Reg) : Statement (.mult rs rt) :=
  ⟨⟨"mult", 0xFC00003F, 0x00000018, true⟩, by decide, rfl, fits_of_mask (rWord_selector _ _ _ _ _ _)⟩
theorem multu (rs rt : Reg) : Statement (.multu rs rt) :=
  ⟨⟨"multu", 0xFC00003F, 0x00000019, true⟩, by decide, rfl, fits_of_mask (rWord_selector _ _ _ _ _ _)⟩
theorem div (rs rt : Reg) : Statement (.div rs rt) :=
  ⟨⟨"div", 0xFC00003F, 0x0000001A, true⟩, by decide, rfl, fits_of_mask (rWord_selector _ _ _ _ _ _)⟩
theorem divu (rs rt : Reg) : Statement (.divu rs rt) :=
  ⟨⟨"divu", 0xFC00003F, 0x0000001B, true⟩, by decide, rfl, fits_of_mask (rWord_selector _ _ _ _ _ _)⟩
theorem add (rd rs rt : Reg) : Statement (.add rd rs rt) :=
  ⟨⟨"add", 0xFC00003F, 0x00000020, true⟩, by decide, rfl, fits_of_mask (rWord_selector _ _ _ _ _ _)⟩
theorem addu (rd rs rt : Reg) : Statement (.addu rd rs rt) :=
  ⟨⟨"addu", 0xFC00003F, 0x00000021, true⟩, by decide, rfl, fits_of_mask (rWord_selector _ _ _ _ _ _)⟩
theorem sub (rd rs rt : Reg) : Statement (.sub rd rs rt) :=
  ⟨⟨"sub", 0xFC00003F, 0x00000022, true⟩, by decide, rfl, fits_of_mask (rWord_selector _ _ _ _ _ _)⟩
theorem subu (rd rs rt : Reg) : Statement (.subu rd rs rt) :=
  ⟨⟨"subu", 0xFC00003F, 0x00000023, true⟩, by decide, rfl, fits_of_mask (rWord_selector _ _ _ _ _ _)⟩
theorem and (rd rs rt : Reg) : Statement (.and rd rs rt) :=
  ⟨⟨"and", 0xFC00003F, 0x00000024, true⟩, by decide, rfl, fits_of_mask (rWord_selector _ _ _ _ _ _)⟩
theorem or (rd rs rt : Reg) : Statement (.or rd rs rt) :=
  ⟨⟨"or", 0xFC00003F, 0x00000025, true⟩, by decide, rfl, fits_of_mask (rWord_selector _ _ _ _ _ _)⟩
theorem xor (rd rs rt : Reg) : Statement (.xor rd rs rt) :=
  ⟨⟨"xor", 0xFC00003F, 0x00000026, true⟩, by decide, rfl, fits_of_mask (rWord_selector _ _ _ _ _ _)⟩
theorem nor (rd rs rt : Reg) : Statement (.nor rd rs rt) :=
  ⟨⟨"nor", 0xFC00003F, 0x00000027, true⟩, by decide, rfl, fits_of_mask (rWord_selector _ _ _ _ _ _)⟩
theorem slt (rd rs rt : Reg) : Statement (.slt rd rs rt) :=
  ⟨⟨"slt", 0xFC00003F, 0x0000002A, true⟩, by decide, rfl, fits_of_mask (rWord_selector _ _ _ _ _ _)⟩
theorem sltu (rd rs rt : Reg) : Statement (.sltu rd rs rt) :=
  ⟨⟨"sltu", 0xFC00003F, 0x0000002B, true⟩, by decide, rfl, fits_of_mask (rWord_selector _ _ _ _ _ _)⟩
theorem bltz (rs : Reg) (imm : BitVec 16) : Statement (.bltz rs imm) :=
  ⟨⟨"bltz", 0xFC1F0000, 0x04000000, true⟩, by decide, rfl, fits_of_mask (iWord_regimm_selector _ _ _ _)⟩
theorem bgez (rs : Reg) (imm : BitVec 16) : Statement (.bgez rs imm) :=
  ⟨⟨"bgez", 0xFC1F0000, 0x04010000, true⟩, by decide, rfl, fits_of_mask (iWord_regimm_selector _ _ _ _)⟩
theorem bltzal (rs : Reg) (imm : BitVec 16) : Statement (.bltzal rs imm) :=
  ⟨⟨"bltzal", 0xFC1F0000, 0x04100000, true⟩, by decide, rfl, fits_of_mask (iWord_regimm_selector _ _ _ _)⟩
theorem bgezal (rs : Reg) (imm : BitVec 16) : Statement (.bgezal rs imm) :=
  ⟨⟨"bgezal", 0xFC1F0000, 0x04110000, true⟩, by decide, rfl, fits_of_mask (iWord_regimm_selector _ _ _ _)⟩
theorem j (target : BitVec 26) : Statement (.j target) :=
  ⟨⟨"j", 0xFC000000, 0x08000000, true⟩, by decide, rfl, fits_of_mask (jWord_selector _ _)⟩
theorem jal (target : BitVec 26) : Statement (.jal target) :=
  ⟨⟨"jal", 0xFC000000, 0x0C000000, true⟩, by decide, rfl, fits_of_mask (jWord_selector _ _)⟩
theorem beq (rs rt : Reg) (imm : BitVec 16) : Statement (.beq rs rt imm) :=
  ⟨⟨"beq", 0xFC000000, 0x10000000, true⟩, by decide, rfl, fits_of_mask (iWord_selector _ _ _ _)⟩
theorem bne (rs rt : Reg) (imm : BitVec 16) : Statement (.bne rs rt imm) :=
  ⟨⟨"bne", 0xFC000000, 0x14000000, true⟩, by decide, rfl, fits_of_mask (iWord_selector _ _ _ _)⟩
theorem blez (rs : Reg) (imm : BitVec 16) : Statement (.blez rs imm) :=
  ⟨⟨"blez", 0xFC000000, 0x18000000, true⟩, by decide, rfl, fits_of_mask (iWord_selector _ _ _ _)⟩
theorem bgtz (rs : Reg) (imm : BitVec 16) : Statement (.bgtz rs imm) :=
  ⟨⟨"bgtz", 0xFC000000, 0x1C000000, true⟩, by decide, rfl, fits_of_mask (iWord_selector _ _ _ _)⟩
theorem addi (rt rs : Reg) (imm : BitVec 16) : Statement (.addi rt rs imm) :=
  ⟨⟨"addi", 0xFC000000, 0x20000000, true⟩, by decide, rfl, fits_of_mask (iWord_selector _ _ _ _)⟩
theorem addiu (rt rs : Reg) (imm : BitVec 16) : Statement (.addiu rt rs imm) :=
  ⟨⟨"addiu", 0xFC000000, 0x24000000, true⟩, by decide, rfl, fits_of_mask (iWord_selector _ _ _ _)⟩
theorem slti (rt rs : Reg) (imm : BitVec 16) : Statement (.slti rt rs imm) :=
  ⟨⟨"slti", 0xFC000000, 0x28000000, true⟩, by decide, rfl, fits_of_mask (iWord_selector _ _ _ _)⟩
theorem sltiu (rt rs : Reg) (imm : BitVec 16) : Statement (.sltiu rt rs imm) :=
  ⟨⟨"sltiu", 0xFC000000, 0x2C000000, true⟩, by decide, rfl, fits_of_mask (iWord_selector _ _ _ _)⟩
theorem andi (rt rs : Reg) (imm : BitVec 16) : Statement (.andi rt rs imm) :=
  ⟨⟨"andi", 0xFC000000, 0x30000000, true⟩, by decide, rfl, fits_of_mask (iWord_selector _ _ _ _)⟩
theorem ori (rt rs : Reg) (imm : BitVec 16) : Statement (.ori rt rs imm) :=
  ⟨⟨"ori", 0xFC000000, 0x34000000, true⟩, by decide, rfl, fits_of_mask (iWord_selector _ _ _ _)⟩
theorem xori (rt rs : Reg) (imm : BitVec 16) : Statement (.xori rt rs imm) :=
  ⟨⟨"xori", 0xFC000000, 0x38000000, true⟩, by decide, rfl, fits_of_mask (iWord_selector _ _ _ _)⟩
theorem lui (rt : Reg) (imm : BitVec 16) : Statement (.lui rt imm) :=
  ⟨⟨"lui", 0xFC000000, 0x3C000000, true⟩, by decide, rfl, fits_of_mask (iWord_selector _ _ _ _)⟩
theorem lb (rt : Reg) (imm : BitVec 16) (rs : Reg) : Statement (.lb rt imm rs) :=
  ⟨⟨"lb", 0xFC000000, 0x80000000, true⟩, by decide, rfl, fits_of_mask (iWord_selector _ _ _ _)⟩
theorem lh (rt : Reg) (imm : BitVec 16) (rs : Reg) : Statement (.lh rt imm rs) :=
  ⟨⟨"lh", 0xFC000000, 0x84000000, true⟩, by decide, rfl, fits_of_mask (iWord_selector _ _ _ _)⟩
theorem lwl (rt : Reg) (imm : BitVec 16) (rs : Reg) : Statement (.lwl rt imm rs) :=
  ⟨⟨"lwl", 0xFC000000, 0x88000000, true⟩, by decide, rfl, fits_of_mask (iWord_selector _ _ _ _)⟩
theorem lw (rt : Reg) (imm : BitVec 16) (rs : Reg) : Statement (.lw rt imm rs) :=
  ⟨⟨"lw", 0xFC000000, 0x8C000000, true⟩, by decide, rfl, fits_of_mask (iWord_selector _ _ _ _)⟩
theorem lbu (rt : Reg) (imm : BitVec 16) (rs : Reg) : Statement (.lbu rt imm rs) :=
  ⟨⟨"lbu", 0xFC000000, 0x90000000, true⟩, by decide, rfl, fits_of_mask (iWord_selector _ _ _ _)⟩
theorem lhu (rt : Reg) (imm : BitVec 16) (rs : Reg) : Statement (.lhu rt imm rs) :=
  ⟨⟨"lhu", 0xFC000000, 0x94000000, true⟩, by decide, rfl, fits_of_mask (iWord_selector _ _ _ _)⟩
theorem lwr (rt : Reg) (imm : BitVec 16) (rs : Reg) : Statement (.lwr rt imm rs) :=
  ⟨⟨"lwr", 0xFC000000, 0x98000000, true⟩, by decide, rfl, fits_of_mask (iWord_selector _ _ _ _)⟩
theorem sb (rt : Reg) (imm : BitVec 16) (rs : Reg) : Statement (.sb rt imm rs) :=
  ⟨⟨"sb", 0xFC000000, 0xA0000000, true⟩, by decide, rfl, fits_of_mask (iWord_selector _ _ _ _)⟩
theorem sh (rt : Reg) (imm : BitVec 16) (rs : Reg) : Statement (.sh rt imm rs) :=
  ⟨⟨"sh", 0xFC000000, 0xA4000000, true⟩, by decide, rfl, fits_of_mask (iWord_selector _ _ _ _)⟩
theorem swl (rt : Reg) (imm : BitVec 16) (rs : Reg) : Statement (.swl rt imm rs) :=
  ⟨⟨"swl", 0xFC000000, 0xA8000000, true⟩, by decide, rfl, fits_of_mask (iWord_selector _ _ _ _)⟩
theorem sw (rt : Reg) (imm : BitVec 16) (rs : Reg) : Statement (.sw rt imm rs) :=
  ⟨⟨"sw", 0xFC000000, 0xAC000000, true⟩, by decide, rfl, fits_of_mask (iWord_selector _ _ _ _)⟩
theorem swr (rt : Reg) (imm : BitVec 16) (rs : Reg) : Statement (.swr rt imm rs) :=
  ⟨⟨"swr", 0xFC000000, 0xB8000000, true⟩, by decide, rfl, fits_of_mask (iWord_selector _ _ _ _)⟩
theorem breakpoint (code : BitVec 20) : Statement (.breakpoint code) :=
  ⟨⟨"break", 0xFC00003F, 0x0000000D, false⟩, by decide, rfl, fits_of_mask (breakpoint_selector _)⟩
theorem cop0 (low : BitVec 26) : Statement (.cop0 low) :=
  ⟨⟨"cop0", 0xFC000000, 0x40000000, false⟩, by decide, rfl, fits_of_mask (jWord_selector _ _)⟩
theorem cop1 (low : BitVec 26) : Statement (.cop1 low) :=
  ⟨⟨"cop1", 0xFC000000, 0x44000000, false⟩, by decide, rfl, fits_of_mask (jWord_selector _ _)⟩
theorem cop2 (low : BitVec 26) : Statement (.cop2 low) :=
  ⟨⟨"cop2", 0xFC000000, 0x48000000, false⟩, by decide, rfl, fits_of_mask (jWord_selector _ _)⟩
theorem cop3 (low : BitVec 26) : Statement (.cop3 low) :=
  ⟨⟨"cop3", 0xFC000000, 0x4C000000, false⟩, by decide, rfl, fits_of_mask (jWord_selector _ _)⟩
theorem lwc0 (low : BitVec 26) : Statement (.lwc0 low) :=
  ⟨⟨"lwc0", 0xFC000000, 0xC0000000, false⟩, by decide, rfl, fits_of_mask (jWord_selector _ _)⟩
theorem lwc1 (low : BitVec 26) : Statement (.lwc1 low) :=
  ⟨⟨"lwc1", 0xFC000000, 0xC4000000, false⟩, by decide, rfl, fits_of_mask (jWord_selector _ _)⟩
theorem lwc2 (low : BitVec 26) : Statement (.lwc2 low) :=
  ⟨⟨"lwc2", 0xFC000000, 0xC8000000, false⟩, by decide, rfl, fits_of_mask (jWord_selector _ _)⟩
theorem lwc3 (low : BitVec 26) : Statement (.lwc3 low) :=
  ⟨⟨"lwc3", 0xFC000000, 0xCC000000, false⟩, by decide, rfl, fits_of_mask (jWord_selector _ _)⟩
theorem swc0 (low : BitVec 26) : Statement (.swc0 low) :=
  ⟨⟨"swc0", 0xFC000000, 0xE0000000, false⟩, by decide, rfl, fits_of_mask (jWord_selector _ _)⟩
theorem swc1 (low : BitVec 26) : Statement (.swc1 low) :=
  ⟨⟨"swc1", 0xFC000000, 0xE4000000, false⟩, by decide, rfl, fits_of_mask (jWord_selector _ _)⟩
theorem swc2 (low : BitVec 26) : Statement (.swc2 low) :=
  ⟨⟨"swc2", 0xFC000000, 0xE8000000, false⟩, by decide, rfl, fits_of_mask (jWord_selector _ _)⟩
theorem swc3 (low : BitVec 26) : Statement (.swc3 low) :=
  ⟨⟨"swc3", 0xFC000000, 0xEC000000, false⟩, by decide, rfl, fits_of_mask (jWord_selector _ _)⟩

end EncodingFitsTable

end Sys2Proof.Laws
end

