-- ==== Sys2Proof/Machine/Keccak.lean ====
section
/-! DEFINITION. Keccak-256, the default of the open hash parameter `H` (spec/00_scope.md R5; spec/95_test_vectors.md
section 2.9). No rule depends on it and the machine does not use it: `Config.hash` stays uninterpreted, and this instance
lets the tests compare the tree and the encoding with the spec's vectors. The algorithm is not in the spec: PRESUMED,
assumption 9. -/

namespace Sys2Proof.Machine.Keccak

/-- A lane of the 5 x 5 state. -/
abbrev Lane := BitVec 64

/-- Lane `x + 5y` of a state held as a list of 25 lanes. -/
def lane (a : List Lane) (i : Nat) : Lane := a.getD i 0

/-- The rotation of each lane by the step rho. -/
def rotations : List Nat :=
  [0, 1, 62, 28, 27, 36, 44, 6, 55, 20, 3, 10, 43, 25, 39, 41, 45, 15, 21, 8, 18, 2, 61, 56, 14]

/-- The 24 round constants of the step iota. -/
def roundConstants : List Lane :=
  [0x0000000000000001, 0x0000000000008082, 0x800000000000808A, 0x8000000080008000, 0x000000000000808B,
   0x0000000080000001, 0x8000000080008081, 0x8000000000008009, 0x000000000000008A, 0x0000000000000088,
   0x0000000080008009, 0x000000008000000A] ++
  [0x000000008000808B, 0x800000000000008B, 0x8000000000008089, 0x8000000000008003, 0x8000000000008002,
   0x8000000000000080, 0x000000000000800A, 0x800000008000000A, 0x8000000080008081, 0x8000000000008080,
   0x0000000080000001, 0x8000000080008008]

/-- The step theta. -/
def theta (a : List Lane) : List Lane :=
  let c := (List.range 5).map fun x => lane a x ^^^ lane a (x + 5) ^^^ lane a (x + 10) ^^^ lane a (x + 15) ^^^ lane a (x + 20)
  (List.range 25).map fun i => lane a i ^^^ lane c ((i + 4) % 5) ^^^ (lane c ((i + 1) % 5)).rotateLeft 1

/-- The steps rho and pi: lane `(y, 2x + 3y)` takes lane `(x, y)` rotated. -/
def rhoPi (a : List Lane) : List Lane :=
  (List.range 25).map fun i =>
    let x := i % 5
    let y := i / 5
    let src := (x + 3 * y) % 5 + 5 * x
    (lane a src).rotateLeft (rotations.getD src 0)

/-- The step chi. -/
def chi (a : List Lane) : List Lane :=
  (List.range 25).map fun i =>
    let row := 5 * (i / 5)
    lane a i ^^^ (~~~(lane a (row + (i + 1) % 5)) &&& lane a (row + (i + 2) % 5))

/-- The step iota. -/
def iota (a : List Lane) (k : Lane) : List Lane := (lane a 0 ^^^ k) :: a.drop 1

/-- The permutation: 24 rounds. -/
def permute (a : List Lane) : List Lane := roundConstants.foldl (fun a k => iota (chi (rhoPi (theta a))) k) a

/-- The rate in bytes. -/
def rate : Nat := 136

/-- Lane `i` of a byte string, little-endian. -/
def laneOf (b : List Byte) (i : Nat) : Lane :=
  (List.range 8).foldr (fun j v => (v <<< 8) ||| (b.getD (8 * i + j) 0).setWidth 64) 0

/-- The last block, padded as original Keccak pads: `01 00 .. 00 80`. -/
def pad (b : List Byte) : List Byte :=
  if b.length + 1 = rate then b ++ [0x81] else b ++ [0x01] ++ List.replicate (rate - b.length - 2) 0 ++ [0x80]

/-- One block absorbed. -/
def absorb (a : List Lane) (block : List Byte) : List Lane :=
  permute ((List.range 25).map fun i => if i < 17 then lane a i ^^^ laneOf block i else lane a i)

/-- The state after a message whose length leaves `blocks` full blocks. -/
def absorbAll : Nat → List Lane → List Byte → List Lane
  | 0, a, b => absorb a (pad b)
  | blocks + 1, a, b => absorbAll blocks (absorb a (b.take rate)) (b.drop rate)

/-- Keccak-256. -/
def hash (b : List Byte) : Hash :=
  let a := absorbAll (b.length / rate) (List.replicate 25 0) b
  Vector.ofFn fun i => ((lane a (i.val / 8)) >>> (8 * (i.val % 8))).setWidth 8

end Sys2Proof.Machine.Keccak
end

