-- ==== Sys2Proof/Tests/Slice0.lean ====
section
/-! SUPPORT. The model's own tests and, for every statement of Certificates/Slice0/Obligations.lean with hypotheses,
concrete inputs that meet them (`witness_…`). Expected values are those of spec/95_test_vectors.md (the row is named
in each docstring) or of the rule named there; the words of the decode tests are written out from the encodings of
spec/30_encoding.md R76 to R78. -/

namespace Sys2Proof.Tests

open Sys2Proof Sys2Proof.Machine

/-! ### Helpers -/

/-- The pre-state of spec/95_test_vectors.md: the default loaded state, a word at `PC`, some registers. -/
def pre (word : Word) (regs : List (Reg × Word)) : State :=
  regs.foldl (fun s p => s.setReg p.1 p.2) (State.reset.withFetchWord 32 word.toNat)

/-- A state with one more word of memory. -/
def State.withWord (s : State) (a v : Word) : State := s.setMem (s.mem.setWordAt a v)

/-- What a function reads of the state after one step, if the step completes. -/
def after {α : Type} (s : State) (f : State → α) : Option α :=
  match step s with
  | .next t => some (f t)
  | .fault _ => none
  | .refused _ => none

/-- The error of one step, if it fails. -/
def failure (s : State) : Option Fault :=
  match step s with
  | .next _ => none
  | .fault e => some e
  | .refused _ => none

/-- `PC` and `NextPC`. -/
def pcs (s : State) : Word × Word := (s.pc, s.nextPc)

/-- A word of memory. -/
def wordOfState (a : Word) (s : State) : Word := s.mem.wordAt a

/-! ### Well-formed instructions: each check refuses an ill-formed term (R80) -/

theorem test_wellFormed_refuses_rejected_rows :
    ([.breakpoint 0, .cop0 0, .cop1 0, .cop2 0, .cop3 0, .lwc0 0, .lwc1 0, .lwc2 0, .lwc3 0,
      .swc0 0, .swc1 0, .swc2 0, .swc3 0] : List Instr).all (fun i => !i.wellFormed Config.default) = true := by decide

theorem test_wellFormed_refuses_unaligned_ops_when_off :
    ([.lwl 2 0 1, .lwr 2 0 1, .swl 2 0 1, .swr 2 0 1] : List Instr).all (fun i =>
      !i.wellFormed { Config.default with unalignedWordOps := false } && i.wellFormed Config.default) = true := by decide

theorem test_wellFormed_accepts_lw_when_unaligned_ops_off :
    Instr.wellFormed { Config.default with unalignedWordOps := false } (.lw 2 0 1) = true := by decide

/-! ### Decoding: every constructor, by a word written out from R76 to R78 (fields of R71, R72) -/

theorem test_decode_shifts :
    decodeTableWord 32 0b000000_00000_00010_00011_00100_000000 = some (.sll 3 2 4) ∧
    decodeTableWord 32 0b000000_00000_00010_00011_00100_000010 = some (.srl 3 2 4) ∧
    decodeTableWord 32 0b000000_00000_00010_00011_00100_000011 = some (.sra 3 2 4) ∧
    decodeTableWord 32 0b000000_00001_00010_00011_00000_000100 = some (.sllv 3 2 1) ∧
    decodeTableWord 32 0b000000_00001_00010_00011_00000_000110 = some (.srlv 3 2 1) ∧
    decodeTableWord 32 0b000000_00001_00010_00011_00000_000111 = some (.srav 3 2 1) := by decide

theorem test_decode_register_jumps_and_syscall :
    decodeTableWord 32 0b000000_11111_00000_00000_00000_001000 = some (.jr 31) ∧
    decodeTableWord 32 0b000000_11001_00000_11111_00000_001001 = some (.jalr 31 25) ∧
    decodeTableWord 32 0b000000_00000_00000_00000_00000_001100 = some .syscall := by decide

theorem test_decode_muldiv :
    decodeTableWord 32 0b000000_00000_00000_00011_00000_010000 = some (.mfhi 3) ∧
    decodeTableWord 32 0b000000_00001_00000_00000_00000_010001 = some (.mthi 1) ∧
    decodeTableWord 32 0b000000_00000_00000_00011_00000_010010 = some (.mflo 3) ∧
    decodeTableWord 32 0b000000_00001_00000_00000_00000_010011 = some (.mtlo 1) ∧
    decodeTableWord 32 0b000000_00001_00010_00000_00000_011000 = some (.mult 1 2) ∧
    decodeTableWord 32 0b000000_00001_00010_00000_00000_011001 = some (.multu 1 2) ∧
    decodeTableWord 32 0b000000_00001_00010_00000_00000_011010 = some (.div 1 2) ∧
    decodeTableWord 32 0b000000_00001_00010_00000_00000_011011 = some (.divu 1 2) := by decide

theorem test_decode_register_arithmetic :
    decodeTableWord 32 0b000000_00001_00010_00011_00000_100000 = some (.add 3 1 2) ∧
    decodeTableWord 32 0b000000_00001_00010_00011_00000_100001 = some (.addu 3 1 2) ∧
    decodeTableWord 32 0b000000_00001_00010_00011_00000_100010 = some (.sub 3 1 2) ∧
    decodeTableWord 32 0b000000_00001_00010_00011_00000_100011 = some (.subu 3 1 2) ∧
    decodeTableWord 32 0b000000_00001_00010_00011_00000_100100 = some (.and 3 1 2) ∧
    decodeTableWord 32 0b000000_00001_00010_00011_00000_100101 = some (.or 3 1 2) ∧
    decodeTableWord 32 0b000000_00001_00010_00011_00000_100110 = some (.xor 3 1 2) ∧
    decodeTableWord 32 0b000000_00001_00010_00011_00000_100111 = some (.nor 3 1 2) ∧
    decodeTableWord 32 0b000000_00001_00010_00011_00000_101010 = some (.slt 3 1 2) ∧
    decodeTableWord 32 0b000000_00001_00010_00011_00000_101011 = some (.sltu 3 1 2) := by decide

theorem test_decode_branches_and_jumps :
    decodeTableWord 32 0b000001_00001_00000_1000000000000001 = some (.bltz 1 0x8001) ∧
    decodeTableWord 32 0b000001_00001_00001_1000000000000001 = some (.bgez 1 0x8001) ∧
    decodeTableWord 32 0b000001_00001_10000_1000000000000001 = some (.bltzal 1 0x8001) ∧
    decodeTableWord 32 0b000001_00001_10001_1000000000000001 = some (.bgezal 1 0x8001) ∧
    decodeTableWord 32 0b000010_10000000000000000000000001 = some (.j 0x2000001) ∧
    decodeTableWord 32 0b000011_10000000000000000000000001 = some (.jal 0x2000001) ∧
    decodeTableWord 32 0b000100_00001_00010_1000000000000001 = some (.beq 1 2 0x8001) ∧
    decodeTableWord 32 0b000101_00001_00010_1000000000000001 = some (.bne 1 2 0x8001) ∧
    decodeTableWord 32 0b000110_00001_00000_1000000000000001 = some (.blez 1 0x8001) ∧
    decodeTableWord 32 0b000111_00001_00000_1000000000000001 = some (.bgtz 1 0x8001) := by decide

theorem test_decode_immediate_arithmetic :
    decodeTableWord 32 0b001000_00001_00010_1000000000000001 = some (.addi 2 1 0x8001) ∧
    decodeTableWord 32 0b001001_00001_00010_1000000000000001 = some (.addiu 2 1 0x8001) ∧
    decodeTableWord 32 0b001010_00001_00010_1000000000000001 = some (.slti 2 1 0x8001) ∧
    decodeTableWord 32 0b001011_00001_00010_1000000000000001 = some (.sltiu 2 1 0x8001) ∧
    decodeTableWord 32 0b001100_00001_00010_1000000000000001 = some (.andi 2 1 0x8001) ∧
    decodeTableWord 32 0b001101_00001_00010_1000000000000001 = some (.ori 2 1 0x8001) ∧
    decodeTableWord 32 0b001110_00001_00010_1000000000000001 = some (.xori 2 1 0x8001) ∧
    decodeTableWord 32 0b001111_00000_00010_1000000000000001 = some (.lui 2 0x8001) := by decide

theorem test_decode_loads_and_stores :
    decodeTableWord 32 0b100000_00001_00010_1000000000000001 = some (.lb 2 0x8001 1) ∧
    decodeTableWord 32 0b100001_00001_00010_1000000000000001 = some (.lh 2 0x8001 1) ∧
    decodeTableWord 32 0b100010_00001_00010_1000000000000001 = some (.lwl 2 0x8001 1) ∧
    decodeTableWord 32 0b100011_00001_00010_1000000000000001 = some (.lw 2 0x8001 1) ∧
    decodeTableWord 32 0b100100_00001_00010_1000000000000001 = some (.lbu 2 0x8001 1) ∧
    decodeTableWord 32 0b100101_00001_00010_1000000000000001 = some (.lhu 2 0x8001 1) ∧
    decodeTableWord 32 0b100110_00001_00010_1000000000000001 = some (.lwr 2 0x8001 1) ∧
    decodeTableWord 32 0b101000_00001_00010_1000000000000001 = some (.sb 2 0x8001 1) ∧
    decodeTableWord 32 0b101001_00001_00010_1000000000000001 = some (.sh 2 0x8001 1) ∧
    decodeTableWord 32 0b101010_00001_00010_1000000000000001 = some (.swl 2 0x8001 1) ∧
    decodeTableWord 32 0b101011_00001_00010_1000000000000001 = some (.sw 2 0x8001 1) ∧
    decodeTableWord 32 0b101110_00001_00010_1000000000000001 = some (.swr 2 0x8001 1) := by decide

theorem test_decode_rejected_rows :
    decodeTableWord 32 0b000000_10000000000000000001_001101 = some (.breakpoint 0x80001) ∧
    decodeTableWord 32 0b010000_10000000000000000000000001 = some (.cop0 0x2000001) ∧
    decodeTableWord 32 0b010001_10000000000000000000000001 = some (.cop1 0x2000001) ∧
    decodeTableWord 32 0b010010_10000000000000000000000001 = some (.cop2 0x2000001) ∧
    decodeTableWord 32 0b010011_10000000000000000000000001 = some (.cop3 0x2000001) ∧
    decodeTableWord 32 0b110000_10000000000000000000000001 = some (.lwc0 0x2000001) ∧
    decodeTableWord 32 0b110001_10000000000000000000000001 = some (.lwc1 0x2000001) ∧
    decodeTableWord 32 0b110010_10000000000000000000000001 = some (.lwc2 0x2000001) ∧
    decodeTableWord 32 0b110011_10000000000000000000000001 = some (.lwc3 0x2000001) ∧
    decodeTableWord 32 0b111000_10000000000000000000000001 = some (.swc0 0x2000001) ∧
    decodeTableWord 32 0b111001_10000000000000000000000001 = some (.swc1 0x2000001) ∧
    decodeTableWord 32 0b111010_10000000000000000000000001 = some (.swc2 0x2000001) ∧
    decodeTableWord 32 0b111011_10000000000000000000000001 = some (.swc3 0x2000001) := by decide

/-- Empty cells of R76, R77, R78, among them the neighbours of filled ones, and fewer than four bytes. -/
theorem test_decode_refuses_empty_cells :
    decodeTableWord 32 0b010100_00001_00010_0000000000000001 = none ∧
    decodeTableWord 32 0b100111_00001_00010_0000000000000001 = none ∧
    decodeTableWord 32 0b101111_00001_00010_0000000000000001 = none ∧
    decodeTableWord 32 0b111111_11111_11111_1111111111111111 = none ∧
    decodeTableWord 32 0b000000_00001_00010_00011_00000_000001 = none ∧
    decodeTableWord 32 0b000000_00001_00010_00011_00000_001111 = none ∧
    decodeTableWord 32 0b000000_00001_00010_00011_00000_111111 = none ∧
    decodeTableWord 32 0b000001_00001_00010_0000000000000011 = none ∧
    decodeTableWord 32 0b000001_00001_10010_0000000000000011 = none ∧
    (decodeBytes [0, 0, 0]).toOption = none := by decide

/-- No word belongs to two rows: two rows differ on a bit both select. -/
theorem test_opcodeTable_rows_disjoint :
    opcodeTable.length = 70 ∧ opcodeTable.Pairwise fun r q =>
      r.pattern &&& (r.mask &&& q.mask) ≠ q.pattern &&& (r.mask &&& q.mask) := by decide +kernel

/-! ### The frame of a step -/

/-- F1. -/
theorem test_step_frame :
    after (pre 0x00000000 []) (fun t => (pcs t, t.stepCount)) = some ((0x00400004, 0x00400008), 1) := by decide

/-- F2: in a taken delay slot. -/
theorem test_step_in_slot :
    after { pre 0x00000000 [] with nextPc := 0x00400100 } pcs = some (0x00400100, 0x00400104) := by decide

/-- F5, F7: halted, whatever `PC` is, and no error; R91: no successor. -/
theorem test_step_halted :
    step { pre 0x00000000 [] with exited := true, stepCount := 9 } = .refused .halted ∧
    step { pre 0x00000000 [] with exited := true, pc := 0x00400002 } = .refused .halted := ⟨rfl, rfl⟩

/-- F6. -/
theorem test_step_misaligned_pc :
    failure { pre 0x00000000 [] with pc := 0x00400002, nextPc := 0x00400006 } =
      some (.misalignedAccess 0x00400002) := by decide

/-- F9, F10: the counter wraps; register 0 discards a write. -/
theorem test_step_counter_wraps_and_zero_register :
    after { pre 0x00220021 [(1, 5), (2, 6)] with stepCount := 0xFFFFFFFFFFFFFFFF } (fun t => (t.stepCount, t.reg 0)) =
      some (0, 0) := by decide

/-- B32, and the fetch of a rejected row (R80). -/
theorem test_step_illegal :
    failure (pre 0x04220003 []) = some (.illegalInstruction 0x04220003) ∧
    failure (pre 0x0000000D []) = some (.illegalInstruction 0x0000000D) ∧
    failure (pre 0x42000010 []) = some (.illegalInstruction 0x42000010) := by decide

/-! ### Arithmetic and logic -/

/-- A1. -/
theorem test_add : after (pre 0x00221820 [(1, 0x7FFFFFFF), (2, 1)]) (·.reg 3) = some 0x80000000 := by decide
/-- A2. -/
theorem test_addu : after (pre 0x00221821 [(1, 0xFFFFFFFF), (2, 1), (3, 9)]) (·.reg 3) = some 0 := by decide
/-- A13: a source that is the destination. -/
theorem test_addu_same : after (pre 0x00210821 [(1, 0x80000001)]) (·.reg 1) = some 2 := by decide
/-- A3. -/
theorem test_sub : after (pre 0x00221822 [(1, 0x80000000), (2, 1)]) (·.reg 3) = some 0x7FFFFFFF := by decide
/-- A4. -/
theorem test_subu : after (pre 0x00221823 [(1, 0), (2, 1)]) (·.reg 3) = some 0xFFFFFFFF := by decide
/-- A5. -/
theorem test_and : after (pre 0x00221824 [(1, 0xFF00FF00), (2, 0x0FF00FF0)]) (·.reg 3) = some 0x0F000F00 := by decide
/-- A6. -/
theorem test_or : after (pre 0x00221825 [(1, 0xFF00FF00), (2, 0x0FF00FF0)]) (·.reg 3) = some 0xFFF0FFF0 := by decide
/-- A7. -/
theorem test_xor : after (pre 0x00221826 [(1, 0xFF00FF00), (2, 0x0FF00FF0)]) (·.reg 3) = some 0xF0F0F0F0 := by decide
/-- A8. -/
theorem test_nor : after (pre 0x00221827 [(1, 0xFF00FF00), (2, 0x0FF00FF0)]) (·.reg 3) = some 0x000F000F := by decide
/-- A11. -/
theorem test_slt : after (pre 0x0022182A [(1, 0x80000000), (2, 0x7FFFFFFF)]) (·.reg 3) = some 1 := by decide
/-- A12. -/
theorem test_sltu : after (pre 0x0022182B [(1, 0x80000000), (2, 0x7FFFFFFF), (3, 9)]) (·.reg 3) = some 0 := by decide
/-- A14. -/
theorem test_addi : after (pre 0x2022FFFF [(1, 0x80000000)]) (·.reg 2) = some 0x7FFFFFFF := by decide
/-- A15. -/
theorem test_addiu : after (pre 0x2422FFFF [(1, 0)]) (·.reg 2) = some 0xFFFFFFFF := by decide
/-- A16. -/
theorem test_slti : after (pre 0x2822FFFF [(1, 0xFFFFFFFE)]) (·.reg 2) = some 1 := by decide
/-- A17. -/
theorem test_slti_false : after (pre 0x2822FFFF [(1, 0), (2, 9)]) (·.reg 2) = some 0 := by decide
/-- A18: the sign-extended immediate is compared unsigned. -/
theorem test_sltiu : after (pre 0x2C22FFFF [(1, 0xFFFFFFFE)]) (·.reg 2) = some 1 := by decide
/-- A19. -/
theorem test_sltiu_false : after (pre 0x2C22FFFF [(1, 0xFFFFFFFF), (2, 9)]) (·.reg 2) = some 0 := by decide
/-- A21. -/
theorem test_andi : after (pre 0x3022FF00 [(1, 0xFFFFFFFF)]) (·.reg 2) = some 0x0000FF00 := by decide
/-- A22. -/
theorem test_ori : after (pre 0x3422FF00 [(1, 0x12340000)]) (·.reg 2) = some 0x1234FF00 := by decide
/-- A23. -/
theorem test_xori : after (pre 0x3822FFFF [(1, 0xFFFFFFFF)]) (·.reg 2) = some 0xFFFF0000 := by decide
/-- A26: the unused `rs` field is ignored. -/
theorem test_lui : after (pre 0x3CE21234 [(7, 0xFFFFFFFF)]) (·.reg 2) = some 0x12340000 := by decide

/-! ### Shifts -/

/-- H1. -/
theorem test_sll : after (pre 0x00021900 [(2, 0x80000010)]) (·.reg 3) = some 0x00000100 := by decide
/-- H2. -/
theorem test_srl : after (pre 0x00021902 [(2, 0x80000010)]) (·.reg 3) = some 0x08000001 := by decide
/-- H5: amount 0. -/
theorem test_srl_zero : after (pre 0x00021802 [(2, 0x80000010)]) (·.reg 3) = some 0x80000010 := by decide
/-- H3. -/
theorem test_sra : after (pre 0x00021903 [(2, 0x80000010)]) (·.reg 3) = some 0xF8000001 := by decide
/-- H4: amount 31. -/
theorem test_sra_31 : after (pre 0x00021FC3 [(2, 0x80000000)]) (·.reg 3) = some 0xFFFFFFFF := by decide
/-- H7: the amount is the low five bits. -/
theorem test_sllv : after (pre 0x00221804 [(1, 0x24), (2, 0x80000010)]) (·.reg 3) = some 0x00000100 := by decide
/-- H8. -/
theorem test_srlv : after (pre 0x00221806 [(1, 0xFFFFFFFF), (2, 0x80000000)]) (·.reg 3) = some 1 := by decide
/-- H9. -/
theorem test_srav_zero : after (pre 0x00221807 [(1, 0x20), (2, 0x80000010)]) (·.reg 3) = some 0x80000010 := by decide
/-- H10. -/
theorem test_srav : after (pre 0x00221807 [(1, 8), (2, 0xFF000000)]) (·.reg 3) = some 0xFFFF0000 := by decide

/-! ### Loads and stores -/

/-- The memory of rows L1 to L17. -/
def preLoad (word : Word) (regs : List (Reg × Word)) : State := State.withWord (pre word regs) 0x1000 0x11F28344

/-- The state of rows T1 to T10 and of the partial-word table. -/
def preStore (word : Word) : State :=
  State.withWord (pre word [(1, 0x1000), (2, 0xAABBCCDD)]) 0x1000 0x11223344

/-- L1. -/
theorem test_lb : after (preLoad 0x80220001 [(1, 0x1000)]) (·.reg 2) = some 0xFFFFFFF2 := by decide
/-- L4. -/
theorem test_lb_last : after (preLoad 0x80220003 [(1, 0x1000)]) (·.reg 2) = some 0x44 := by decide
/-- L2. -/
theorem test_lbu : after (preLoad 0x90220001 [(1, 0x1000)]) (·.reg 2) = some 0xF2 := by decide
/-- L5. -/
theorem test_lh : after (preLoad 0x84220002 [(1, 0x1000)]) (·.reg 2) = some 0xFFFF8344 := by decide
/-- L8. -/
theorem test_lh_misaligned :
    failure (preLoad 0x84220001 [(1, 0x1000)]) = some (.misalignedAccess 0x00001001) := by decide
/-- L6. -/
theorem test_lhu : after (preLoad 0x94220002 [(1, 0x1000)]) (·.reg 2) = some 0x8344 := by decide
/-- L17: the base is the destination; L15's wrap is in `witness_LoadWordOrFails`. -/
theorem test_lw : after (preLoad 0x8C420000 [(2, 0x1000)]) (·.reg 2) = some 0x11F28344 := by decide
/-- L14: checked even for register 0. -/
theorem test_lw_misaligned :
    failure (preLoad 0x8C200002 [(1, 0x1000)]) = some (.misalignedAccess 0x00001002) := by decide
/-- T1. -/
theorem test_sb : after (preStore 0xA0220001) (wordOfState 0x1000) = some 0x11DD3344 := by decide
/-- T4. -/
theorem test_sh : after (preStore 0xA4220002) (wordOfState 0x1000) = some 0x1122CCDD := by decide
/-- T6. -/
theorem test_sh_misaligned : failure (preStore 0xA4220001) = some (.misalignedAccess 0x00001001) := by decide
/-- T7. -/
theorem test_sw : after (preStore 0xAC220000) (wordOfState 0x1000) = some 0xAABBCCDD := by decide
/-- T9: storing 0 leaves the word as if never written. -/
theorem test_sw_zero : after (preStore 0xAC200000) (·.mem) = some (pre 0xAC200000 []).mem := by decide
/-- `lwl` at offset 1. -/
theorem test_lwl : after (preStore 0x88220001) (·.reg 2) = some 0x223344DD := by decide
/-- `lwr` at offset 1. -/
theorem test_lwr : after (preStore 0x98220001) (·.reg 2) = some 0xAABB1122 := by decide
/-- `swl` at offset 1. -/
theorem test_swl : after (preStore 0xA8220001) (wordOfState 0x1000) = some 0x11AABBCC := by decide
/-- `swr` at offset 1. -/
theorem test_swr : after (preStore 0xB8220001) (wordOfState 0x1000) = some 0xCCDD3344 := by decide
/-- With `UNALIGNED_WORD_OPS` false. -/
theorem test_lwl_off :
    failure { preStore 0x88220001 with cfg := { Config.default with unalignedWordOps := false } } =
      some (.illegalInstruction 0x88220001) := by decide

/-! ### Branches and jumps -/

/-- B1. -/
theorem test_j : after (pre 0x08100008 []) pcs = some (0x00400004, 0x00400020) := by decide
/-- B3: the region is the delay slot's. -/
theorem test_j_region :
    after (State.withWord { pre 0 [] with pc := 0x0FFFFFFC, nextPc := 0x10000000 } 0x0FFFFFFC 0x08100008) pcs =
      some (0x10000000, 0x10400020) := by decide
/-- B4. -/
theorem test_jal : after (pre 0x0C100008 []) (fun t => (t.reg 31, t.nextPc)) = some (0x00400008, 0x00400020) := by decide
/-- B6: a misaligned target is staged. -/
theorem test_jr : after (pre 0x03E00008 [(31, 0x00400009)]) (·.nextPc) = some 0x00400009 := by decide
/-- B35. -/
theorem test_jr_in_slot :
    failure { pre 0x03E00008 [] with nextPc := 0x00400100 } = some (.branchInDelaySlot 0x00400000) := by decide
/-- B8: the old value is the target. -/
theorem test_jalr_same :
    after (pre 0x0320C809 [(25, 0x00401000)]) (fun t => (t.reg 25, t.nextPc)) = some (0x00400008, 0x00401000) := by decide
/-- B10. -/
theorem test_beq : after (pre 0x10220003 [(1, 5), (2, 5)]) (·.nextPc) = some 0x00400010 := by decide
/-- B11. -/
theorem test_beq_not : after (pre 0x10220003 [(1, 5), (2, 6)]) (·.nextPc) = some 0x00400008 := by decide
/-- B12. -/
theorem test_bne : after (pre 0x1422FFFE [(1, 5), (2, 6)]) (·.nextPc) = some 0x003FFFFC := by decide
/-- B18. -/
theorem test_blez : after (pre 0x18200003 [(1, 0x80000000)]) (·.nextPc) = some 0x00400010 := by decide
/-- B19. -/
theorem test_blez_not : after (pre 0x18200003 [(1, 1)]) (·.nextPc) = some 0x00400008 := by decide
/-- B21. -/
theorem test_bgtz : after (pre 0x1C200003 [(1, 0x7FFFFFFF)]) (·.nextPc) = some 0x00400010 := by decide
/-- B20. -/
theorem test_bgtz_not : after (pre 0x1C200003 [(1, 0)]) (·.nextPc) = some 0x00400008 := by decide
/-- B23. -/
theorem test_bltz : after (pre 0x04200003 [(1, 0xFFFFFFFF)]) (·.nextPc) = some 0x00400010 := by decide
/-- B24. -/
theorem test_bltz_not : after (pre 0x04200003 [(1, 0)]) (·.nextPc) = some 0x00400008 := by decide
/-- B25. -/
theorem test_bgez : after (pre 0x04210003 [(1, 0)]) (·.nextPc) = some 0x00400010 := by decide
/-- B26. -/
theorem test_bgez_not : after (pre 0x04210003 [(1, 0x80000000)]) (·.nextPc) = some 0x00400008 := by decide
/-- B27: the link is written although the branch is not taken. -/
theorem test_bltzal :
    after (pre 0x04300003 [(1, 5)]) (fun t => (t.reg 31, t.nextPc)) = some (0x00400008, 0x00400008) := by decide
/-- B30: the old `x[31]` is tested. -/
theorem test_bgezal :
    after (pre 0x07F10003 [(31, 0x80000000)]) (fun t => (t.reg 31, t.nextPc)) = some (0x00400008, 0x00400008) := by decide
/-- B39: under the policy `sequential`. -/
theorem test_jal_sequential :
    after { pre 0x0C100008 [] with nextPc := 0x00400100, cfg := { Config.default with delaySlotBranch := .sequential } }
      (fun t => (t.reg 31, pcs t)) = some (0x00400008, 0x00400100, 0x00400020) := by decide

/-! ### Multiply and divide -/

/-- `hi` and `lo`. -/
def hiLo (s : State) : Word × Word := (s.hi, s.lo)

/-- M4. -/
theorem test_mult : after (pre 0x00220018 [(1, 0x80000000), (2, 0x7FFFFFFF)]) hiLo = some (0xC0000000, 0x80000000) := by decide
/-- M2. -/
theorem test_multu : after (pre 0x00220019 [(1, 0xFFFFFFFF), (2, 0xFFFFFFFF)]) hiLo = some (0xFFFFFFFE, 1) := by decide
/-- M10: -7 by 2. -/
theorem test_div : after (pre 0x0022001A [(1, 0xFFFFFFF9), (2, 2)]) hiLo = some (0xFFFFFFFF, 0xFFFFFFFD) := by decide
/-- M13: the quotient wraps. -/
theorem test_div_wraps : after (pre 0x0022001A [(1, 0x80000000), (2, 0xFFFFFFFF)]) hiLo = some (0, 0x80000000) := by decide
/-- M16. -/
theorem test_divu : after (pre 0x0022001B [(1, 0xFFFFFFF9), (2, 2)]) hiLo = some (1, 0x7FFFFFFC) := by decide
/-- M19. -/
theorem test_divu_by_zero : failure (pre 0x0022001B [(1, 7)]) = some (.divideByZero 0x00400000) := by decide
/-- M20. -/
theorem test_mfhi :
    after { pre 0x00001810 [] with hi := 0x12345678, lo := 0x9ABCDEF0 } (·.reg 3) = some 0x12345678 := by decide
/-- M21. -/
theorem test_mflo :
    after { pre 0x00001812 [] with hi := 0x12345678, lo := 0x9ABCDEF0 } (·.reg 3) = some 0x9ABCDEF0 := by decide
/-- M22. -/
theorem test_mthi : after { pre 0x00200011 [(1, 0xCAFEBABE)] with hi := 1, lo := 2 } hiLo = some (0xCAFEBABE, 2) := by decide
/-- M23. -/
theorem test_mtlo : after { pre 0x00200013 [(1, 0xCAFEBABE)] with hi := 1, lo := 2 } hiLo = some (1, 0xCAFEBABE) := by decide

/-! ### System calls -/

/-- The key `K` of section 2.8. -/
def keyK : Key := Vector.ofFn fun i => BitVec.ofNat 8 (i.val + 1)

/-- The oracle of section 2.8. -/
def oracleK : Oracle :=
  [(keyK, [0x68, 0x65, 0x6C, 0x6C, 0x6F, 0x20, 0x77, 0x6F, 0x72, 0x6C, 0x64]), (Vector.replicate 32 0, [])]

/-- A `syscall` on the preimage descriptor. -/
def preKey (num buffer count poff : Word) : State :=
  State.withWord
    { pre 0x0000000C [(2, num), (4, 5), (5, buffer), (6, count), (7, 9)] with
        pkey := keyK, poff := poff, oracle := oracleK }
    buffer 0xFFFFFFFF

/-- Y1. -/
theorem test_exit :
    after (pre 0x0000000C [(2, 4001), (4, 0x1FF), (7, 9)]) (fun t => (t.exited, t.exitCode, t.reg 2, t.reg 7)) =
      some (true, 0xFF, 4001, 9) := by decide
/-- Y5. -/
theorem test_brk :
    after (pre 0x0000000C [(2, 4045), (4, 0x20001000), (7, 9)]) (fun t => (t.heap, t.reg 2, t.reg 7)) =
      some (0x20001000, 0x20001000, 0) := by decide
/-- Y8. -/
theorem test_mmap :
    after (pre 0x0000000C [(2, 4090), (4, 0x30000000), (5, 0x1234)]) (fun t => (t.heap, t.reg 2)) =
      some (0x20002000, 0x20000000) := by decide
/-- Y15, Y27: the code field is ignored. -/
theorem test_clone : after (pre 0x03FFFFCC [(2, 4120), (7, 9)]) (fun t => (t.reg 2, t.reg 7)) = some (1, 0) := by decide
/-- Y16. -/
theorem test_read_stdin :
    after (pre 0x0000000C [(2, 4003), (5, 0x1000), (6, 16), (7, 9)]) (fun t => (t.reg 2, t.reg 7)) = some (0, 0) := by decide
/-- Y20. -/
theorem test_write_stderr :
    after (State.withWord (pre 0x0000000C [(2, 4004), (4, 2), (5, 0x1001), (6, 2)]) 0x1000 0x68690A00)
      (fun t => (t.sink1, t.sink2, t.reg 2)) = some ([], [0x69, 0x0A], 2) := by decide
/-- PR3: the last bytes, zero-padded. -/
theorem test_read_preimage :
    after (preKey 4003 0x2008 4 8) (fun t => (wordOfState 0x2008 t, t.poff, t.reg 2, t.reg 7)) =
      some (0x726C6400, 11, 3, 0) := by decide +kernel
/-- PR11: only the bytes of the span are written. -/
theorem test_read_preimage_span :
    after (preKey 4003 0x2001 2 10) (fun t => (wordOfState 0x2000 t, t.poff, t.reg 2)) =
      some (0xFF6400FF, 11, 1) := by decide +kernel
/-- PR14: the oracle is asked although nothing could be delivered. -/
theorem test_read_preimage_miss :
    failure { preKey 4003 0x2000 0 0 with pkey := Vector.replicate 32 0xEE } =
      some (.oracleMiss (Vector.replicate 32 0xEE)) := by decide +kernel
/-- PW2. -/
theorem test_write_preimage :
    after (State.withWord (preKey 4004 0x3002 4 7) 0x3000 0xDEADBEEF)
      (fun t => (t.pkey.toList.take 2, t.pkey.toList.drop 29, t.poff, t.reg 2)) =
      some ([3, 4], [0x20, 0xBE, 0xEF], 0, 2) := by decide +kernel
/-- Y26: all 32 bits of the number are compared. -/
theorem test_unsupported_number :
    failure (pre 0x0000000C [(2, 0x00010FA1)]) = some (.unsupportedSyscall 0x00010FA1 none) := by decide
/-- Y22. -/
theorem test_unsupported_descriptor :
    failure (pre 0x0000000C [(2, 4004)]) = some (.unsupportedSyscall 0x00000FA4 (some 0)) := by decide

/-! ### The load port -/

/-- A program and a stack pointer, as R282 and R285 items 1 and 3 let a loader supply them. -/
def loadWithStack : Option State :=
  State.load Config.default []
    { RegisterSet.default Config.default with regs := (Vector.replicate 32 0).set 29 0x7FFF0000 }
    [(0x00400000, wordBytes 0x27BDFFF8)]

/-- R285: the loaded word runs first, on the loaded register. The word is `addiu $29, $29, -8` (R122). -/
theorem test_load_runs_on_loaded_registers :
    loadWithStack.bind (fun s => after s (·.reg 29)) = some 0x7FFEFFF8 := by decide

/-- `set_range` past the top of memory is refused (R46), and so is the load. -/
theorem test_load_refused :
    State.load Config.default [] (RegisterSet.default Config.default) [(0xFFFFFFFF, [1, 2])] = none := by decide

/-! ### The hash tree and the encoding, against the Keccak-256 values of section 2.9 -/

/-- The first eight bytes of a hash, as a number. -/
def head8 (h : Hash) : Nat := (h.toList.take 8).foldl (fun n b => n * 256 + b.toNat) 0

/-- The check value of `H("abc")`. -/
theorem test_keccak : head8 (Keccak.hash [0x61, 0x62, 0x63]) = 0x4e03657aea45a94f := by decide +kernel
/-- `Z_1`: the leaf level hashes the chunk first. -/
theorem test_zeroHash : head8 (zeroHash Keccak.hash 1) = 0x633dc4d7da725666 := by decide +kernel
/-- M2, M5: the leaves of the first and of the last chunk. -/
theorem test_leaf_hashes :
    head8 (Keccak.hash (chunk (Memory.setWordAt [] 0 1) 0)) = 0xfb5baaecab62c516 ∧
    head8 (Keccak.hash (chunk (Memory.setWordAt [] 0xFFFFFFFC 1) 0x7FFFFFF)) = 0xb10e2d527612073b := by decide +kernel
/-- R30: the offsets of the table. -/
theorem test_encoding_offsets :
    let e := ({ pre 0 [(1, 0x11223344), (31, 0x55667788)] with
      exited := true, exitCode := 0x99, poff := 0xAABBCCDD }.header (Vector.replicate 32 0)).encode
    e.length = 226 ∧ (e.drop 32).take 4 = [0x00, 0x40, 0x00, 0x00] ∧ (e.drop 52).take 2 = [0x99, 1] ∧
      (e.drop 66).take 4 = [0x11, 0x22, 0x33, 0x44] ∧ (e.drop 186).take 4 = [0x55, 0x66, 0x77, 0x88] ∧
      e.drop 222 = [0xAA, 0xBB, 0xCC, 0xDD] := by decide +kernel

/-! ### Witnesses: concrete inputs that meet the hypotheses of each statement, clause by clause -/

/-- What a function reads of the state after an instruction, if the instruction completes. -/
def execAfter {α : Type} (i : Instr) (s : State) (f : State → α) : Option α :=
  match exec i s with
  | .next t => some (f t)
  | .fault _ => none
  | .refused _ => none

theorem next_of_after {α : Type} {s : State} {f : State → α} {v : α} (h : after s f = some v) :
    ∃ t, step s = .next t ∧ f t = v := by
  unfold after at h
  split at h
  · exact ⟨_, ‹_›, Option.some.inj h⟩
  all_goals exact nomatch h

theorem fault_of_failure {s : State} {e : Fault} (h : failure s = some e) : step s = .fault e := by
  unfold failure at h
  split at h
  · exact nomatch h
  · rw [← Option.some.inj h]; assumption
  · exact nomatch h

theorem next_of_execAfter {α : Type} {i : Instr} {s : State} {f : State → α} {v : α} (h : execAfter i s f = some v) :
    ∃ t, exec i s = .next t ∧ f t = v := by
  unfold execAfter at h
  split at h
  · exact ⟨_, ‹_›, Option.some.inj h⟩
  all_goals exact nomatch h

/-- The default configuration without the partial-word instructions. -/
def noPartial : Config := { Config.default with unalignedWordOps := false }

/-- A state whose instruction stands in the slot of a taken transfer. -/
def inSlot (word : Word) : State := { pre word [] with nextPc := 0x00400100 }

/-- As `inSlot`, under the policy `sequential`. -/
def inSlotSequential (word : Word) : State :=
  { inSlot word with cfg := { Config.default with delaySlotBranch := .sequential } }

theorem witness_DistinctCalls : DistinctCalls Config.default := by unfold DistinctCalls; decide

theorem witness_DecoderFollowsTheOpcodeTable :
    (⟨"add", 0xFC00003F, 0x00000020, true⟩ : OpcodeRow) ∈ opcodeTable ∧
    OpcodeRow.fits ⟨"add", 0xFC00003F, 0x00000020, true⟩ 0x00221FE0 = true ∧
    decodeWord 0x00221FE0 = .ok (.add 3 1 2) := ⟨by decide, by decide, rfl⟩

/-- The first words have every unused field zero, the second every unused field one. -/
theorem witness_UnusedFieldsAreIgnored :
    ([((0x00021900 : Word), (0x03E21900 : Word)), (0x00221820, 0x00221FE0), (0x03E00008, 0x03FFFFC8),
        (0x0320F809, 0x033FFFC9), (0x0000000C, 0x03FFFFCC), (0x00001810, 0x03FF1FD0), (0x00200011, 0x003FFFD1),
        (0x00220018, 0x0022FFD8)].all fun p =>
      opField p.2 == opField p.1 && opField p.1 == 0 && functField p.2 == functField p.1 && p.1 != p.2) = true ∧
    (functField 0x00021900 ∈ [0#6, 2#6, 3#6] ∧ rtField 0x03E21900 = rtField 0x00021900 ∧
      rdField 0x03E21900 = rdField 0x00021900 ∧ shamtField 0x03E21900 = shamtField 0x00021900) ∧
    (functField 0x00221820 = 32 ∧ rsField 0x00221FE0 = rsField 0x00221820 ∧
      rtField 0x00221FE0 = rtField 0x00221820 ∧ rdField 0x00221FE0 = rdField 0x00221820) ∧
    (functField 0x03E00008 = 8 ∧ rsField 0x03FFFFC8 = rsField 0x03E00008) ∧
    (functField 0x0320F809 = 9 ∧ rsField 0x033FFFC9 = rsField 0x0320F809 ∧ rdField 0x033FFFC9 = rdField 0x0320F809) ∧
    functField 0x0000000C = 12 ∧
    (functField 0x00001810 ∈ [16#6, 18#6] ∧ rdField 0x03FF1FD0 = rdField 0x00001810) ∧
    (functField 0x00200011 ∈ [17#6, 19#6] ∧ rsField 0x003FFFD1 = rsField 0x00200011) ∧
    (functField 0x00220018 ∈ [24#6, 25#6, 26#6, 27#6] ∧ rsField 0x0022FFD8 = rsField 0x00220018 ∧
      rtField 0x0022FFD8 = rtField 0x00220018) ∧
    (opField 0x3C021234 = 15 ∧ opField 0x3FE21234 = 15 ∧ rtField 0x3FE21234 = rtField 0x3C021234 ∧
      immField 0x3FE21234 = immField 0x3C021234) ∧
    (opField 0x18200003 ∈ [6#6, 7#6] ∧ opField 0x183F0003 = opField 0x18200003 ∧
      rsField 0x183F0003 = rsField 0x18200003 ∧ immField 0x183F0003 = immField 0x18200003) := by
  refine ⟨?_, ?_, ?_, ?_, ?_, ?_, ?_, ?_, ?_, ?_, ?_⟩ <;> decide

/-- One word for each alternative of `IllegalWord`, and a legal word, each fetched by a state. -/
theorem witness_IllegalWordsFailTheStep :
    ([(0x0000000F : Word), 0x04220003, 0x50000000, 0x00221820].all fun w =>
      !(pre w []).exited && (pre w []).pc &&& 3 == 0 && Memory.wordAt (pre w []).mem (pre w []).pc == w) = true ∧
    IllegalWord Config.default 0x0000000F ∧ IllegalWord Config.default 0x04220003 ∧
    IllegalWord Config.default 0x50000000 ∧ IllegalWord noPartial 0x88220000 ∧
    ¬ IllegalWord Config.default 0x00221820 ∧ decode Config.default 0x00221820 = some (.add 3 1 2) := by
  unfold IllegalWord
  refine ⟨?_, ?_, ?_, ?_, ?_, ?_, ?_⟩ <;> decide

theorem witness_StepRunsTheDecodedInstruction :
    let s := pre 0x00221820 []
    s.exited = false ∧ s.pc &&& 3 = 0 ∧
    decodeBytes [s.byte s.pc.toNat, s.byte (s.pc.toNat + 1), s.byte (s.pc.toNat + 2), s.byte (s.pc.toNat + 3)] =
      .ok (.add 3 1 2, []) := ⟨rfl, rfl, rfl⟩

/-- The three outcomes. -/
theorem witness_StepHasExactlyThreeOutcomes :
    ({ pre 0 [] with exited := true }).exited = true ∧
    ((pre 0 []).exited = false ∧ ∃ t, step (pre 0 []) = .next t ∧ t.stepCount = 1) ∧
    ((pre 0xF [] ).exited = false ∧ step (pre 0xF []) = .fault (.illegalInstruction 0xF)) :=
  ⟨rfl, ⟨rfl, next_of_after (by decide)⟩, rfl, fault_of_failure (by decide)⟩

/-- Each error, from a running state of the default configuration (which has `DistinctCalls`). -/
theorem witness_StepFailsWithTheFirstErrorItMeets :
    step { pre 0 [] with pc := 0x00400002 } = .fault (.misalignedAccess 0x00400002) ∧
    step (pre 0x0000000F []) = .fault (.illegalInstruction 0x0000000F) ∧
    step (inSlot 0x03E00008) = .fault (.branchInDelaySlot 0x00400000) ∧
    step (pre 0xA4220001 []) = .fault (.misalignedAccess 1) ∧
    step (pre 0x8C220002 []) = .fault (.misalignedAccess 2) ∧
    step (pre 0x0022001A [(1, 7)]) = .fault (.divideByZero 0x00400000) ∧
    step (pre 0x0000000C []) = .fault (.unsupportedSyscall 0 none) ∧
    step (pre 0x0000000C [(2, 4003), (4, 1)]) = .fault (.unsupportedSyscall 4003 (some 1)) ∧
    step (pre 0x0000000C [(2, 4004), (4, 7)]) = .fault (.unsupportedSyscall 4004 (some 7)) ∧
    step (pre 0x0000000C [(2, 4003), (4, 5)]) = .fault (.oracleMiss (Vector.replicate 32 0)) := by
  refine ⟨?_, ?_, ?_, ?_, ?_, ?_, ?_, ?_, ?_, ?_⟩ <;> exact fault_of_failure (by decide)

/-- A step in sequence and a taken branch. -/
theorem witness_CompletedStepRetires :
    (∃ t, step (pre 0 []) = .next t ∧ t.nextPc = 0x00400008) ∧
    ∃ t, step (pre 0x10000003 []) = .next t ∧ t.nextPc = 0x00400010 :=
  ⟨next_of_after (by decide), next_of_after (by decide)⟩

/-- Another oracle that answers the same at the current key: a step that reads it, and a step that fails. -/
theorem witness_OracleMattersOnlyAtTheCurrentKey :
    Oracle.get [(keyK, [1, 2])] keyK = Oracle.get [(keyK, [1, 2]), (Vector.replicate 32 0, [3])] keyK ∧
    (∃ t, step { preKey 4003 0x2000 4 0 with oracle := [(keyK, [1, 2])] } = .next t ∧ t.poff = 2) ∧
    Oracle.get [] keyK = Oracle.get [(Vector.replicate 32 0, [3])] keyK ∧
    step { preKey 4003 0x2000 4 0 with oracle := [] } = .fault (.oracleMiss keyK) :=
  ⟨by decide +kernel, next_of_after (by decide +kernel), by decide +kernel, fault_of_failure (by decide +kernel)⟩

/-- A store, from a state that meets the invariant. -/
theorem witness_EveryStepKeepsTheInvariant :
    Inv (preStore 0xA0220001) ∧ ∃ t, step (preStore 0xA0220001) = .next t ∧ t.byte 0x1001 = 0xDD :=
  ⟨⟨by decide, by decide⟩, next_of_after (by decide)⟩

/-- A halted state, an exit, and a step that is no exit. -/
theorem witness_ExitedIsSetOnlyByTheExitCalls :
    ({ pre 0 [] with exited := true }).exited = true ∧ (pre 0 []).exited = false ∧
    (∃ t, step (pre 0xC [(2, 4246), (4, 1)]) = .next t ∧ t.exited = true) ∧
    ∃ t, step (pre 0 []) = .next t ∧ t.exited = false :=
  ⟨rfl, rfl, next_of_after (by decide), next_of_after (by decide)⟩

/-- `hi` and `lo` changed by each kind of instruction, and an instruction that does not read them. -/
theorem witness_HiLoAreTouchedOnlyByTheirInstructions :
    (∃ t, exec (.multu 1 2) (pre 0 [(1, 0xFFFFFFFF), (2, 0xFFFFFFFF)]) = .next t ∧ hiLo t = (0xFFFFFFFE, 1)) ∧
    (∃ t, exec (.mthi 1) (pre 0 [(1, 5)]) = .next t ∧ hiLo t = (5, 0)) ∧
    (∃ t, exec (.mtlo 1) (pre 0 [(1, 5)]) = .next t ∧ hiLo t = (0, 5)) ∧
    (∀ rd, Instr.add 3 1 2 ≠ .mfhi rd ∧ Instr.add 3 1 2 ≠ .mflo rd) ∧
    ∃ t, exec (.add 3 1 2) (pre 0 []) = .next t ∧ hiLo t = (0, 0) :=
  ⟨next_of_execAfter (by decide), next_of_execAfter (by decide), next_of_execAfter (by decide),
    fun _ => ⟨nofun, nofun⟩, next_of_execAfter (by decide)⟩

/-- The heap moved by `brk` and by `mmap`, the key by a key write, the offset by a key write and by a read. -/
theorem witness_CursorsMoveOnlyByTheirCalls :
    (∃ t, exec .syscall (pre 0 [(2, 4045), (4, 0x20001000)]) = .next t ∧ t.heap = 0x20001000) ∧
    (∃ t, exec .syscall (pre 0 [(2, 4090), (5, 1)]) = .next t ∧ t.heap = 0x20001000) ∧
    (∃ t, exec .syscall (preKey 4004 0x3000 4 7) = .next t ∧ (t.pkey.toList.drop 28, t.poff) =
      ([0xFF, 0xFF, 0xFF, 0xFF], 0)) ∧
    ∃ t, exec .syscall (preKey 4003 0x2000 4 0) = .next t ∧ t.poff = 4 :=
  ⟨next_of_execAfter (by decide), next_of_execAfter (by decide), next_of_execAfter (by decide +kernel),
    next_of_execAfter (by decide +kernel)⟩

/-- A byte changed by a store and by a preimage read. -/
theorem witness_MemoryChangesOnlyInTheAccessedWord :
    (∃ t, exec (.sb 2 1 1) (preStore 0) = .next t ∧ (t.byte 0x1001, (preStore 0).byte 0x1001) = (0xDD, 0x22)) ∧
    ∃ t, exec .syscall (preKey 4003 0x2001 2 10) = .next t ∧
      (t.byte 0x2001, (preKey 4003 0x2001 2 10).byte 0x2001) = (0x64, 0xFF) :=
  ⟨next_of_execAfter (by decide), next_of_execAfter (by decide +kernel)⟩

/-- A memory that agrees on the two words alone. -/
theorem witness_StepDependsOnTwoWordsOfMemory :
    let s := preStore 0xA0220001
    let m := Memory.setWordAt s.mem 0x1004 7
    s.exited = false ∧ (∃ t, step s = .next t ∧ t.byte 0x1001 = 0xDD) ∧
    decode s.cfg (Memory.wordAt s.mem s.pc) = some (.sb 2 1 1) ∧ Memory.wordAt m s.pc = Memory.wordAt s.mem s.pc ∧
    dataAccess (.sb 2 1 1) s = some 0x1000 ∧ Memory.wordAt m 0x1000 = Memory.wordAt s.mem 0x1000 ∧ m ≠ s.mem :=
  ⟨by decide, next_of_after (by decide), by decide, by decide, by decide, by decide, by decide⟩

/-- A misaligned address; an aligned one that reads 0 in a canonical memory, and another aligned one. -/
theorem witness_ReadWordReturnsTheLastWordWritten :
    (3 : Word) &&& 3 ≠ 0 ∧ (0xFFFFFFFC : Word) &&& 3 = 0 ∧ (0x1000 : Word) &&& 3 = 0 ∧ (0x1000 : Word) ≠ 0xFFFFFFFC ∧
    Memory.wf (Memory.setWordAt [] 0x1000 5) = true ∧
    (Memory.readWord (Memory.setWordAt [] 0x1000 5) 0xFFFFFFFC).toOption = some 0 := by decide

/-- Offsets 0 and 2, the last word. -/
theorem witness_BytesLieBigEndianInTheirWord :
    (pre 0 []).pc &&& 3 = 0 ∧ (0x1000 : Word) &&& 1 = 0 ∧ (0x1000 : Word) &&& 2 = 0 ∧ (0x1002 : Word) &&& 1 = 0 ∧
    (0x1002 : Word) &&& 2 ≠ 0 ∧ (0xFFFFFFFC : Word) &&& 3 = 0 ∧
    (Memory.writeWord [] 0xFFFFFFFC 0x01020304).toOption =
      some [(0xFFFFFFFC, 1), (0xFFFFFFFD, 2), (0xFFFFFFFE, 3), (0xFFFFFFFF, 4)] := by decide

/-- The same bytes written in two orders. -/
theorem witness_CanonicalMemoriesWithEqualBytesAreEqual :
    let m := Memory.writeByte (Memory.writeByte [] 4 1) 8 2
    let m' := Memory.writeByte (Memory.writeByte (Memory.writeByte [] 8 2) 6 3) 4 1
    Memory.wf m = true ∧ Memory.wf (Memory.writeByte m' 6 0) = true ∧
      ∀ a, Memory.readByte m a = Memory.readByte (Memory.writeByte m' 6 0) a :=
  ⟨by decide, by decide, fun _ => rfl⟩

/-- The last range that fits, and the first that does not. -/
theorem witness_SetRangeStoresExactlyItsBytes :
    (0xFFFFFFFC : Word).toNat + ([1, 2, 3, 4] : List Byte).length ≤ 2 ^ 32 ∧
    2 ^ 32 < (0xFFFFFFFC : Word).toNat + ([1, 2, 3, 4, 5] : List Byte).length ∧
    Memory.wf [] = true := by decide

theorem witness_DefaultLoadedStateIsLegal :
    (State.defaults Config.default).cfg.entryPc &&& 3 = 0 := by decide

/-- Every effective address has the form the load and store statements give it: the base 0 and an offset of -4. -/
theorem witness_LoadByteExtends :
    (0xFFFFFFFC : Word) = BitVec.ofInt 32 (((preLoad 0 []).reg 1).toNat + (0xFFFC : BitVec 16).toInt) := by decide

/-- Even: the last halfword of the address space; odd: the last byte. -/
theorem witness_LoadHalfwordExtendsOrFails :
    ((0xFFFFFFFE : Word) = BitVec.ofInt 32 (((pre 0 []).reg 1).toNat + (0xFFFE : BitVec 16).toInt) ∧
      (0xFFFFFFFE : Word).toNat % 2 = 0) ∧
    (0xFFFFFFFF : Word) = BitVec.ofInt 32 (((pre 0 []).reg 1).toNat + (0xFFFF : BitVec 16).toInt) ∧
      (0xFFFFFFFF : Word).toNat % 2 = 1 := by decide

/-- L15: aligned, at the last word; and the three misaligned offsets after it. -/
theorem witness_LoadWordOrFails :
    let s := State.withWord (pre 0x8C22FFFC []) 0xFFFFFFFC 0xCAFEBABE
    ((0xFFFFFFFC : Word) = BitVec.ofInt 32 ((s.reg 1).toNat + (0xFFFC : BitVec 16).toInt) ∧
      (0xFFFFFFFC : Word).toNat % 4 = 0 ∧ after s (·.reg 2) = some 0xCAFEBABE) ∧
    ∀ k ∈ [0xFFFD, 0xFFFE, 0xFFFF], (BitVec.ofInt 32 ((s.reg 1).toNat + (BitVec.ofNat 16 k).toInt)).toNat % 4 ≠ 0 := by
  decide

/-- Offsets 0 and 3, with the instructions and without. -/
theorem witness_LoadPartialWordMerges :
    (preStore 0).cfg.unalignedWordOps = true ∧ ({ preStore 0 with cfg := noPartial }).cfg.unalignedWordOps = false ∧
    (0x1000 : Word) = BitVec.ofInt 32 (((preStore 0).reg 1).toNat + (0 : BitVec 16).toInt) ∧
    (0x1003 : Word) = BitVec.ofInt 32 (((preStore 0).reg 1).toNat + (3 : BitVec 16).toInt) := by decide

theorem witness_StoreByteChangesOneByte :
    (0xFFFFFFFF : Word) = BitVec.ofInt 32 (((pre 0 []).reg 1).toNat + (0xFFFF : BitVec 16).toInt) := by decide

/-- `sh` at the last even and odd addresses, `sw` at the last word and at the halfword in it. -/
theorem witness_StoreHalfwordAndWordOrFail :
    (∀ k ∈ [0xFFFC, 0xFFFE, 0xFFFF],
      BitVec.ofNat 32 (0xFFFF0000 + k) = BitVec.ofInt 32 (((pre 0 []).reg 1).toNat + (BitVec.ofNat 16 k).toInt)) ∧
    (0xFFFFFFFE : Word).toNat % 2 = 0 ∧ (0xFFFFFFFF : Word).toNat % 2 = 1 ∧ (0xFFFFFFFC : Word).toNat % 4 = 0 ∧
    (0xFFFFFFFE : Word).toNat % 4 ≠ 0 := by decide

/-- Offsets 0 and 3, with the instructions and without. -/
theorem witness_StorePartialWordMerges :
    (preStore 0).cfg.unalignedWordOps = true ∧ ({ preStore 0 with cfg := noPartial }).cfg.unalignedWordOps = false ∧
    ((0x1000 : Word) = BitVec.ofInt 32 (((preStore 0).reg 1).toNat + (0 : BitVec 16).toInt) ∧
      0 = (0x1000 : Word).toNat % 4) ∧
    (0x1003 : Word) = BitVec.ofInt 32 (((preStore 0).reg 1).toNat + (3 : BitVec 16).toInt) ∧
      3 = (0x1003 : Word).toNat % 4 := by decide

theorem witness_UnalignedWordIdiom :
    (preStore 0).cfg.unalignedWordOps = true ∧ (2 : Reg) ≠ 0 ∧ (2 : Reg) ≠ 1 := by decide

/-- In a taken slot under both policies, and outside one. -/
theorem witness_TransferInATakenSlotFails :
    Transfer (.beq 1 2 3) ∧ Transfer (.jr 31) ∧
    ((inSlot 0).cfg.delaySlotBranch = .fault ∧ (inSlot 0).nextPc ≠ (inSlot 0).pc + 4) ∧
    (inSlotSequential 0).cfg.delaySlotBranch = .sequential ∧ (pre 0 []).nextPc = (pre 0 []).pc + 4 :=
  ⟨.inr (.inr (.inr (.inr (.inl ⟨1, 2, 3, rfl⟩)))), .inr (.inr (.inl ⟨31, rfl⟩)), by decide⟩

/-- `SlotFree` under either policy, and its failure; the target of B3 from the last word of a region. -/
theorem witness_JumpsTargetTheSlotsRegion :
    SlotFree (pre 0 []) ∧ SlotFree (inSlotSequential 0) ∧ ¬ SlotFree (inSlot 0) ∧
    (0x10400020 : Word) =
      BitVec.ofNat 32 (((0x0FFFFFFC : Word) + 4#32).toNat / 2 ^ 28 * 2 ^ 28 + 4 * (0x0100008 : BitVec 26).toNat) := by
  unfold SlotFree; decide

theorem witness_RegisterJumpsUseTheOldValue : SlotFree (pre 0x0320C809 []) ∧ ¬ SlotFree (inSlot 0x0320C809) := by
  unfold SlotFree; decide

/-- The targets of B14 and B16: the lowest offset, and a wrap. -/
theorem witness_ConditionalBranchesStageTheirTarget :
    SlotFree (pre 0x10008000 []) ∧ ¬ SlotFree (inSlot 0x10008000) ∧
    (0x003E0004 : Word) = BitVec.ofInt 32 ((pre 0x10008000 []).pc.toNat + 4 + 4 * (0x8000 : BitVec 16).toInt) ∧
    (0x0000000C : Word) = BitVec.ofInt 32 ((0xFFFFFFFC : Word).toNat + 4 + 4 * (3 : BitVec 16).toInt) := by
  unfold SlotFree; decide

/-- The target of B15: the highest offset. -/
theorem witness_LinkingBranchesAlwaysLink :
    SlotFree (pre 0x04317FFF []) ∧ ¬ SlotFree (inSlot 0x04317FFF) ∧
    (0x00420000 : Word) = BitVec.ofInt 32 ((pre 0x04317FFF []).pc.toNat + 4 + 4 * (0x7FFF : BitVec 16).toInt) := by
  unfold SlotFree; decide

/-- A taken branch; and the state after `jr $31` to a misaligned address (B6), whose slot completes. -/
theorem witness_MisalignedTargetFailsAfterTheSlot :
    let s := pre 0x03E00008 [(31, 0x00400009)]
    let t := s.retire 0x00400009
    (Transfer (.beq 0 0 3) ∧ (pre 0 []).pc &&& 3 = 0 ∧ (pre 0 []).nextPc &&& 3 = 0 ∧
      ∃ u, exec (.beq 0 0 3) (pre 0 []) = .next u ∧ u.nextPc = 0x00400010) ∧
    s.reg 31 &&& 3 ≠ 0 ∧ exec (.jr 31) s = .next t ∧ t.exited = false ∧
      ∃ u, step t = .next u ∧ (u.exited, u.pc) = (false, 0x00400009) :=
  ⟨⟨.inr (.inr (.inr (.inr (.inl ⟨0, 0, 3, rfl⟩)))), by decide, by decide, next_of_execAfter (by decide)⟩, by decide,
    rfl, by decide, next_of_after (by decide)⟩

theorem witness_DivideTruncatesOrFails :
    (pre 0 [(1, 7), (2, 2)]).reg 2 ≠ 0 ∧ (pre 0 [(1, 7)]).reg 2 = 0 := by decide

/-- Each number, under the default configuration (`witness_DistinctCalls`). -/
theorem witness_ExitCallsHaltTheMachine :
    (pre 0xC [(2, 4001)]).reg 2 = (pre 0xC [(2, 4001)]).cfg.sysExit ∧
    (pre 0xC [(2, 4246)]).reg 2 = (pre 0xC [(2, 4246)]).cfg.sysExitGroup := by decide

theorem witness_BrkMmapCloneReturn :
    (pre 0xC [(2, 4045)]).reg 2 = (pre 0xC []).cfg.sysBrk ∧ (pre 0xC [(2, 4090)]).reg 2 = (pre 0xC []).cfg.sysMmap ∧
    (pre 0xC [(2, 4120)]).reg 2 = (pre 0xC []).cfg.sysClone := by decide

/-- `read` on 0; `write` of two bytes on 1, of none on 2. -/
theorem witness_StandardDescriptorsReadAndWrite :
    ((pre 0xC [(2, 4003)]).reg 2 = (pre 0xC []).cfg.sysRead ∧ (pre 0xC [(2, 4003)]).reg 4 = Config.fdStdin) ∧
    (let s := State.withWord (pre 0xC [(2, 4004), (4, 1), (5, 0xFFFFFFFF), (6, 2)]) 0xFFFFFFFC 0x41; s.reg 2 = s.cfg.sysWrite ∧ s.reg 4 = Config.fdStdout ∧
      [0x41, 0] = (List.range (s.reg 6).toNat).map (fun k => s.byte (s.reg 5 + BitVec.ofNat 32 k).toNat)) ∧
    (let s := pre 0xC [(2, 4004), (4, 2)]; s.reg 2 = s.cfg.sysWrite ∧ s.reg 4 = Config.fdStderr ∧
      [] = (List.range (s.reg 6).toNat).map (fun k => s.byte (s.reg 5 + BitVec.ofNat 32 k).toNat)) := by decide

/-- PR14, a miss; PR11, one byte of two; PR4, none. -/
theorem witness_PreimageReadDeliversTheNextBytes :
    (let s := { preKey 4003 0x2000 0 0 with pkey := Vector.replicate 32 0xEE }; s.reg 2 = s.cfg.sysRead ∧ s.reg 4 = s.cfg.fdPreimage ∧ s.oracle.get s.pkey = none) ∧
    (let s := preKey 4003 0x2001 2 10; s.reg 2 = s.cfg.sysRead ∧ s.reg 4 = s.cfg.fdPreimage ∧ (s.oracle.get s.pkey).map List.length = some 11 ∧
      2 = min (4 - (s.reg 5).toNat % 4) (s.reg 6).toNat ∧ 1 = min 2 (11 - s.poff.toNat)) ∧
    (let s := preKey 4003 0x2008 4 11; (s.oracle.get s.pkey).map List.length = some 11 ∧ 4 = min (4 - (s.reg 5).toNat % 4) (s.reg 6).toNat ∧
      0 = min 4 (11 - s.poff.toNat)) := by decide +kernel

/-- PW2, two bytes; PW4, none. -/
theorem witness_PreimageWriteShiftsTheKey :
    (let s := preKey 4004 0x3002 4 7; s.reg 2 = s.cfg.sysWrite ∧ s.reg 4 = s.cfg.fdPreimage ∧ 2 = min (4 - (s.reg 5).toNat % 4) (s.reg 6).toNat) ∧
    (let s := preKey 4004 0x3000 0 7; s.reg 2 = s.cfg.sysWrite ∧ s.reg 4 = s.cfg.fdPreimage ∧ 0 = min (4 - (s.reg 5).toNat % 4) (s.reg 6).toNat) := by
  decide +kernel

/-- The numbers next to an emulated one (Y25), a descriptor of no call, and the neighbour of a descriptor. -/
theorem witness_UnsupportedCallsFail :
    (let s := pre 0xC [(2, 4002)]; s.reg 2 ∉ [s.cfg.sysExit, s.cfg.sysRead, s.cfg.sysWrite, s.cfg.sysBrk, s.cfg.sysMmap, s.cfg.sysClone,
        s.cfg.sysExitGroup]) ∧
    (let s := pre 0xC [(2, 4003), (4, 1)]; s.reg 2 = s.cfg.sysRead ∧ s.reg 4 ≠ 0 ∧ s.reg 4 ≠ s.cfg.fdPreimage) ∧
    (let s := pre 0xC [(2, 4004), (4, 0)]; s.reg 2 = s.cfg.sysWrite ∧ s.reg 4 ≠ 1 ∧ s.reg 4 ≠ 2 ∧ s.reg 4 ≠ s.cfg.fdPreimage) := by decide

theorem witness_RejectedRowsAlwaysFail :
    (0x0000004D : Word) = (0#6 ++ 1#20 ++ 13#6 : BitVec (6 + 20 + 6)) := by decide

theorem witness_RootAfterAWriteComesFromTheOldProof :
    (Memory.writeWord [] 0x20 5).toOption = some [(0x23, 5)] := by decide

/-- A node over two chunks with one zero word written and none other. -/
theorem witness_ZeroSubtreesHaveTheZeroHash :
    ∀ c, 0 * 2 ^ 1 ≤ c → c < (0 + 1) * 2 ^ 1 → chunk (Memory.setWordAt [] 0x40 7) c = List.replicate 32 0#8 := by
  intro c _ h
  have : c = 0 ∨ c = 1 := by omega
  rcases this with rfl | rfl <;> decide

/-- A length that is refused, a flag that is refused, and an encoding that is accepted. -/
theorem witness_DecodingInvertsTheStateEncoding :
    (List.replicate 225 (0 : Byte)).length ≠ 226 ∧
    ((List.replicate 226 (2 : Byte))[53]? ≠ some 0 ∧ (List.replicate 226 (2 : Byte))[53]? ≠ some 1) ∧
    (decodeWitness (List.replicate 226 1)).isSome = true := by decide +kernel

/-- A load (two proofs) and a preimage read (a proof and an event). -/
theorem witness_WitnessHoldsValidProofs :
    (let s := preLoad 0x84220002 [(1, 0x1000)]; s.exited = false ∧ (∃ t, step s = .next t ∧ t.reg 2 = 0xFFFF8344) ∧
      decode s.cfg (Memory.wordAt s.mem s.pc) = some (.lh 2 2 1) ∧ dataAccess (.lh 2 2 1) s = some 0x1000) ∧
    (let s := preKey 4003 0x2000 4 0; s.exited = false ∧ (∃ t, step s = .next t ∧ t.poff = 4) ∧
      decode s.cfg (Memory.wordAt s.mem s.pc) = some .syscall ∧ s.call = .readPreimage ∧
      (preimageEvent .syscall s).isSome = true) :=
  ⟨⟨rfl, next_of_after (by decide), by decide, by decide⟩,
    rfl, next_of_after (by decide +kernel), by decide +kernel, by decide +kernel, by decide +kernel⟩

/-- T10: a store to the very word it was fetched from. -/
theorem witness_ReplayComputesThePostState :
    let s := pre 0xAC22FFFC [(1, 0x00400004), (2, 0xAABBCCDD)]
    s.exited = false ∧ ∃ t, step s = .next t ∧ wordOfState 0x00400000 t = 0xAABBCCDD :=
  ⟨rfl, next_of_after (by decide)⟩

end Sys2Proof.Tests
end

section
/-! PROOFS. The family of spec/10_state.md: what a completed step does with the fields of the state (O9, O11, O12, O13,
O14, O15), the canonical form of memory (O20), and the state encoding with its inverse (O57, O58). -/

namespace Sys2Proof.Machine

/-! ### What a completed system call leaves as it was -/

/-- The fields no returning system call writes before its result (spec/46_syscall.md R204 to R224). -/
structure CallFrame (s u : State) : Prop where
  regs : u.regs = s.regs
  hi : u.hi = s.hi
  lo : u.lo = s.lo
  nextPc : u.nextPc = s.nextPc
  stepCount : u.stepCount = s.stepCount
  exit : SameExit s u
  parameters : SameParameters s u

/-- What a returning system call leaves as it was before it writes `x[2]` and `x[7]`. -/
theorem CallEffect.frame {s u : State} {v : Word} (h : CallEffect s v u) : CallFrame s u := by
  cases h with
  | nothing | heap | key | word => exact ⟨rfl, rfl, rfl, rfl, rfl, ⟨rfl, rfl⟩, ⟨rfl, rfl⟩⟩
  | sink => constructor <;> simp [SameExit, SameParameters]

theorem CallEffect.wf_mem {s u : State} {v : Word} (h : CallEffect s v u) (hm : Memory.wf s.mem = true) :
    Memory.wf u.mem = true := by
  cases h with
  | nothing => exact hm
  | heap _ w => exact hm
  | sink _ bytes => simpa using hm
  | key _ k => exact hm
  | word _ w _ => exact Memory.wf_setWordAt _ w hm

/-! ### The instruction a completed step executed -/

/-- Only a legal instruction completes: the rejected rows and, while they are off, the partial-word operations
fail (R80). -/
theorem wellFormed_of_exec_eq_next {i : Instr} {s t : State} (h : exec i s = .next t) : i.wellFormed s.cfg = true := by
  cases i
  case lwl | lwr | swl | swr =>
    simpa [Instr.wellFormed, Instr.rejectedRow, Instr.unalignedWordOp] using (unalignedOnly_eq_next.1 h).1
  case breakpoint | cop0 | cop1 | cop2 | cop3 | lwc0 | lwc1 | lwc2 | lwc3 | swc0 | swc1 | swc2 | swc3 => cases h
  all_goals simp [Instr.wellFormed, Instr.rejectedRow, Instr.unalignedWordOp]

/-- A completed step executed the instruction R74's `decode` answers for the word at `PC`. -/
theorem exec_decoded_of_step {s t : State} (h : step s = .next t) :
    ∃ i, decode s.cfg (Memory.wordAt s.mem s.pc) = some i ∧ exec i s = .next t := by
  obtain ⟨-, -, i, hd, hx⟩ := step_eq_next h
  exact ⟨i, by simp [decode, hd, wellFormed_of_exec_eq_next hx], hx⟩

/-! ### Retirement -/

/-- R12, R13, R95, R96: every completed execution retires, and only a transfer stages another `NextPC`. -/
theorem Effect.retires {i : Instr} {s t : State} (h : Effect i s t) :
    t.pc = s.nextPc ∧ t.stepCount = s.stepCount + 1#64 ∧ (t.nextPc = s.nextPc + 4#32 ∨ Transfer i) := by
  cases h with
  | reg => simp
  | hiLo => exact ⟨rfl, rfl, .inl rfl⟩
  | store => simp
  | transfer hi n => exact ⟨rfl, rfl, .inr hi⟩
  | linkedTransfer hi r n => simp [hi]
  | call _ _ hx =>
    rcases execSyscall_effect hx with ⟨-, rfl⟩ | ⟨-, v, u, hu, rfl⟩
    · exact ⟨rfl, rfl, .inl rfl⟩
    · simp [hu.frame.nextPc, hu.frame.stepCount]

/-- Settles O9: the step executed the decoded instruction, and every execution retires. -/
theorem completedStepRetires : Obligations.CompletedStepRetires := by
  unfold Obligations.CompletedStepRetires
  intro s t _ h
  obtain ⟨i, hd, hx⟩ := exec_decoded_of_step h
  obtain ⟨hpc, hcount, hnext⟩ := (exec_effect hx).retires
  exact ⟨hpc, hcount, hnext.imp_right fun hi => ⟨i, hd, hi⟩⟩

/-! ### The invariant -/

theorem Effect.slotZero {i : Instr} {s t : State} (h : Effect i s t) : t.regs[0] = 0#32 := by
  cases h with
  | reg | hiLo | store => exact State.advance_slot _
  | transfer | linkedTransfer => exact State.retire_slot _ _
  | call _ _ hx => rcases execSyscall_effect hx with ⟨-, rfl⟩ | ⟨-, v, u, -, rfl⟩ <;> exact State.advance_slot _

theorem Effect.wf_mem {i : Instr} {s t : State} (h : Effect i s t) (hm : Memory.wf s.mem = true) :
    Memory.wf t.mem = true := by
  cases h with
  | reg | linkedTransfer => simpa using hm
  | hiLo | transfer => exact hm
  | store _ addr v _ => exact Memory.wf_setWordAt addr v hm
  | call _ _ hx =>
    rcases execSyscall_effect hx with ⟨-, rfl⟩ | ⟨-, v, u, hu, rfl⟩
    · exact hm
    · simpa using hu.wf_mem hm

theorem Effect.sameParameters {i : Instr} {s t : State} (h : Effect i s t) : SameParameters s t := by
  cases h with
  | reg | linkedTransfer => simp [SameParameters]
  | hiLo | transfer | store => exact ⟨rfl, rfl⟩
  | call _ _ hx =>
    rcases execSyscall_effect hx with ⟨-, rfl⟩ | ⟨-, v, u, hu, rfl⟩
    · exact ⟨rfl, rfl⟩
    · simpa [SameParameters] using hu.frame.parameters

/-- Settles O11: retirement zeroes slot 0, memory changes by whole words of the address space alone, and no effect
touches the parameters. -/
theorem everyStepKeepsTheInvariant : Obligations.EveryStepKeepsTheInvariant := by
  unfold Obligations.EveryStepKeepsTheInvariant
  intro s t hs h
  obtain ⟨i, -, hx⟩ := exec_decoded_of_step h
  have he := exec_effect hx
  exact ⟨⟨he.wf_mem hs.memCanonical, he.slotZero⟩, he.sameParameters⟩

/-- Settles O12: the memory lists nothing and every slot is zero. -/
theorem resetMeetsTheInvariant : Obligations.ResetMeetsTheInvariant :=
  ⟨Memory.wf_nil, by simp [State.reset]⟩

/-! ### `exited` and `exit_code` -/

/-- R15, R16, R204: the exit calls write `exited` and `exit_code`, and no other completed execution does. -/
theorem Effect.exit_cases {i : Instr} {s t : State} (h : Effect i s t) :
    (i = .syscall ∧ s.call = .exit ∧ t.exited = true ∧ t.exitCode = (s.reg 4#5).setWidth 8) ∨
    (¬ (i = .syscall ∧ s.call = .exit) ∧ SameExit s t) := by
  cases h with
  | reg hi => exact .inr ⟨fun h => hi h.1, by simp [SameExit]⟩
  | hiLo hi => exact .inr ⟨fun h => hi h.1, rfl, rfl⟩
  | store hi => exact .inr ⟨fun h => store_ne_syscall hi h.1, rfl, rfl⟩
  | transfer hi => exact .inr ⟨fun h => transfer_ne_syscall hi h.1, rfl, rfl⟩
  | linkedTransfer hi => exact .inr ⟨fun h => transfer_ne_syscall hi h.1, by simp [SameExit]⟩
  | call hi _ hx =>
    rcases execSyscall_effect hx with ⟨hc, rfl⟩ | ⟨hc, v, u, hu, rfl⟩
    · exact .inl ⟨hi, hc, rfl, rfl⟩
    · exact .inr ⟨fun h => hc h.2, by simpa [SameExit] using hu.frame.exit⟩

/-- Settles O13: the cases of a completed execution, with the call read off the registers. -/
theorem exitedIsSetOnlyByTheExitCalls : Obligations.ExitedIsSetOnlyByTheExitCalls := by
  unfold Obligations.ExitedIsSetOnlyByTheExitCalls
  intro s
  refine ⟨step_halted, fun t _ h => ?_⟩
  obtain ⟨i, hd, hx⟩ := exec_decoded_of_step h
  rw [hd, Option.some.injEq, ← (call_registers s).1, ← and_assoc]
  exact (exec_effect hx).exit_cases.imp_left fun ⟨hi, hc, ht⟩ => ⟨⟨hi, hc⟩, ht⟩

/-! ### The cursors -/

/-- R18, R205, R206: a call that moves the heap cursor is `brk` or `mmap`. -/
theorem CallEffect.heap_cases {s u : State} {v : Word} (h : CallEffect s v u) :
    SameHeap s u ∨ s.call = .brk ∨ s.call = .mmap := by
  cases h with
  | nothing | key | word => exact .inl rfl
  | heap hc => exact .inr hc
  | sink => exact .inl (State.emit_heap ..)

/-- R19, R222, R224: what the calls do with the preimage cursor. -/
theorem CallEffect.preimage_cases {s u : State} {v : Word} (h : CallEffect s v u) :
    SamePreimage s u ∨ (s.call = .writePreimage ∧ u.poff = 0#32) ∨
      (s.call = .readPreimage ∧ u.pkey = s.pkey ∧ u.poff = s.poff + v) := by
  cases h with
  | nothing | heap => exact .inl ⟨rfl, rfl⟩
  | sink => exact .inl ⟨State.emit_pkey .., State.emit_poff ..⟩
  | key hc => exact .inr (.inl ⟨hc, rfl⟩)
  | word hc => exact .inr (.inr ⟨hc, rfl, rfl⟩)

/-- R18: only `brk` and `mmap` move the heap cursor. -/
theorem Effect.heap_cases {i : Instr} {s t : State} (h : Effect i s t) :
    SameHeap s t ∨ (i = .syscall ∧ (s.call = .brk ∨ s.call = .mmap)) := by
  cases h with
  | reg | linkedTransfer => simp [SameHeap]
  | hiLo | store | transfer => exact .inl rfl
  | call hi _ hx =>
    rcases execSyscall_effect hx with ⟨-, rfl⟩ | ⟨-, v, u, hu, rfl⟩
    · exact .inl rfl
    · simpa [SameHeap, hi] using hu.heap_cases

/-- R19: the preimage cursor stands, or a preimage write sent the offset back to 0, or a preimage read moved it on by
the count it returns in `x[2]`. -/
theorem Effect.preimage_cases {i : Instr} {s t : State} (h : Effect i s t) :
    SamePreimage s t ∨ (i = .syscall ∧ s.call = .writePreimage ∧ t.poff = 0#32) ∨
      (i = .syscall ∧ s.call = .readPreimage ∧ t.pkey = s.pkey ∧ t.poff = s.poff + t.reg 2#5) := by
  cases h with
  | reg | linkedTransfer => simp [SamePreimage]
  | hiLo | store | transfer => exact .inl ⟨rfl, rfl⟩
  | call hi _ hx =>
    rcases execSyscall_effect hx with ⟨-, rfl⟩ | ⟨-, v, u, hu, rfl⟩
    · exact .inl ⟨rfl, rfl⟩
    · simpa [SamePreimage, hi, reg_returns] using hu.preimage_cases

/-- Settles O15: a cursor that moved rules out the first case, and the call names its number and descriptor. -/
theorem cursorsMoveOnlyByTheirCalls : Obligations.CursorsMoveOnlyByTheirCalls := by
  unfold Obligations.CursorsMoveOnlyByTheirCalls
  intro i s t h
  obtain ⟨-, hbrk, hmmap, hread, hwrite⟩ := call_registers s
  have he := exec_effect h
  refine ⟨fun hheap => ?_, fun hpkey => ?_, fun hpoff => ?_⟩
  · obtain ⟨hi, hc⟩ := he.heap_cases.resolve_left hheap
    exact ⟨hi, hc.imp hbrk hmmap⟩
  · obtain ⟨hi, hc, h0⟩ | ⟨-, -, hsame, -⟩ := he.preimage_cases.resolve_left fun hp => hpkey hp.1
    · exact ⟨hi, (hwrite hc).1, (hwrite hc).2, h0⟩
    · exact absurd hsame hpkey
  · obtain ⟨hi, hc, h0⟩ | ⟨hi, hc, -, hadd⟩ := he.preimage_cases.resolve_left fun hp => hpoff hp.2
    · exact ⟨hi, (hwrite hc).2, .inl ⟨(hwrite hc).1, h0⟩⟩
    · exact ⟨hi, (hread hc).2, .inr ⟨(hread hc).1, hadd⟩⟩

/-! ### `hi` and `lo` -/

/-- R14: who writes `hi` and who writes `lo`. -/
theorem Effect.hiLo_cases {i : Instr} {s t : State} (h : Effect i s t) :
    (t.hi = s.hi ∨ WritesBothHiLo i ∨ ∃ rs, i = .mthi rs) ∧ (t.lo = s.lo ∨ WritesBothHiLo i ∨ ∃ rs, i = .mtlo rs) := by
  cases h with
  | reg | linkedTransfer => simp
  | hiLo _ _ _ hh hl => exact ⟨hh, hl⟩
  | store | transfer => exact ⟨.inl rfl, .inl rfl⟩
  | call _ _ hx =>
    rcases execSyscall_effect hx with ⟨-, rfl⟩ | ⟨-, v, u, hu, rfl⟩
    · exact ⟨.inl rfl, .inl rfl⟩
    · simp [hu.frame.hi, hu.frame.lo]

/-- The second execution completes whenever the first does, in a state that differs in `hi` and `lo` alone. -/
def CompletesAlike (r r' : Result) : Prop := ∀ t, r = .next t → ∃ u, r' = .next u ∧ SameButHiLo t u

/-- An execution that fails does not complete. -/
theorem CompletesAlike.raise (e : Fault) (r : Result) : CompletesAlike (raise e) r := nofun

theorem CompletesAlike.ite {p : Prop} [Decidable p] {r₁ r₂ r₁' r₂' : Result} (h₁ : CompletesAlike r₁ r₁')
    (h₂ : CompletesAlike r₂ r₂') : CompletesAlike (if p then r₁ else r₂) (if p then r₁' else r₂') := by
  split
  · exact h₁
  · exact h₂

namespace SameButHiLo

variable {s u : State}

theorem setReg (h : SameButHiLo s u) (r : Reg) (v : Word) : SameButHiLo (s.setReg r v) (u.setReg r v) := by
  unfold SameButHiLo State.setReg
  rw [h]
  split <;> rfl

theorem retire (h : SameButHiLo s u) (n : Word) : SameButHiLo (s.retire n) (u.retire n) := by
  rw [h]; rfl

theorem setMem (h : SameButHiLo s u) (m : Memory) : SameButHiLo (s.setMem m) (u.setMem m) := by
  rw [h]; rfl

theorem emit (h : SameButHiLo s u) (fd : Word) (bytes : List Byte) :
    SameButHiLo (s.emit fd bytes) (u.emit fd bytes) := by
  unfold SameButHiLo State.emit
  rw [h]
  split <;> rfl

theorem completeTo (h : SameButHiLo s u) (n : Word) : CompletesAlike (completeTo n s) (completeTo n u) := by
  rintro t ⟨⟩
  exact ⟨_, rfl, h.retire n⟩

theorem complete (h : SameButHiLo s u) : CompletesAlike (complete s) (complete u) := by
  have hn : u.nextPc = s.nextPc := by rw [h]
  unfold Machine.complete State.advance
  rw [hn]
  exact h.completeTo _

theorem returns (h : SameButHiLo s u) (v : Word) : CompletesAlike (returns v s) (returns v u) :=
  ((h.setReg _ _).setReg _ _).complete

theorem loadedIf (h : SameButHiLo s u) (rt : Reg) (r : Except Fault Word) :
    CompletesAlike (loadedIf rt r s) (loadedIf rt r u) := by
  cases r with
  | ok v => exact (h.setReg rt v).complete
  | error e => exact .raise _ _

theorem storedIf (h : SameButHiLo s u) (r : Except Fault Memory) : CompletesAlike (storedIf r s) (storedIf r u) := by
  cases r with
  | ok m => exact (h.setMem m).complete
  | error e => exact .raise _ _

theorem unalignedOnly (h : SameButHiLo s u) (i : Instr) {r r' : Result} (hr : CompletesAlike r r') :
    CompletesAlike (unalignedOnly i r s) (unalignedOnly i r' u) := by
  intro t ht
  obtain ⟨hon, ht⟩ := unalignedOnly_eq_next.1 ht
  obtain ⟨w, hw, hs⟩ := hr t ht
  exact ⟨w, unalignedOnly_eq_next.2 ⟨by rwa [h], hw⟩, hs⟩

theorem transferCheck (h : SameButHiLo s u) {r r' : Result} (hr : CompletesAlike r r') :
    CompletesAlike (transferCheck s r) (transferCheck u r') := by
  intro t ht
  obtain ⟨hslot, ht⟩ := transferCheck_eq_next.1 ht
  obtain ⟨w, hw, hs⟩ := hr t ht
  exact ⟨w, transferCheck_eq_next.2 ⟨by rwa [h], hw⟩, hs⟩

theorem branchIf (h : SameButHiLo s u) {s' u' : State} (h' : SameButHiLo s' u') (c : Bool) (imm : BitVec 16) :
    CompletesAlike (branchIf c imm s s') (branchIf c imm u u') := by
  have hpc : u.pc = s.pc := by rw [h]
  cases c with
  | false => exact h'.complete
  | true => simpa only [Machine.branchIf, if_true, hpc] using h'.completeTo _

end SameButHiLo

section OtherHiLo

variable (s : State) (a b : Word)

/-- A state with other `hi` and `lo`. -/
def State.withHiLo : State := { s with hi := a, lo := b }

theorem sameButHiLo_withHiLo : SameButHiLo s (s.withHiLo a b) := rfl

/-- A preimage read neither reads nor writes `hi` and `lo`. -/
theorem readPreimage_completesAlike : CompletesAlike (readPreimage s) (readPreimage (s.withHiLo a b)) := by
  have h := sameButHiLo_withHiLo s a b
  have ho : (s.withHiLo a b).oracle.get (s.withHiLo a b).pkey = s.oracle.get s.pkey := rfl
  unfold readPreimage
  rw [ho]
  cases s.oracle.get s.pkey with
  | none => exact .raise _ _
  | some v => exact .ite (h.returns _) (SameButHiLo.returns (by rfl) _)

/-- A system call neither reads nor writes `hi` and `lo`. -/
theorem execSyscall_completesAlike : CompletesAlike (execSyscall s) (execSyscall (s.withHiLo a b)) := by
  have h := sameButHiLo_withHiLo s a b
  have hc : (s.withHiLo a b).call = s.call := rfl
  unfold execSyscall
  rw [hc]
  cases s.call with
  | exit => exact SameButHiLo.complete rfl
  | brk | mmap => exact SameButHiLo.returns (by rfl) _
  | clone | readStdin => exact h.returns _
  | readPreimage => exact readPreimage_completesAlike s a b
  | writeSink => exact (h.emit _ _).returns _
  | writePreimage => exact .ite (h.returns _) (SameButHiLo.returns (by rfl) _)
  | unknownNumber | unknownDescriptor => exact .raise _ _

/-- R14: only `mfhi` and `mflo` read `hi` and `lo`; every other instruction does alike whatever the two hold. -/
theorem exec_completesAlike {i : Instr} (hi : ∀ rd, i ≠ .mfhi rd ∧ i ≠ .mflo rd) :
    CompletesAlike (exec i s) (exec i (s.withHiLo a b)) := by
  have h := sameButHiLo_withHiLo s a b
  cases i
  case mfhi rd => exact absurd rfl (hi rd).1
  case mflo rd => exact absurd rfl (hi rd).2
  case syscall => exact execSyscall_completesAlike s a b
  case mult | multu | mthi | mtlo => exact SameButHiLo.complete rfl
  case div | divu => exact .ite (.raise _ _) (SameButHiLo.complete rfl)
  case sll | srl | sra | sllv | srlv | srav | add | addu | sub | subu | and | or | xor | nor | slt | sltu | addi | addiu
    | slti | sltiu | andi | ori | xori | lui | lb | lbu => exact (h.setReg _ _).complete
  case lh | lhu | lw => exact h.loadedIf _ _
  case lwl | lwr => exact h.unalignedOnly _ (h.setReg _ _).complete
  case sb => exact (h.setMem _).complete
  case sh | sw => exact h.storedIf _
  case swl | swr => exact h.unalignedOnly _ (h.setMem _).complete
  case j | jr => exact h.transferCheck (h.completeTo _)
  case jal | jalr => exact h.transferCheck ((h.setReg _ _).completeTo _)
  case beq | bne | blez | bgtz | bltz | bgez => exact h.transferCheck (h.branchIf h _ _)
  case bltzal | bgezal => exact h.transferCheck (h.branchIf (h.setReg _ _) _ _)
  case breakpoint | cop0 | cop1 | cop2 | cop3 | lwc0 | lwc1 | lwc2 | lwc3 | swc0 | swc1 | swc2 | swc3 =>
    exact .raise _ _

end OtherHiLo

/-- Settles O14: who writes is read off the effect; who reads, off two executions side by side. -/
theorem hiLoAreTouchedOnlyByTheirInstructions : Obligations.HiLoAreTouchedOnlyByTheirInstructions := by
  unfold Obligations.HiLoAreTouchedOnlyByTheirInstructions
  intro i s t h
  obtain ⟨hhi, hlo⟩ := (exec_effect h).hiLo_cases
  exact ⟨hhi.resolve_left, hlo.resolve_left, fun a b hi => exec_completesAlike s a b hi t h⟩

/-! ### The canonical form of memory (spec/20_memory.md R41) -/

namespace Memory

/-- A canonical memory reads as unwritten below its first address. -/
theorem readByte_of_lt {m : Memory} {lo a : Nat} (hm : wfFrom lo m = true) (ha : a < lo) :
    readByte m a = unwritten := by
  induction m generalizing lo with
  | nil => rfl
  | cons c m ih =>
    simp only [wfFrom, Bool.and_eq_true, decide_eq_true_eq] at hm
    obtain ⟨⟨⟨hlo, -⟩, -⟩, hm⟩ := hm
    rw [readByte, if_neg (by omega)]
    exact ih hm (by omega)

/-- The head of a canonical memory is no unwritten byte, and the rest lies above it. -/
theorem wfFrom_cons {c : Host.Cell} {m : Memory} {lo : Nat} (h : wfFrom lo (c :: m) = true) :
    c.2 ≠ unwritten ∧ wfFrom (c.1 + 1) m = true := by
  simp only [wfFrom, Bool.and_eq_true, bne_iff_ne] at h
  obtain ⟨⟨-, hbyte⟩, hrest⟩ := h
  exact ⟨hbyte, hrest⟩

/-- Of two canonical memories that read alike, neither starts above the other: the first byte of the other is no
unwritten one. -/
theorem head_le_of_readByte_eq {c d : Host.Cell} {m m' : Memory} {lo lo' : Nat} (hm : wfFrom lo (c :: m) = true)
    (hm' : wfFrom lo' (d :: m') = true) (h : ∀ a, readByte (c :: m) a = readByte (d :: m') a) : d.1 ≤ c.1 := by
  by_contra hlt
  have hd : readByte (d :: m') c.1 = unwritten := by
    rw [readByte, if_neg (by omega)]
    exact readByte_of_lt (wfFrom_cons hm').2 (by omega)
  exact (wfFrom_cons hm).1 (by rw [← hd, ← h, readByte, if_pos rfl])

/-- R33, R41: a canonical memory is determined by what it reads. -/
theorem eq_of_readByte_eq {m m' : Memory} {lo lo' : Nat} (hm : wfFrom lo m = true) (hm' : wfFrom lo' m' = true)
    (h : ∀ a, readByte m a = readByte m' a) : m = m' := by
  induction m generalizing lo lo' m' with
  | nil =>
    cases m' with
    | nil => rfl
    | cons d m' => exact absurd (by simpa [readByte] using (h d.1).symm) (wfFrom_cons hm').1
  | cons c m ih =>
    cases m' with
    | nil => exact absurd (by simpa [readByte] using h c.1) (wfFrom_cons hm).1
    | cons d m' =>
      have haddr : c.1 = d.1 := Nat.le_antisymm
        (head_le_of_readByte_eq hm' hm fun a => (h a).symm) (head_le_of_readByte_eq hm hm' h)
      have hbyte : c.2 = d.2 := by simpa [readByte, haddr] using h c.1
      have htail := ih (wfFrom_cons hm).2 (wfFrom_cons hm').2 fun a => by
        by_cases ha : a = c.1
        · rw [readByte_of_lt (wfFrom_cons hm).2 (by omega), readByte_of_lt (wfFrom_cons hm').2 (by omega)]
        · simpa [readByte, Ne.symm ha, haddr ▸ Ne.symm ha] using h a
      rw [Prod.ext haddr hbyte, htail]

end Memory

/-- Settles O20: by induction on both lists; their first addresses agree, and so do the bytes there and the rests. -/
theorem canonicalMemoriesWithEqualBytesAreEqual : Obligations.CanonicalMemoriesWithEqualBytesAreEqual :=
  fun _ _ hm hm' h => Memory.eq_of_readByte_eq hm hm' h

/-! ### Slices of an encoding (spec/10_state.md R30) -/

@[simp] theorem length_flatMap_wordBytes (ws : List Word) : (ws.flatMap wordBytes).length = 4 * ws.length := by
  simp [List.length_flatMap, Nat.mul_comm]

/-- A 64-bit value is encoded as two words, the high one first. -/
theorem doubleBytes_eq_flatMap (v : BitVec 64) :
    doubleBytes v = [v.extractLsb' 32 32, v.extractLsb' 0 32].flatMap wordBytes := rfl

/-- The bytes of a 64-bit value, the most significant first (R30). -/
theorem doubleBytes_eq_map (v : BitVec 64) :
    doubleBytes v = (List.range 8).map fun k => v.extractLsb' (56 - 8 * k) 8 := by
  have slice : ∀ lo lo', lo ≤ 24 → (v.extractLsb' lo' 32).extractLsb' lo 8 = v.extractLsb' (lo' + lo) 8 := by
    intro lo lo' hlo
    ext k hk
    simp [show lo + k < 32 by omega, Nat.add_assoc]
  simp [doubleBytes, wordBytes, byteOf, List.range_succ, slice]

/-- The four bytes at the place of word `k` in a string of words. -/
theorem slice_flatMap_wordBytes (ws : List Word) (rest : List Byte) {k : Nat} (hk : k < ws.length) :
    ((ws.flatMap wordBytes ++ rest).drop (4 * k)).take 4 = wordBytes ws[k] := by
  induction ws generalizing k with
  | nil => simp at hk
  | cons w ws ih =>
    cases k with
    | zero => simp [wordBytes]
    | succ k =>
      rw [Nat.mul_succ, Nat.add_comm, ← List.drop_drop, List.flatMap_cons, List.append_assoc,
        List.drop_left' (length_wordBytes w)]
      exact ih (by simpa using hk)

/-- A slice of a byte string, byte by byte. -/
theorem slice_eq_ofFn {l : List Byte} {i n : Nat} (h : i + n ≤ l.length) :
    (l.drop i).take n = List.ofFn fun j : Fin n => byteAt l (i + j) := by
  apply List.ext_getElem
  · simp; omega
  · intro k hk _
    have : i + k < l.length := by simp at hk; omega
    simp [byteAt, this]

theorem wordBytes_wordOf {l : List Byte} {i : Nat} (h : i + 4 ≤ l.length) :
    wordBytes (wordOf l i) = (l.drop i).take 4 := by
  rw [slice_eq_ofFn h]
  simp [wordOf, wordBytes]

theorem toList_bytes32 {l : List Byte} {i : Nat} (h : i + 32 ≤ l.length) :
    (bytes32 l i).toList = (l.drop i).take 32 := by
  rw [slice_eq_ofFn h, bytes32, Vector.toList_ofFn]

theorem wordBytes_injective {v w : Word} (h : wordBytes v = wordBytes w) : v = w := by
  simp only [wordBytes, List.cons.injEq, and_true] at h
  obtain ⟨h0, h1, h2, h3⟩ := h
  rw [← wordOfBytes_byteOf v, h0, h1, h2, h3, wordOfBytes_byteOf]

/-- Consecutive words are a slice of four times their number. -/
theorem flatMap_wordBytes_wordOf {l : List Byte} {i n : Nat} (h : i + 4 * n ≤ l.length) :
    (List.ofFn fun j : Fin n => wordOf l (i + 4 * j)).flatMap wordBytes = (l.drop i).take (4 * n) := by
  induction n with
  | zero => simp
  | succ n ih =>
    have ih := ih (by omega)
    simp only [List.ofFn_succ_last, List.flatMap_append, Fin.val_castSucc, Fin.val_last, ih]
    rw [Nat.mul_succ, List.take_add, List.drop_drop]
    simp [wordBytes_wordOf (show i + 4 * n + 4 ≤ l.length by omega)]

/-- Where a string of words stands in an encoding, word `k` is read at four times `k`. -/
theorem wordOf_of_drop_eq {l rest : List Byte} {ws : List Word} {i k : Nat}
    (h : l.drop i = ws.flatMap wordBytes ++ rest) (hk : k < ws.length) : wordOf l (i + 4 * k) = ws[k] := by
  have hlen := congrArg List.length h
  simp only [List.length_drop, List.length_append, length_flatMap_wordBytes] at hlen
  apply wordBytes_injective
  rw [wordBytes_wordOf (by omega), ← List.drop_drop, h, slice_flatMap_wordBytes ws rest hk]

/-- A byte of an encoding is read in what is left after a smaller offset. -/
theorem byteAt_add (l : List Byte) (i j : Nat) : byteAt l (i + j) = byteAt (l.drop i) j := by simp [byteAt]

namespace Header

variable (h : Header)

@[simp] theorem length_encode : h.encode.length = 226 := by simp [encode, doubleBytes_eq_flatMap]

theorem encode_root : h.encode.take 32 = h.root.toList := by simp [encode]

/-- The table of R30 after the root. -/
theorem drop_encode_32 : h.encode.drop 32 =
    [h.pc, h.nextPc, h.hi, h.lo, h.heap].flatMap wordBytes ++ ([h.exitCode, if h.exited then 1#8 else 0#8] ++
      (doubleBytes h.stepCount ++ (h.regs.toList.flatMap wordBytes ++ (h.pkey.toList ++ wordBytes h.poff)))) := by
  simp [encode]

theorem drop_encode_52 : h.encode.drop 52 = [h.exitCode, if h.exited then 1#8 else 0#8] ++
    (doubleBytes h.stepCount ++ (h.regs.toList.flatMap wordBytes ++ (h.pkey.toList ++ wordBytes h.poff))) := by
  rw [show 52 = 32 + 20 from rfl, ← List.drop_drop, drop_encode_32]
  rfl

theorem drop_encode_54 : h.encode.drop 54 =
    doubleBytes h.stepCount ++ (h.regs.toList.flatMap wordBytes ++ (h.pkey.toList ++ wordBytes h.poff)) := by
  rw [show 54 = 52 + 2 from rfl, ← List.drop_drop, drop_encode_52]
  rfl

theorem drop_encode_62 :
    h.encode.drop 62 = h.regs.toList.flatMap wordBytes ++ (h.pkey.toList ++ wordBytes h.poff) := by
  rw [show 62 = 54 + 8 from rfl, ← List.drop_drop, drop_encode_54]
  rfl

theorem drop_encode_190 : h.encode.drop 190 = h.pkey.toList ++ wordBytes h.poff := by
  rw [show 190 = 62 + 128 from rfl, ← List.drop_drop, drop_encode_62, List.drop_left' (by simp)]

theorem drop_encode_222 : h.encode.drop 222 = wordBytes h.poff := by
  rw [show 222 = 190 + 32 from rfl, ← List.drop_drop, drop_encode_190, List.drop_left' (by simp)]

theorem byteAt_encode_52 : byteAt h.encode 52 = h.exitCode := by
  rw [byteAt_add _ 52 0, drop_encode_52]; rfl

theorem byteAt_encode_53 : byteAt h.encode 53 = if h.exited then 1#8 else 0#8 := by
  rw [byteAt_add _ 52 1, drop_encode_52]; rfl

/-- Decoding reads back every field of an encoding. -/
theorem decodeFields_encode : decodeFields h.encode h.exited = h := by
  have five {k : Nat} (hk : k < 5) := wordOf_of_drop_eq h.drop_encode_32 hk
  have hpc : wordOf h.encode 32 = h.pc := five (k := 0) (by decide)
  have hnextPc : wordOf h.encode 36 = h.nextPc := five (k := 1) (by decide)
  have hhi : wordOf h.encode 40 = h.hi := five (k := 2) (by decide)
  have hlo : wordOf h.encode 44 = h.lo := five (k := 3) (by decide)
  have hheap : wordOf h.encode 48 = h.heap := five (k := 4) (by decide)
  have hroot : bytes32 h.encode 0 = h.root := by
    rw [← Vector.toList_inj, toList_bytes32 (by simp), List.drop_zero, encode_root]
  have hstep : wordOf h.encode 54 ++ wordOf h.encode 58 = h.stepCount := by
    have two {k : Nat} (hk : k < 2) :=
      wordOf_of_drop_eq (ws := [h.stepCount.extractLsb' 32 32, h.stepCount.extractLsb' 0 32]) h.drop_encode_54 hk
    rw [two (k := 0) (by decide), two (k := 1) (by decide)]
    exact (BitVec.extractLsb'_append_extractLsb'_eq_extractLsb' (by rfl)).trans (by simp)
  have hregs : (Vector.ofFn fun j => wordOf h.encode (62 + 4 * j.val)) = h.regs := by
    refine Vector.ext fun k hk => ?_
    rw [Vector.getElem_ofFn]
    exact (wordOf_of_drop_eq h.drop_encode_62 (by simpa using hk)).trans (Vector.getElem_toList _)
  have hpkey : bytes32 h.encode 190 = h.pkey := by
    rw [← Vector.toList_inj, toList_bytes32 (by simp), drop_encode_190, List.take_left' (by simp)]
  have hpoff : wordOf h.encode 222 = h.poff := wordOf_of_drop_eq (ws := [h.poff]) (k := 0) h.drop_encode_222 (by simp)
  rw [decodeFields, hroot, hpc, hnextPc, hhi, hlo, hheap, byteAt_encode_52, hstep, hregs, hpkey, hpoff]

/-- Encoding what was read off a byte string puts its slices together again. -/
theorem encode_decodeFields {l : List Byte} (hl : l.length = 226) {b : Bool}
    (hb : byteAt l 53 = if b then 1#8 else 0#8) : (decodeFields l b).encode = l := by
  have flag : (if (decodeFields l b).exited then 1#8 else 0#8) = byteAt l 53 := hb.symm
  have double : doubleBytes (wordOf l 54 ++ wordOf l 58) = wordBytes (wordOf l 54) ++ wordBytes (wordOf l 58) := by
    rw [doubleBytes, BitVec.extractLsb'_append_eq_left, BitVec.extractLsb'_append_eq_right]
  have regs : (Vector.ofFn fun j : Fin 32 => wordOf l (62 + 4 * j)).toList.flatMap wordBytes =
      (l.drop 62).take 128 := by
    rw [Vector.toList_ofFn, flatMap_wordBytes_wordOf (by omega)]
  have root : (bytes32 l 0).toList = l.take 32 := toList_bytes32 (by omega)
  have pkey : (bytes32 l 190).toList = (l.drop 190).take 32 := toList_bytes32 (by omega)
  have take_byte (i : Nat) (hi : i < 226) : l.take i ++ [byteAt l i] = l.take (i + 1) := by
    rw [List.take_add, slice_eq_ofFn (by omega)]; rfl
  have take_word (i : Nat) (hi : i + 4 ≤ 226) : l.take i ++ wordBytes (wordOf l i) = l.take (i + 4) := by
    rw [List.take_add, wordBytes_wordOf (by omega)]
  have take_slice (i n : Nat) : l.take i ++ (l.drop i).take n = l.take (i + n) := List.take_add.symm
  rw [encode, flag]
  simp (disch := decide) only [decodeFields, root, double, regs, pkey, ← List.append_assoc, take_byte, take_word,
    take_slice, Nat.reduceAdd]
  exact List.take_of_length_le hl.le

end Header

/-- `decode` accepts a string with its flag read as a truth value (R32). -/
theorem decodeWitness_eq_some {l : List Byte} {h : Header} : decodeWitness l = some h ↔
    l.length = 226 ∧ ∃ b : Bool, byteAt l 53 = (if b then 1#8 else 0#8) ∧ h = decodeFields l b := by
  unfold decodeWitness encodingLength
  by_cases hl : l.length = 226
  · by_cases h0 : byteAt l 53 = 0#8
    · simp [hl, h0, eq_comm (a := h)]
    · by_cases h1 : byteAt l 53 = 1#8
      · simp [hl, h1, eq_comm (a := h)]
      · simp [hl, h0, h1]
  · simp [hl]

theorem decodeWitness_encode (h : Header) : decodeWitness h.encode = some h :=
  decodeWitness_eq_some.2 ⟨h.length_encode, h.exited, h.byteAt_encode_53, h.decodeFields_encode.symm⟩

theorem decodeWitness_eq_none {l : List Byte} :
    decodeWitness l = none ↔ l.length ≠ 226 ∨ (l[53]? ≠ some 0#8 ∧ l[53]? ≠ some 1#8) := by
  unfold decodeWitness encodingLength
  by_cases hl : l.length = 226
  · have hbyte : l[53]? = some (byteAt l 53) := by simp [byteAt, hl]
    rw [hbyte, if_pos hl]
    by_cases h0 : byteAt l 53 = 0#8
    · simp [hl, h0]
    · by_cases h1 : byteAt l 53 = 1#8
      · simp [hl, h1]
      · simp [hl, h0, h1]
  · simp [hl]

/-- Settles O58: each field is read back where it was laid, and slices laid side by side are the string. -/
theorem decodingInvertsTheStateEncoding : Obligations.DecodingInvertsTheStateEncoding := by
  unfold Obligations.DecodingInvertsTheStateEncoding
  refine ⟨fun H s => decodeWitness_encode _, fun l => ⟨decodeWitness_eq_none, fun h hd => ?_⟩⟩
  obtain ⟨hl, b, hb, rfl⟩ := decodeWitness_eq_some.1 hd
  exact Header.encode_decodeFields hl hb

/-- Register `r` of an encoded state (R30). -/
theorem encodeWitnessWith_reg (H : HashFn) (s : State) (r : Reg) :
    ((encodeWitnessWith H s).drop (62 + 4 * r.toNat)).take 4 = wordBytes (s.reg r) := by
  rw [encodeWitnessWith, ← List.drop_drop, Header.drop_encode_62, slice_flatMap_wordBytes _ _ (by simpa using r.isLt)]
  simp [State.header]

/-- Settles O57: what stands at and after each offset of the table, cut to the field's length. -/
theorem encodingLaysOutEveryField : Obligations.EncodingLaysOutEveryField := by
  rintro H s e rfl
  refine ⟨Header.length_encode _, Header.encode_root _, ?_, ?_, ?_, encodeWitnessWith_reg H s, ?_,
    Header.drop_encode_222 _⟩
  · rw [encodeWitnessWith, Header.drop_encode_32]; rfl
  · rw [encodeWitnessWith, Header.drop_encode_52]; rfl
  · rw [encodeWitnessWith, Header.drop_encode_54, List.take_left' (by rfl), doubleBytes_eq_map]; rfl
  · rw [encodeWitnessWith, Header.drop_encode_190, List.take_left' (by simp)]; rfl

end Sys2Proof.Machine
end

section
/-! PROOFS. The family of spec/20_memory.md: which words of memory a step reads and writes (O16, O17), words, bytes and
ranges (O18, O19, O21), and the hash tree (O54, O55, O56). -/

namespace Sys2Proof.Machine

/-- The word containing an address is the word at the address's aligned base (R40). -/
theorem Memory.wordAt_wordBase (m : Memory) (a : Word) : wordAt m (wordBase a) = wordAt m a := by simp [wordAt]

/-! ### Who writes memory (R42, R58) -/

/-- R42: a completed execution leaves every byte, or replaces the one word of its data access; only a store and a
preimage read do the latter. -/
theorem Effect.mem_cases {i : Instr} {s t : State} (h : Effect i s t) :
    t.mem = s.mem ∨
      ∃ addr v, dataAccess i s = some (Memory.wordBase addr) ∧ t.mem = Memory.setWordAt s.mem addr v ∧
        (Store i ∨ (i = .syscall ∧ s.call = .readPreimage)) := by
  cases h with
  | reg | linkedTransfer => simp
  | hiLo | transfer => exact .inl rfl
  | store hi addr v hd => exact .inr ⟨addr, v, hd, rfl, .inl hi⟩
  | call hi _ hx =>
    rcases execSyscall_effect hx with ⟨-, rfl⟩ | ⟨-, v, u, hu, rfl⟩
    · exact .inl rfl
    · cases hu with
      | nothing | heap | sink | key => simp
      | word hc w hd => exact .inr ⟨_, w, hi ▸ hd, by simp, .inr ⟨hi, hc⟩⟩

/-- Settles O16: a byte that differs lies in the word that was replaced. -/
theorem memoryChangesOnlyInTheAccessedWord : Obligations.MemoryChangesOnlyInTheAccessedWord := by
  unfold Obligations.MemoryChangesOnlyInTheAccessedWord
  intro i s t a h hne
  obtain hmem | ⟨addr, v, hd, hmem, hwho⟩ := (exec_effect h).mem_cases
  · exact absurd (by rw [State.byte, hmem, State.byte]) hne
  · rw [State.byte, hmem, Memory.readByte_setWordAt] at hne
    obtain ⟨hlo, hhi⟩ := Classical.byContradiction fun hout => hne (if_neg hout)
    exact ⟨_, hd, Memory.wordBase_aligned addr, hlo, hhi, hwho⟩

/-! ### Two runs side by side (R58, R101) -/

/-- The second state has every field of the first but the memory, the oracle and the sinks, and its memory holds the
same word at every address of a set. -/
structure AgreeOn (P : Word → Prop) (s u : State) : Prop where
  fields : u = { s with mem := u.mem, oracle := u.oracle, sink1 := u.sink1, sink2 := u.sink2 }
  words : ∀ a, P a → Memory.wordAt u.mem a = Memory.wordAt s.mem a

/-- If the first execution completes, so does the second, and their next states agree. -/
def CompletesAgreeing (P : Word → Prop) (r r' : Result) : Prop :=
  ∀ t, r = .next t → ∃ u, r' = .next u ∧ AgreeOn P t u

section TwoRuns

variable {P : Word → Prop}

/-- The claim is empty where the first execution fails. -/
theorem CompletesAgreeing.raise (e : Fault) (r : Result) : CompletesAgreeing P (raise e) r := nofun

theorem CompletesAgreeing.ite {p : Prop} [Decidable p] {r₁ r₂ r₁' r₂' : Result} (h₁ : CompletesAgreeing P r₁ r₁')
    (h₂ : ¬ p → CompletesAgreeing P r₂ r₂') : CompletesAgreeing P (if p then r₁ else r₂) (if p then r₁' else r₂') := by
  split
  · exact h₁
  · exact h₂ ‹_›

namespace AgreeOn

variable {s u : State}

/-! #### What a run does -/

theorem setReg (h : AgreeOn P s u) (r : Reg) (v : Word) : AgreeOn P (s.setReg r v) (u.setReg r v) where
  fields := by
    unfold State.setReg
    rw [h.fields]
    split <;> rfl
  words := by simpa using h.words

theorem retire (h : AgreeOn P s u) (n : Word) : AgreeOn P (s.retire n) (u.retire n) where
  fields := by rw [h.fields]; rfl
  words := h.words

/-- The same word written to both memories: they agree wherever they did. -/
theorem storeWord (h : AgreeOn P s u) (a v : Word) :
    AgreeOn P (s.setMem (Memory.setWordAt s.mem a v)) (u.setMem (Memory.setWordAt u.mem a v)) where
  fields := by rw [h.fields]; rfl
  words b hb := by simp only [State.setMem_mem, Memory.wordAt_setWordAt, h.words b hb]

/-- Sinks are left out of the agreement: what is emitted may differ. -/
theorem emit (h : AgreeOn P s u) (fd : Word) (bytes bytes' : List Byte) :
    AgreeOn P (s.emit fd bytes) (u.emit fd bytes') where
  fields := by
    unfold State.emit
    rw [h.fields]
    split <;> rfl
  words := by simpa using h.words

theorem completeTo (h : AgreeOn P s u) (n : Word) : CompletesAgreeing P (completeTo n s) (completeTo n u) := by
  rintro t ⟨⟩
  exact ⟨_, rfl, h.retire n⟩

theorem complete (h : AgreeOn P s u) : CompletesAgreeing P (complete s) (complete u) := by
  have hn : u.nextPc = s.nextPc := by rw [h.fields]
  unfold Machine.complete State.advance
  rw [hn]
  exact h.completeTo _

theorem returns (h : AgreeOn P s u) (v : Word) : CompletesAgreeing P (returns v s) (returns v u) :=
  ((h.setReg _ _).setReg _ _).complete

theorem loaded (h : AgreeOn P s u) (rt : Reg) {v v' : Word} (hv : v' = v) :
    CompletesAgreeing P (loaded rt v s) (loaded rt v' u) := by
  subst hv
  exact (h.setReg rt v').complete

theorem loadedIf (h : AgreeOn P s u) (rt : Reg) {r r' : Except Fault Word} (hr : r' = r) :
    CompletesAgreeing P (loadedIf rt r s) (loadedIf rt r' u) := by
  subst hr
  cases r' with
  | ok v => exact h.loaded rt rfl
  | error e => exact .raise _ _

theorem unalignedOnly (h : AgreeOn P s u) (i : Instr) {r r' : Result} (hr : CompletesAgreeing P r r') :
    CompletesAgreeing P (unalignedOnly i r s) (unalignedOnly i r' u) := by
  have hcfg : u.cfg = s.cfg := by rw [h.fields]
  unfold Machine.unalignedOnly
  rw [hcfg]
  exact .ite hr fun _ => .raise _ _

theorem transferCheck (h : AgreeOn P s u) {r r' : Result} (hr : CompletesAgreeing P r r') :
    CompletesAgreeing P (transferCheck s r) (transferCheck u r') := by
  have hfields : u.cfg = s.cfg ∧ u.nextPc = s.nextPc ∧ u.pc = s.pc := by rw [h.fields]; exact ⟨rfl, rfl, rfl⟩
  obtain ⟨hcfg, hnext, hpc⟩ := hfields
  unfold Machine.transferCheck
  rw [hcfg, hnext, hpc]
  exact .ite (.raise _ _) fun _ => hr

theorem branchIf (h : AgreeOn P s u) {s' u' : State} (h' : AgreeOn P s' u') (c : Bool) (imm : BitVec 16) :
    CompletesAgreeing P (branchIf c imm s s') (branchIf c imm u u') := by
  have hpc : u.pc = s.pc := by rw [h.fields]
  unfold Machine.branchIf
  rw [hpc]
  exact .ite (h'.completeTo _) fun _ => h'.complete

/-! #### What a run reads -/

theorem reg (h : AgreeOn P s u) : u.reg = s.reg := by rw [h.fields]; rfl

theorem call (h : AgreeOn P s u) : u.call = s.call := by rw [h.fields]; rfl

theorem wordAt (h : AgreeOn P s u) {a : Word} (ha : P (Memory.wordBase a)) :
    Memory.wordAt u.mem a = Memory.wordAt s.mem a := by
  simpa only [Memory.wordAt_wordBase] using h.words _ ha

theorem memReadByte (h : AgreeOn P s u) {a : Word} (ha : P (Memory.wordBase a)) :
    Memory.memReadByte u.mem a = Memory.memReadByte s.mem a := by
  rw [Memory.memReadByte, h.wordAt ha, Memory.memReadByte]

theorem memReadHalf (h : AgreeOn P s u) {a : Word} (ha : P (Memory.wordBase a)) :
    Memory.memReadHalf u.mem a = Memory.memReadHalf s.mem a := by
  rw [Memory.memReadHalf, h.wordAt ha, Memory.memReadHalf]

theorem memReadWord (h : AgreeOn P s u) {a : Word} (ha : P (Memory.wordBase a)) :
    Memory.memReadWord u.mem a = Memory.memReadWord s.mem a := by
  rw [Memory.memReadWord, Memory.readWord, h.wordAt ha, Memory.memReadWord, Memory.readWord]

theorem keyBytes (h : AgreeOn P s u) (ha : P (Memory.wordBase (s.reg regA1))) : keyBytes u = keyBytes s := by
  unfold Machine.keyBytes
  dsimp only
  rw [h.reg, h.wordAt ha]

/-! #### The instructions -/

/-- A store makes a new word out of the old word of its data access (R48). -/
theorem store (h : AgreeOn P s u) {a : Word} (ha : P (Memory.wordBase a)) (f : Word → Word) :
    CompletesAgreeing P
      (Machine.complete (s.setMem (Memory.setWordAt s.mem a (f (Memory.wordAt s.mem a)))))
      (Machine.complete (u.setMem (Memory.setWordAt u.mem a (f (Memory.wordAt u.mem a))))) := by
  rw [h.wordAt ha]
  exact (h.storeWord a _).complete

/-- Such a store where the address may be misaligned. -/
theorem storedIf (h : AgreeOn P s u) {a : Word} (ha : P (Memory.wordBase a)) (f : Word → Word) (p : Prop)
    [Decidable p] (e : Fault) : CompletesAgreeing P
      (storedIf (if p then .ok (Memory.setWordAt s.mem a (f (Memory.wordAt s.mem a))) else .error e) s)
      (storedIf (if p then .ok (Memory.setWordAt u.mem a (f (Memory.wordAt u.mem a))) else .error e) u) := by
  split
  · exact h.store ha f
  · exact .raise _ _

/-- The second state as the first with four fields replaced: every other field of the two is the same by definition. -/
theorem eq_update (h : AgreeOn P s u) :
    ∃ m o b b', u = { s with mem := m, oracle := o, sink1 := b, sink2 := b' } := ⟨_, _, _, _, h.fields⟩

/-- R222: a preimage read under the same answer of the oracle. -/
theorem readPreimage (h : AgreeOn P s u) (ho : u.oracle.get s.pkey = s.oracle.get s.pkey)
    (hc : s.call = .readPreimage) (hd : ∀ d, preimageAccess s = some d → P d) :
    CompletesAgreeing P (readPreimage s) (readPreimage u) := by
  obtain ⟨m, o, b, b', rfl⟩ := h.eq_update
  replace ho : o.get s.pkey = s.oracle.get s.pkey := ho
  unfold Machine.readPreimage
  dsimp only
  rw [ho]
  cases hv : s.oracle.get s.pkey with
  | none => exact .raise _ _
  | some v =>
    refine .ite (h.returns _) fun hn => returns ?_ _
    have hw : Memory.wordAt m (s.reg regA1) = Memory.wordAt s.mem (s.reg regA1) :=
      h.wordAt (hd _ (by simp [preimageAccess, hc, hv, hn]))
    exact ⟨by rfl, hw ▸ (h.storeWord _ _).words⟩

/-- R224: a preimage write takes its key bytes from the word of its data access. -/
theorem writePreimage (h : AgreeOn P s u) (hc : s.call = .writePreimage)
    (hd : ∀ d, preimageAccess s = some d → P d) : CompletesAgreeing P (writePreimage s) (writePreimage u) := by
  obtain ⟨m, o, b, b', hu⟩ := h.eq_update
  unfold Machine.writePreimage
  rw [h.reg]
  refine .ite (h.returns _) fun hm => ?_
  rw [h.keyBytes (hd _ (by simp [preimageAccess, hc, hm]))]
  subst hu
  exact returns ⟨by rfl, by exact h.words⟩ _

/-- A system call reads memory in the word of its data access alone, but for the bytes it passes to a sink. -/
theorem execSyscall (h : AgreeOn P s u) (ho : u.oracle.get s.pkey = s.oracle.get s.pkey)
    (hd : ∀ d, preimageAccess s = some d → P d) : CompletesAgreeing P (execSyscall s) (execSyscall u) := by
  obtain ⟨m, o, b, b', hu⟩ := h.eq_update
  unfold Machine.execSyscall
  rw [h.call]
  cases hc : s.call with
  | exit => subst hu; exact complete ⟨rfl, h.words⟩
  | brk | mmap => subst hu; exact returns ⟨by rfl, by exact h.words⟩ _
  | clone | readStdin => subst hu; exact h.returns _
  | readPreimage => exact h.readPreimage ho hc hd
  | writeSink => subst hu; exact (h.emit _ _ _).returns _
  | writePreimage => exact h.writePreimage hc hd
  | unknownNumber | unknownDescriptor => exact .raise _ _

/-- R58: an execution reads memory in the word of its data access alone, but for the bytes it passes to a sink. -/
theorem exec {i : Instr} (h : AgreeOn P s u) (ho : u.oracle.get s.pkey = s.oracle.get s.pkey)
    (hd : ∀ d, dataAccess i s = some d → P d) : CompletesAgreeing P (exec i s) (exec i u) := by
  obtain ⟨m, o, b, b', rfl⟩ := h.eq_update
  cases i
  case syscall => exact h.execSyscall ho hd
  case mult | multu | mthi | mtlo => exact complete ⟨rfl, h.words⟩
  case div | divu => exact .ite (.raise _ _) fun _ => complete ⟨rfl, h.words⟩
  case sll | srl | sra | sllv | srlv | srav | add | addu | sub | subu | and | or | xor | nor | slt | sltu | addi | addiu
    | slti | sltiu | andi | ori | xori | lui | mfhi | mflo => exact (h.setReg _ _).complete
  case lb | lbu => exact h.loaded _ (congrArg _ (h.memReadByte (hd _ rfl)))
  case lh | lhu => exact h.loadedIf _ (congrArg (Except.map _) (h.memReadHalf (hd _ rfl)))
  case lw => exact h.loadedIf _ (h.memReadWord (hd _ rfl))
  case lwl => exact h.unalignedOnly _ (h.loaded _ (congrArg (mergeLwl · _ _) (h.wordAt (hd _ rfl))))
  case lwr => exact h.unalignedOnly _ (h.loaded _ (congrArg (mergeLwr · _ _) (h.wordAt (hd _ rfl))))
  case sb => exact h.store (hd _ rfl) (Memory.setByteOf · _ _)
  case sh => exact h.storedIf (hd _ rfl) (Memory.setHalfOf · _ _) _ _
  case sw => exact h.storedIf (hd _ rfl) (fun _ => _) _ _
  case swl => exact h.unalignedOnly _ (h.store (hd _ rfl) (mergeSwl · _ _))
  case swr => exact h.unalignedOnly _ (h.store (hd _ rfl) (mergeSwr · _ _))
  case j | jr => exact h.transferCheck (h.completeTo _)
  case jal | jalr => exact h.transferCheck ((h.setReg _ _).completeTo _)
  case beq | bne | blez | bgtz | bltz | bgez => exact h.transferCheck (h.branchIf h _ _)
  case bltzal | bgezal => exact h.transferCheck (h.branchIf (h.setReg _ _) _ _)
  case breakpoint | cop0 | cop1 | cop2 | cop3 | lwc0 | lwc1 | lwc2 | lwc3 | swc0 | swc1 | swc2 | swc3 =>
    exact .raise _ _

end AgreeOn

end TwoRuns

/-- Settles O17: the fetch finds the same instruction, its execution agrees on the word accessed, and no execution
touches the oracle. -/
theorem stepDependsOnTwoWordsOfMemory : Obligations.StepDependsOnTwoWordsOfMemory := by
  unfold Obligations.StepDependsOnTwoWordsOfMemory
  intro s t m i he h hdec hfetch hword
  obtain ⟨-, hpc, j, hj, hx⟩ := step_eq_next h
  obtain rfl : j = i := by simpa [decode, hj, wellFormed_of_exec_eq_next hx] using hdec
  have hagree : AgreeOn (fun d => dataAccess j s = some d) s { s with mem := m } := ⟨rfl, hword⟩
  obtain ⟨u, hu, htu⟩ := hagree.exec rfl (fun _ hd => hd) t hx
  have horacle : u.oracle = t.oracle := (exec_effect hu).sameParameters.2.trans (exec_effect hx).sameParameters.2.symm
  have hstep : step { s with mem := m } = exec j { s with mem := m } :=
    step_of_decode he hpc ((congrArg decodeWord hfetch).trans hj)
  refine ⟨u, hstep.trans hu, ?_, htu.words⟩
  unfold SameButMemoryAndSinks
  rw [← horacle]
  exact htu.fields

/-! ### Words (R43, R44) -/

namespace Memory

/-- R44: every word of the empty memory is 0. -/
theorem wordAt_nil (a : Word) : wordAt [] a = 0#32 := by
  simp only [wordAt, readByte_nil]
  rfl

/-- R44: what `write_word` answers when it succeeds. -/
theorem writeWord_eq_ok {m m' : Memory} {a v : Word} :
    writeWord m a v = .ok m' ↔ a &&& 3#32 = 0#32 ∧ setWordAt m a v = m' := by
  by_cases ha : a &&& 3#32 = 0#32
  · simp [writeWord_of_aligned ha, ha]
  · simp [writeWord_of_misaligned ha, ha]

/-- R44: writing back the word a canonical memory held before another was written gives the same memory, entry for
entry. -/
theorem setWordAt_setWordAt_wordAt {m : Memory} (a v : Word) (hm : wf m = true) :
    setWordAt (setWordAt m a v) a (wordAt m a) = m := by
  refine eq_of_readByte_eq (wf_setWordAt a _ (wf_setWordAt a v hm)) hm fun b => ?_
  rw [readByte_setWordAt, readByte_setWordAt]
  split
  case isTrue h => rw [byteOf_wordAt _ _ (by omega), Nat.add_sub_cancel' h.1]
  case isFalse h => rfl

end Memory

/-- Settles O18: what every word reads after one is replaced, and canonical memories that read alike are equal. -/
theorem readWordReturnsTheLastWordWritten : Obligations.ReadWordReturnsTheLastWordWritten := by
  unfold Obligations.ReadWordReturnsTheLastWordWritten
  refine fun m a v => ⟨fun ha => ⟨Memory.readWord_of_misaligned ha, Memory.writeWord_of_misaligned ha⟩, fun ha =>
    ⟨?_, _, Memory.writeWord_of_aligned ha, ?_, fun b hb hne => ?_, fun hm hz => ?_⟩⟩
  · rw [Memory.readWord_of_aligned ha, Memory.wordAt_nil]
  · rw [Memory.readWord_of_aligned ha, Memory.wordAt_setWordAt, if_pos rfl]
  · rw [Memory.readWord_of_aligned hb, Memory.readWord_of_aligned hb, Memory.wordAt_setWordAt,
      Memory.wordBase_of_aligned hb, Memory.wordBase_of_aligned ha, if_neg hne]
  · rw [Memory.readWord_of_aligned ha, Except.ok.injEq] at hz
    rw [Memory.writeWord_of_aligned ha, ← hz, Memory.setWordAt_setWordAt_wordAt a v hm]

/-! ### Bytes and halfwords (R45) -/

namespace Memory

/-- The two halves of a word by bit 1 of the address (R45, R47). -/
theorem halfOf_offset {a : Word} (w : Word) (h : a &&& 1#32 = 0#32) :
    halfOf w (offset a) = if a &&& 2#32 = 0#32 then w.extractLsb' 16 16 else w.extractLsb' 0 16 := by
  have hand : a &&& 3#32 = a &&& 2#32 := by
    rw [show 3#32 = 1#32 ||| 2#32 from rfl, BitVec.and_or_distrib_left, h, BitVec.zero_or]
  have hoff : offset a = (a &&& 2#32).toNat := by rw [offset, hand]
  split
  case isTrue h2 => rw [hoff, h2]; rfl
  case isFalse h2 =>
    have hne : (a &&& 2#32).toNat ≠ 0 := fun e => h2 (BitVec.eq_of_toNat_eq e)
    have heven := (even_iff a).1 h
    have hmod := offset_eq_mod a
    rw [show offset a = 2 by omega]
    rfl

/-- The four bytes of an aligned word that was written (R45). -/
theorem readByte_setWordAt_add (m : Memory) {a : Word} (v : Word) (ha : a &&& 3#32 = 0#32) {i : Nat} (hi : i < 4) :
    readByte (setWordAt m a v) (a.toNat + i) = byteOf v i := by
  rw [readByte_setWordAt, wordBase_of_aligned ha, if_pos (by omega), Nat.add_sub_cancel_left]

end Memory

/-- Settles O19: a byte is the byte of its word at its offset, a halfword two such bytes; a stored word reads back as
its four bytes. -/
theorem bytesLieBigEndianInTheirWord : Obligations.BytesLieBigEndianInTheirWord := by
  unfold Obligations.BytesLieBigEndianInTheirWord
  refine ⟨fun s hs => ?_, fun m a => ⟨?_, byteOf_wordAt_offset m a, fun ha => ⟨?_, ?_⟩, fun ha v m' h => ?_⟩⟩
  · rw [fetch, Memory.readWord_of_aligned hs, Memory.wordAt, Memory.wordBase_of_aligned hs]
    rfl
  · rw [← byteOf_wordAt_offset, ← Memory.wordAt_wordBase]
    rfl
  · rw [memReadHalf_of_even ha, Memory.halfOf_offset _ ha, ← Memory.wordAt_wordBase]
    rfl
  · rw [memReadHalf_of_even ha, halfOf_wordAt m a ((Memory.even_iff a).1 ha)]
  · obtain ⟨-, rfl⟩ := Memory.writeWord_eq_ok.1 h
    have hbyte (i : Nat) (hi : i < 4) := Memory.readByte_setWordAt_add m v ha hi
    exact ⟨hbyte 0 (by decide), hbyte 1 (by decide), hbyte 2 (by decide), hbyte 3 (by decide)⟩

/-- Settles O21: what every byte reads after a string is stored, and storing keeps the canonical form. -/
theorem setRangeStoresExactlyItsBytes : Obligations.SetRangeStoresExactlyItsBytes := by
  unfold Obligations.SetRangeStoresExactlyItsBytes
  exact fun m a bytes =>
    ⟨fun h => ⟨_, if_pos h, Memory.readByte_storeBytes m a.toNat bytes, fun hm => Memory.wf_storeBytes hm h⟩,
      fun h => if_neg (by omega)⟩

/-! ### The tree (R50 to R55) -/

/-- A node is a function of the chunks it covers (R51). -/
theorem node_congr {H : HashFn} {m m' : Memory} {k i : Nat} (h : ∀ c, c / 2 ^ k = i → chunk m' c = chunk m c) :
    node H m' k i = node H m k i := by
  induction k generalizing i with
  | zero => rw [node, node, h i (by simp)]
  | succ k ih =>
    have below (j : Nat) (hj : j / 2 = i) : node H m' k j = node H m k j :=
      ih fun c hc => h c (by rw [Nat.pow_succ, ← Nat.div_div_eq_div_mul, hc, hj])
    rw [node, node, below _ (by omega), below _ (by omega)]

/-- The sibling's index: the other child of the same parent (R54). -/
theorem xor_one_eq (i : Nat) : i ^^^ 1 = if i % 2 = 0 then i + 1 else i - 1 := by
  split
  case isTrue h => exact Nat.xor_one_of_even (Nat.even_iff.2 h)
  case isFalse h => exact Nat.xor_one_of_odd (Nat.odd_iff.2 (by omega))

theorem xor_one_ne (i : Nat) : i ^^^ 1 ≠ i := by
  rw [xor_one_eq]; split <;> omega

/-- One step of the loop of R55: a node with its sibling gives the parent, whichever side it is on. -/
theorem node_parent (H : HashFn) (m : Memory) (k i : Nat) :
    (if i % 2 = 0 then hashPair H (node H m k i) (node H m k (i ^^^ 1))
      else hashPair H (node H m k (i ^^^ 1)) (node H m k i)) = node H m (k + 1) (i / 2) := by
  rw [node, xor_one_eq]
  split
  case isTrue h => rw [show 2 * (i / 2) = i by omega]
  case isFalse h => rw [show 2 * (i / 2) = i - 1 by omega, show i - 1 + 1 = i by omega]

/-- The loop of R55 run from any node with its siblings arrives at the node above. -/
theorem climb_siblings (H : HashFn) (m : Memory) (n k i : Nat) :
    climb H i (node H m k i) ((List.range n).map fun j => node H m (k + j) ((i >>> j) ^^^ 1)) =
      node H m (k + n) (i >>> n) := by
  induction n generalizing k i with
  | zero => simp [climb]
  | succ n ih =>
    have hup (j : Nat) : i >>> (j + 1) = (i / 2) >>> j := by
      rw [Nat.add_comm, Nat.shiftRight_add, Nat.shiftRight_one]
    have ih := ih (k + 1) (i / 2)
    simp only [Nat.add_right_comm k 1] at ih
    rw [List.range_succ_eq_map, List.map_cons, List.map_map, climb, Nat.add_zero, Nat.shiftRight_zero, node_parent, hup]
    simpa only [Function.comp_def, Nat.succ_eq_add_one, hup, ← Nat.add_assoc] using ih

/-- The root is above every chunk of the address space. -/
theorem chunkIndex_shiftRight_depth (a : Word) : chunkIndex a >>> Config.depth = 0 := by
  rw [Nat.shiftRight_eq_div_pow, Config.depth, chunkIndex, Config.chunkBytes]
  have := a.isLt
  omega

/-- R55's first equation. -/
theorem rootFrom_merkleProofWith (H : HashFn) (m : Memory) (a : Word) :
    rootFrom H (chunkIndex a) (chunk m (chunkIndex a)) (merkleProofWith H m a) = merkleRootWith H m := by
  have h := climb_siblings H m Config.depth 0 (chunkIndex a)
  simp only [Nat.zero_add, chunkIndex_shiftRight_depth] at h
  exact h

/-- Settles O54: the loop climbs from the leaf through its siblings to the root. -/
theorem merkleProofsVerify : Obligations.MerkleProofsVerify := by
  unfold Obligations.MerkleProofsVerify
  refine fun H m a => ⟨by simp [merkleProofWith, Config.depth], fun k hk => ?_, rootFrom_merkleProofWith H m a⟩
  rw [merkleProofWith, List.getElem?_map, List.getElem?_range (show k < Config.depth from hk), Option.map_some,
    Nat.shiftRight_eq_div_pow]
  rfl

/-! ### A word written (R55) -/

/-- The siblings do not change when only the chunk of the address does. -/
theorem merkleProofWith_congr {H : HashFn} {m m' : Memory} {a : Word}
    (h : ∀ c, c ≠ chunkIndex a → chunk m' c = chunk m c) : merkleProofWith H m' a = merkleProofWith H m a := by
  refine List.map_congr_left fun k _ => node_congr fun c hc => h c ?_
  rintro rfl
  rw [← Nat.shiftRight_eq_div_pow] at hc
  exact xor_one_ne _ hc.symm

/-- A chunk reads its 32 bytes. -/
theorem chunk_congr {m m' : Memory} {c : Nat}
    (h : ∀ b, b / 32 = c → Memory.readByte m' b = Memory.readByte m b) : chunk m' c = chunk m c := by
  refine List.map_congr_left fun i hi => h _ ?_
  have : i < 32 := List.mem_range.1 hi
  rw [Config.chunkBytes]
  omega

/-- Replacing a word changes no other chunk. -/
theorem chunk_setWordAt_of_ne (m : Memory) (a v : Word) {c : Nat} (hc : c ≠ chunkIndex a) :
    chunk (Memory.setWordAt m a v) c = chunk m c := by
  refine chunk_congr fun b hb => ?_
  rw [Memory.readByte_setWordAt, if_neg]
  rw [chunkIndex, Config.chunkBytes] at hc
  rw [Memory.toNat_wordBase]
  omega

@[simp] theorem length_chunk (m : Memory) (c : Nat) : (chunk m c).length = 32 := by simp [chunk, Config.chunkBytes]

theorem getElem_chunk (m : Memory) (c : Nat) {i : Nat} (hi : i < (chunk m c).length) :
    (chunk m c)[i] = Memory.readByte m (32 * c + i) := by
  simp [chunk, Config.chunkBytes]

theorem getElem_wordBytes (w : Word) {i : Nat} (hi : i < (wordBytes w).length) : (wordBytes w)[i] = byteOf w i :=
  match i, hi with
  | 0, _ | 1, _ | 2, _ | 3, _ => rfl

/-- The chunk of an aligned word with the word's four bytes replaced. -/
theorem chunk_setWordAt (m : Memory) {a : Word} (v : Word) (ha : a &&& 3#32 = 0#32) :
    chunk (Memory.setWordAt m a v) (chunkIndex a) =
      (chunk m (chunkIndex a)).take (a.toNat % 32) ++ wordBytes v ++
        (chunk m (chunkIndex a)).drop (a.toNat % 32 + 4) := by
  have hmod := (Memory.aligned_iff a).1 ha
  have hidx : 32 * chunkIndex a + a.toNat % 32 = a.toNat := Nat.div_add_mod a.toNat 32
  refine List.ext_getElem (by simp; omega) fun i _ _ => ?_
  simp only [getElem_chunk, Memory.readByte_setWordAt, Memory.wordBase_of_aligned ha, List.getElem_append,
    List.getElem_take, List.getElem_drop, getElem_wordBytes, List.length_append, List.length_take, length_chunk,
    length_wordBytes]
  by_cases hlo : i < a.toNat % 32
  · rw [if_neg (by omega), dif_pos (by omega), dif_pos (by omega)]
  by_cases hhi : i < a.toNat % 32 + 4
  · rw [if_pos (by omega), dif_pos (by omega), dif_neg (by omega)]
    congr 1; omega
  · rw [if_neg (by omega), dif_neg (by omega)]
    congr 1; omega

/-- Settles O55: only the chunk of the word changes, so the siblings are the old ones, and the new proof verifies. -/
theorem rootAfterAWriteComesFromTheOldProof : Obligations.RootAfterAWriteComesFromTheOldProof := by
  unfold Obligations.RootAfterAWriteComesFromTheOldProof
  intro H m m' a v h
  obtain ⟨ha, rfl⟩ := Memory.writeWord_eq_ok.1 h
  have hproof : merkleProofWith H (Memory.setWordAt m a v) a = merkleProofWith H m a :=
    merkleProofWith_congr fun c hc => chunk_setWordAt_of_ne m a v hc
  have hroot := rootFrom_merkleProofWith H (Memory.setWordAt m a v) a
  rw [hproof] at hroot
  exact ⟨rootFrom_merkleProofWith H m a, chunk_setWordAt m v ha, hproof, hroot.symm⟩

/-! ### Zero subtrees (R53) -/

theorem chunk_nil (c : Nat) : chunk [] c = List.replicate 32 0#8 := by
  simp [chunk, Config.chunkBytes]

/-- Every node of the empty memory is the zero hash of its level. -/
theorem node_nil (H : HashFn) (k i : Nat) : node H [] k i = zeroHash H k := by
  induction k generalizing i with
  | zero => rw [node, zeroHash, chunk_nil]; rfl
  | succ k ih => rw [node, zeroHash, ih, ih]

/-- A node over zero chunks is a node of the empty memory. -/
theorem node_eq_zeroHash {H : HashFn} {m : Memory} {k i : Nat}
    (h : ∀ c, c / 2 ^ k = i → chunk m c = List.replicate 32 0#8) : node H m k i = zeroHash H k :=
  (node_congr fun c hc => (h c hc).trans (chunk_nil c).symm).trans (node_nil H k i)

/-- An address without an entry reads as unwritten (R41). -/
theorem Memory.readByte_of_forall_ne {m : Memory} {a : Nat} (h : ∀ e ∈ m, e.1 ≠ a) : readByte m a = unwritten := by
  induction m with
  | nil => rfl
  | cons c m ih =>
    rw [readByte, if_neg (h c List.mem_cons_self)]
    exact ih fun e he => h e (List.mem_cons_of_mem c he)

/-- Under a node over no entry every chunk is zero. -/
theorem chunk_of_emptyUnder {m : Memory} {k i c : Nat} (h : emptyUnder m k i = true) (hc : c / 2 ^ k = i) :
    chunk m c = List.replicate 32 0#8 := by
  rw [← chunk_nil c]
  refine chunk_congr fun b hb => Memory.readByte_of_forall_ne fun e he heb => ?_
  have hne : e.1 / Config.chunkBytes / 2 ^ k ≠ i := of_decide_eq_true (List.all_eq_true.1 h e he)
  exact hne (by rw [heb, Config.chunkBytes, hb, hc])

/-- R53: skipping the subtrees without entries changes no node. -/
theorem sparseNode_eq_node (H : HashFn) (m : Memory) (k i : Nat) : sparseNode H m k i = node H m k i := by
  induction k generalizing i with
  | zero => rfl
  | succ k ih =>
    rw [sparseNode, ih, ih]
    split
    case isTrue h => exact (node_eq_zeroHash fun c hc => chunk_of_emptyUnder h hc).symm
    case isFalse => rfl

/-- Settles O56: zero chunks are those of the empty memory, whose nodes are the zero hashes. -/
theorem zeroSubtreesHaveTheZeroHash : Obligations.ZeroSubtreesHaveTheZeroHash := by
  unfold Obligations.ZeroSubtreesHaveTheZeroHash
  refine fun H m k i => ⟨fun h => node_eq_zeroHash fun c hc => ?_, node_nil H 27 0, sparseNode_eq_node H m k i⟩
  obtain ⟨hlo, hhi⟩ := (Nat.div_eq_iff (Nat.two_pow_pos k)).1 hc
  have hpos := Nat.two_pow_pos k
  exact h c hlo (by rw [Nat.add_one_mul]; omega)

end Sys2Proof.Machine
end

section
/-! PROOFS. The family of spec/30_encoding.md: the round trip of encoder and decoder (O1), the decoder against the
opcode table (O2), the fields it ignores (O3), the spec's sample words (O5), and what the step does with a word (O4, O6,
O53). -/

namespace Sys2Proof.Machine

/-! ### A word from its fields (R71, R72) -/

theorem rWord_fields (w : Word) :
    rWord (opField w) (rsField w) (rtField w) (rdField w) (shamtField w) (functField w) = w := by
  apply BitVec.eq_of_toNat_eq
  simp only [toNat_rWord, opField, rsField, rtField, rdField, shamtField, functField, toNat_slice_eq]
  omega

theorem iWord_of_opField {w : Word} {op : BitVec 6} (h : opField w = op) :
    iWord op (rsField w) (rtField w) (immField w) = w := by
  subst h
  apply BitVec.eq_of_toNat_eq
  simp only [toNat_iWord, opField, rsField, rtField, immField, toNat_slice_eq]
  omega

theorem jWord_of_opField {w : Word} {op : BitVec 6} (h : opField w = op) : jWord op (targetField w) = w := by
  subst h
  apply BitVec.eq_of_toNat_eq
  simp only [toNat_jWord, opField, targetField, toNat_slice_eq]
  omega

theorem encode_breakpoint_codeField {w : Word} (hop : opField w = 0#6) (hf : functField w = 13#6) :
    encode (.breakpoint (codeField w)) = w := by
  have hop' := congrArg BitVec.toNat hop
  have hf' := congrArg BitVec.toNat hf
  apply BitVec.eq_of_toNat_eq
  simp only [toNat_encode_breakpoint, opField, functField, codeField, toNat_slice_eq, BitVec.toNat_ofNat] at *
  omega

/-! ### What the decoder answers (R74, R76 to R80) -/

theorem decodeWord_of_op_zero {w : Word} (h : opField w = 0#6) : decodeWord w = decodeSpecial w := by
  simp only [decodeWord, h]

theorem decodeWord_of_op_one {w : Word} (h : opField w = 1#6) : decodeWord w = decodeRegimm w := by
  simp only [decodeWord, h]

/-- The `op` values of the coprocessor rows (R80 item 3). -/
def coprocessorOps : List (BitVec 6) :=
  [16#6, 17#6, 18#6, 19#6, 48#6, 49#6, 50#6, 51#6, 56#6, 57#6, 58#6, 59#6]

/-- The `op` values of `lwl`, `lwr`, `swl`, `swr` (R80 item 5). -/
def unalignedOps : List (BitVec 6) := [34#6, 38#6, 42#6, 46#6]

/-- The selector fields of the word name one of the 57 instructions (R75 to R78). -/
def LegalCell (w : Word) : Prop :=
  (opField w = 0#6 ∧ functField w ∈ legalFuncts) ∨
  (opField w = 1#6 ∧ rtField w ∈ [0#5, 1#5, 16#5, 17#5]) ∨
  opField w ∈ legalOps

/-- The selector fields of the word name one of the 13 rejected rows (R80 items 2 and 3). -/
def RejectedCell (w : Word) : Prop :=
  (opField w = 0#6 ∧ functField w = 13#6) ∨ opField w ∈ coprocessorOps

/-- What the decoder can answer for a word. An instruction that may fail for its encoding alone has every bit of the
word in its operands: its error reports the word (R250). -/
inductive Decoding (w : Word) : Except Reject Instr → Prop
  /-- One of the 57 instructions. -/
  | legal {i : Instr} (hc : LegalCell w) (hr : i.rejectedRow = false)
      (hu : i.unalignedWordOp = decide (opField w ∈ unalignedOps))
      (he : i.unalignedWordOp = true → encode i = w) : Decoding w (.ok i)
  /-- A rejected row. -/
  | rejected {i : Instr} (hc : RejectedCell w) (hr : i.rejectedRow = true) (he : encode i = w) : Decoding w (.ok i)
  /-- An empty cell. -/
  | empty {r : Reject} (hl : ¬ LegalCell w) (hr : ¬ RejectedCell w) : Decoding w (.error r)

theorem Decoding.ofAligned {w : Word} {i : Instr} (hc : LegalCell w) (hr : i.rejectedRow = false)
    (hu : i.unalignedWordOp = false) (hop : opField w ∉ unalignedOps) : Decoding w (.ok i) :=
  .legal hc hr (by simp [hu, hop]) (by simp [hu])

theorem decodeSpecial_decoding {w : Word} (hop : opField w = 0#6) : Decoding w (decodeSpecial w) := by
  have haligned : opField w ∉ unalignedOps := by rw [hop]; decide
  have hlegal : LegalCell w ↔ functField w ∈ legalFuncts := by simp [LegalCell, hop, legalOps]
  have hrejected : RejectedCell w ↔ functField w = 13#6 := by simp [RejectedCell, hop, coprocessorOps]
  unfold decodeSpecial
  split
  case h_10 hf => exact .rejected (hrejected.2 hf) rfl (encode_breakpoint_codeField hop hf)
  case h_29 => exact .empty (by simp_all [legalFuncts]) (by simp_all)
  all_goals next hf => exact .ofAligned (hlegal.2 (by rw [hf]; decide)) rfl rfl haligned

theorem decodeRegimm_decoding {w : Word} (hop : opField w = 1#6) : Decoding w (decodeRegimm w) := by
  have haligned : opField w ∉ unalignedOps := by rw [hop]; decide
  have hlegal : LegalCell w ↔ rtField w ∈ [0#5, 1#5, 16#5, 17#5] := by simp [LegalCell, hop, legalOps]
  unfold decodeRegimm
  split
  case h_5 => exact .empty (by simp_all) (by simp [RejectedCell, hop, coprocessorOps])
  all_goals next hrt => exact .ofAligned (hlegal.2 (by rw [hrt]; decide)) rfl rfl haligned

theorem decodeWord_decoding (w : Word) : Decoding w (decodeWord w) := by
  unfold decodeWord
  split
  case h_1 hop => exact decodeSpecial_decoding hop
  case h_2 hop => exact decodeRegimm_decoding hop
  -- `lwl`, `lwr`, `swl`, `swr`
  case h_23 hop | h_27 hop | h_30 hop | h_32 hop =>
    exact .legal (.inr (.inr (by rw [hop]; decide))) rfl (by rw [hop]; rfl) fun _ => iWord_of_opField hop
  -- the coprocessor rows
  case h_17 hop | h_18 hop | h_19 hop | h_20 hop | h_33 hop | h_34 hop | h_35 hop | h_36 hop | h_37 hop | h_38 hop |
      h_39 hop | h_40 hop =>
    exact .rejected (.inr (by rw [hop]; decide)) rfl (jWord_of_opField hop)
  case h_41 => exact .empty (by simp_all [LegalCell, legalOps]) (by simp_all [RejectedCell, coprocessorOps])
  all_goals next hop => exact .ofAligned (.inr (.inr (by rw [hop]; decide))) rfl rfl (by rw [hop]; decide)

theorem not_legalCell_of_rejectedCell {w : Word} (h : RejectedCell w) : ¬ LegalCell w := by
  obtain ⟨hop, hf⟩ | hop := h
  · simp [LegalCell, hop, hf, legalFuncts, legalOps]
  · have hops : ∀ op ∈ coprocessorOps, op ≠ 0#6 ∧ op ≠ 1#6 ∧ op ∉ legalOps := by decide
    obtain ⟨h0, h1, hl⟩ := hops _ hop
    simp [LegalCell, h0, h1, hl]

/-- R80's list: the words outside the legal cells, and the partial-word operations while they are off. -/
theorem illegalWord_iff {cfg : Config} {w : Word} :
    IllegalWord cfg w ↔ ¬ LegalCell w ∨ (cfg.unalignedWordOps = false ∧ opField w ∈ unalignedOps) := by
  by_cases h0 : opField w = 0#6
  · simp [IllegalWord, LegalCell, unalignedOps, h0, legalOps]
  by_cases h1 : opField w = 1#6
  · simp [IllegalWord, LegalCell, unalignedOps, h1, legalOps]
  · simp [IllegalWord, LegalCell, unalignedOps, h0, h1]

/-! ### R74's `decode` -/

theorem decode_of_decodeWord {cfg : Config} {w : Word} {i : Instr} (h : decodeWord w = .ok i) :
    decode cfg w = if i.wellFormed cfg then some i else none := by
  rw [decode, h]

theorem decode_eq_some_iff {cfg : Config} {w : Word} {i : Instr} :
    decode cfg w = some i ↔ decodeWord w = .ok i ∧ i.wellFormed cfg = true := by
  cases hw : decodeWord w with
  | error r => simp [decode, hw]
  | ok j =>
    rw [decode_of_decodeWord hw, Option.ite_none_right_eq_some, Option.some_inj, Except.ok.injEq]
    exact ⟨fun ⟨h, e⟩ => ⟨e, e ▸ h⟩, fun ⟨e, h⟩ => ⟨e ▸ h, e⟩⟩

theorem decode_eq_none_iff {cfg : Config} {w : Word} : decode cfg w = none ↔ IllegalWord cfg w := by
  have hd := decodeWord_decoding w
  rw [illegalWord_iff]
  generalize hw : decodeWord w = r at hd
  cases hd with
  | legal hc hr hu => simp [decode_of_decodeWord hw, Instr.wellFormed, hc, hr, hu]
  | rejected hc hr => simp [decode_of_decodeWord hw, Instr.wellFormed, hr, not_legalCell_of_rejectedCell hc]
  | empty hl => simp [decode, hw, hl]

/-! ### The round trip -/

/-- Each format gives back the fields it was built from, and the selector fields lead to the instruction's own cell. -/
theorem decodeWord_encode (i : Instr) : decodeWord (encode i) = .ok i := by
  cases i
  case breakpoint code => simp [decodeWord, decodeSpecial]
  all_goals simp [encode, decodeWord, decodeSpecial, decodeRegimm]

theorem decodeBytes_eq_ok {b0 b1 b2 b3 : Byte} {rest rest' : List Byte} {i : Instr} :
    decodeBytes (b0 :: b1 :: b2 :: b3 :: rest) = .ok (i, rest') ↔
      decodeWord (wordOfBytes b0 b1 b2 b3) = .ok i ∧ rest = rest' := by
  cases h : decodeWord (wordOfBytes b0 b1 b2 b3) <;> simp [decodeBytes, h]

/-- Settles O1: a word is its four bytes, and the fields of an encoded word lead back to the instruction. -/
theorem decodeOfEncodeIsTheInstruction : Obligations.DecodeOfEncodeIsTheInstruction := by
  unfold Obligations.DecodeOfEncodeIsTheInstruction
  refine ⟨fun i rest => decodeBytes_eq_ok.2 ⟨?_, rfl⟩, fun cfg i => decode_of_decodeWord (decodeWord_encode i)⟩
  rw [wordOfBytes_byteOf, decodeWord_encode]

/-! ### The rows of the opcode table -/

theorem mem_opcodeTable {row : OpcodeRow} :
    row ∈ opcodeTable ↔ row ∈ specialRows ∨ row ∈ regimmRows ∨ row ∈ primaryRows ++ coprocessorRows := by
  simp [opcodeTable]

theorem and_specialMask_eq_iff {v w : Word} :
    v &&& 0xFC00003F = w &&& 0xFC00003F ↔ opField v = opField w ∧ functField v = functField w := by
  have hmask (w : Word) : w &&& 0xFC00003F = rWord (opField w) 0 0 0 0 (functField w) := by
    conv_lhs => rw [← rWord_fields w]
    exact rWord_selector ..
  rw [hmask, hmask]
  refine ⟨fun h => ⟨by simpa using congrArg opField h, by simpa using congrArg functField h⟩, ?_⟩
  rintro ⟨hop, hf⟩
  rw [hop, hf]

theorem and_regimmMask_eq_iff {v w : Word} :
    v &&& 0xFC1F0000 = w &&& 0xFC1F0000 ↔ opField v = opField w ∧ rtField v = rtField w := by
  have hmask (w : Word) : w &&& 0xFC1F0000 = iWord (opField w) 0 (rtField w) 0 := by
    conv_lhs => rw [← iWord_of_opField (w := w) rfl]
    exact iWord_regimm_selector ..
  rw [hmask, hmask]
  refine ⟨fun h => ⟨by simpa using congrArg opField h, by simpa using congrArg rtField h⟩, ?_⟩
  rintro ⟨hop, hrt⟩
  rw [hop, hrt]

theorem and_opMask_eq_iff {v w : Word} : v &&& 0xFC000000 = w &&& 0xFC000000 ↔ opField v = opField w := by
  have hmask (w : Word) : w &&& 0xFC000000 = jWord (opField w) 0 := by
    conv_lhs => rw [← jWord_of_opField (w := w) rfl]
    exact jWord_selector ..
  rw [hmask, hmask]
  exact ⟨fun h => by simpa using congrArg opField h, fun h => by rw [h]⟩

/-- A word fits a row when it agrees with the row's pattern under the row's mask. -/
theorem fits_iff {row : OpcodeRow} (hrow : row ∈ opcodeTable) {w : Word} :
    row.fits w = true ↔ w &&& row.mask = row.pattern &&& row.mask := by
  have hpattern : ∀ row ∈ opcodeTable, row.pattern &&& row.mask = row.pattern := by decide
  rw [OpcodeRow.fits, beq_iff_eq, hpattern row hrow]

theorem fits_specialRow {row : OpcodeRow} (hrow : row ∈ specialRows) {w : Word} :
    row.fits w = true ↔ opField w = 0#6 ∧ functField w = functField row.pattern := by
  have hmask : ∀ row ∈ specialRows, row.mask = 0xFC00003F ∧ opField row.pattern = 0#6 := by decide
  obtain ⟨hm, hop⟩ := hmask row hrow
  rw [fits_iff (mem_opcodeTable.2 (.inl hrow)), hm, and_specialMask_eq_iff, hop]

theorem fits_regimmRow {row : OpcodeRow} (hrow : row ∈ regimmRows) {w : Word} :
    row.fits w = true ↔ opField w = 1#6 ∧ rtField w = rtField row.pattern := by
  have hmask : ∀ row ∈ regimmRows, row.mask = 0xFC1F0000 ∧ opField row.pattern = 1#6 := by decide
  obtain ⟨hm, hop⟩ := hmask row hrow
  rw [fits_iff (mem_opcodeTable.2 (.inr (.inl hrow))), hm, and_regimmMask_eq_iff, hop]

theorem fits_opRow {row : OpcodeRow} (hrow : row ∈ primaryRows ++ coprocessorRows) {w : Word} :
    row.fits w = true ↔ opField w = opField row.pattern := by
  have hmask : ∀ row ∈ primaryRows ++ coprocessorRows, row.mask = 0xFC000000 := by decide
  rw [fits_iff (mem_opcodeTable.2 (.inr (.inr hrow))), hmask row hrow, and_opMask_eq_iff]

/-- The decoder answers an instruction of the row. -/
def DecodesAs (row : OpcodeRow) (w : Word) : Prop :=
  ∃ i, decodeWord w = .ok i ∧ i.mnemonic = row.mnemonic ∧ i.rejectedRow = !row.legal

theorem decodesAs_of_fits {row : OpcodeRow} (hrow : row ∈ opcodeTable) {w : Word} (hw : row.fits w = true) :
    DecodesAs row w := by
  unfold DecodesAs
  obtain hrow | hrow | hrow := mem_opcodeTable.1 hrow
  · obtain ⟨hop, hf⟩ := (fits_specialRow hrow).1 hw
    rw [decodeWord_of_op_zero hop, decodeSpecial, hf]
    fin_cases hrow <;> exact ⟨_, rfl, rfl, rfl⟩
  · obtain ⟨hop, hrt⟩ := (fits_regimmRow hrow).1 hw
    rw [decodeWord_of_op_one hop, decodeRegimm, hrt]
    fin_cases hrow <;> exact ⟨_, rfl, rfl, rfl⟩
  · have hop := (fits_opRow hrow).1 hw
    rw [decodeWord, hop]
    fin_cases hrow <;> exact ⟨_, rfl, rfl, rfl⟩

/-- Every cell that is not empty has a row. -/
theorem exists_row_fits {w : Word} {i : Instr} (h : decodeWord w = .ok i) :
    ∃ row ∈ opcodeTable, row.fits w = true := by
  have hfuncts : ∀ f ∈ 13#6 :: legalFuncts, ∃ row ∈ specialRows, f = functField row.pattern := by decide
  have hrts : ∀ rt ∈ [0#5, 1#5, 16#5, 17#5], ∃ row ∈ regimmRows, rt = rtField row.pattern := by decide
  have hops : ∀ op ∈ legalOps ++ coprocessorOps,
      ∃ row ∈ primaryRows ++ coprocessorRows, op = opField row.pattern := by decide
  have hspecial (hop : opField w = 0#6) (hf : functField w ∈ 13#6 :: legalFuncts) :
      ∃ row ∈ opcodeTable, row.fits w = true := by
    obtain ⟨row, hrow, hf⟩ := hfuncts _ hf
    exact ⟨row, mem_opcodeTable.2 (.inl hrow), (fits_specialRow hrow).2 ⟨hop, hf⟩⟩
  have hprimary (hop : opField w ∈ legalOps ++ coprocessorOps) : ∃ row ∈ opcodeTable, row.fits w = true := by
    obtain ⟨row, hrow, hop⟩ := hops _ hop
    exact ⟨row, mem_opcodeTable.2 (.inr (.inr hrow)), (fits_opRow hrow).2 hop⟩
  have hd := decodeWord_decoding w
  rw [h] at hd
  cases hd with
  | legal hc =>
    obtain ⟨hop, hf⟩ | ⟨hop, hrt⟩ | hop := hc
    · exact hspecial hop (List.mem_cons_of_mem _ hf)
    · obtain ⟨row, hrow, hrt⟩ := hrts _ hrt
      exact ⟨row, mem_opcodeTable.2 (.inr (.inl hrow)), (fits_regimmRow hrow).2 ⟨hop, hrt⟩⟩
    · exact hprimary (List.mem_append_left _ hop)
  | rejected hc =>
    obtain ⟨hop, hf⟩ | hop := hc
    · exact hspecial hop (hf ▸ List.mem_cons_self)
    · exact hprimary (List.mem_append_right _ hop)

/-- No two rows of the table bear one mnemonic. -/
theorem row_eq_of_mnemonic_eq {row row' : OpcodeRow} (h : row ∈ opcodeTable) (h' : row' ∈ opcodeTable)
    (hm : row.mnemonic = row'.mnemonic) : row = row' :=
  have hnodup : (opcodeTable.map OpcodeRow.mnemonic).Nodup := by decide
  List.inj_on_of_nodup_map hnodup h h' hm

/-- Settles O2: mask and pattern of a row fix the selector fields the decoder splits on, every cell that decodes has a
row, and two rows that fit name the one decoded instruction. -/
theorem decoderFollowsTheOpcodeTable : Obligations.DecoderFollowsTheOpcodeTable := by
  unfold Obligations.DecoderFollowsTheOpcodeTable
  refine fun w => ⟨fun row hrow => decodesAs_of_fits hrow, fun i hi => ?_, fun row hrow row' hrow' hw hw' => ?_⟩
  · obtain ⟨row, hrow, hw⟩ := exists_row_fits hi
    obtain ⟨j, hj, hm, -⟩ := decodesAs_of_fits hrow hw
    cases hi.symm.trans hj
    exact ⟨row, hrow, hw, hm.symm⟩
  · obtain ⟨i, hi, hm, -⟩ := decodesAs_of_fits hrow hw
    obtain ⟨j, hj, hm', -⟩ := decodesAs_of_fits hrow' hw'
    cases hi.symm.trans hj
    exact row_eq_of_mnemonic_eq hrow hrow' (hm.symm.trans hm')

/-! ### Ignored fields (R79) -/

/-- Settles O3: with the selector fields known, the cell's instruction mentions the used fields alone. -/
theorem unusedFieldsAreIgnored : Obligations.UnusedFieldsAreIgnored := by
  unfold Obligations.UnusedFieldsAreIgnored
  intro v w hv
  refine ⟨fun hw hfv => ?_, fun hw hrt himm => ?_, fun hw hrs himm => ?_⟩
  · rw [decodeWord_of_op_zero (hv.trans hw), decodeWord_of_op_zero hw, decodeSpecial, decodeSpecial, hfv]
    generalize functField w = f
    refine ⟨fun hf hrt hrd hsh => ?_, fun hf hrs hrt hrd => ?_, fun hf hrs => ?_, fun hf hrs hrd => ?_, fun hf => ?_,
      fun hf hrd => ?_, fun hf hrs => ?_, fun hf hrs hrt => ?_⟩
    · fin_cases hf <;> simp only [hrt, hrd, hsh]
    · fin_cases hf <;> simp only [hrs, hrt, hrd]
    · simp only [hf, hrs]
    · simp only [hf, hrs, hrd]
    · simp only [hf]
    · fin_cases hf <;> simp only [hrd]
    · fin_cases hf <;> simp only [hrs]
    · fin_cases hf <;> simp only [hrs, hrt]
  · simp only [decodeWord, hv, hw, hrt, himm]
  · rw [decodeWord, decodeWord, hv]
    generalize opField w = op at hw
    fin_cases hw <;> simp only [hrs, himm]

/-! ### Words the step rejects (R80, R94) -/

theorem encode_of_not_wellFormed {cfg : Config} {w : Word} {i : Instr} (h : decodeWord w = .ok i)
    (hi : i.wellFormed cfg = false) : encode i = w := by
  have hd := decodeWord_decoding w
  rw [h] at hd
  cases hd with
  | legal hc hr hu he => exact he (by simp_all [Instr.wellFormed])
  | rejected hc hr he => exact he

/-- What R74's `decode` rejects although the table names it fails in its meaning, with its word. -/
theorem exec_of_not_wellFormed {i : Instr} {s : State} (hi : i.wellFormed s.cfg = false) :
    exec i s = .fault (.illegalInstruction (encode i)) := by
  cases i
  case lwl | lwr | swl | swr =>
    have hoff : s.cfg.unalignedWordOps = false := by
      simpa [Instr.wellFormed, Instr.rejectedRow, Instr.unalignedWordOp] using hi
    exact if_neg (by simp [hoff])
  case breakpoint | cop0 | cop1 | cop2 | cop3 | lwc0 | lwc1 | lwc2 | lwc3 | swc0 | swc1 | swc2 | swc3 => rfl
  all_goals simp [Instr.wellFormed, Instr.rejectedRow, Instr.unalignedWordOp] at hi

/-- R94: a word outside the 57 instructions fails the step, whether the decoder or the meaning rejects it. -/
theorem step_of_decode_eq_none {s : State} (he : s.exited = false) (ha : s.pc &&& 3#32 = 0#32)
    (hd : decode s.cfg (Memory.wordAt s.mem s.pc) = none) :
    step s = .fault (.illegalInstruction (Memory.wordAt s.mem s.pc)) := by
  cases hw : decodeWord (Memory.wordAt s.mem s.pc) with
  | error r => simp [step, he, fetch, Memory.readWord_of_aligned ha, hw, raise]
  | ok i =>
    have hi : i.wellFormed s.cfg = false := by simpa [decode_of_decodeWord hw] using hd
    rw [step_of_decode he ha hw, exec_of_not_wellFormed hi, encode_of_not_wellFormed hw hi]

/-- Settles O4: `decode` gives none exactly on R80's words; on those the step fails, on the others it executes. -/
theorem illegalWordsFailTheStep : Obligations.IllegalWordsFailTheStep := by
  unfold Obligations.IllegalWordsFailTheStep
  refine ⟨fun cfg w => ⟨decode_eq_none_iff, fun i hi => (decode_eq_some_iff.1 hi).2⟩, ?_⟩
  rintro s w he ha rfl
  refine ⟨fun hw => step_of_decode_eq_none he ha (decode_eq_none_iff.2 hw), fun hw => ?_⟩
  obtain ⟨i, hi⟩ := Option.ne_none_iff_exists'.1 (mt decode_eq_none_iff.1 hw)
  exact ⟨i, hi, step_of_decode he ha (decode_eq_some_iff.1 hi).1⟩

theorem decodeWord_and_exec_of_rejectedRow {i : Instr} (hi : i.rejectedRow = true) (s : State) :
    decodeWord (encode i) = .ok i ∧ exec i s = .fault (.illegalInstruction (encode i)) :=
  ⟨decodeWord_encode i, exec_of_not_wellFormed (by simp [Instr.wellFormed, hi])⟩

/-- Settles O53: the words are the encodings of the rejected rows. -/
theorem rejectedRowsAlwaysFail : Obligations.RejectedRowsAlwaysFail := by
  unfold Obligations.RejectedRowsAlwaysFail
  intro s code low
  constructor
  · rintro w rfl
    exact decodeWord_and_exec_of_rejectedRow (i := .breakpoint code) rfl s
  · intro p hp
    obtain ⟨hrow, hword⟩ : p.2.rejectedRow = true ∧ encode p.2 = jWord p.1 low := by
      fin_cases hp <;> exact ⟨rfl, rfl⟩
    rw [← hword]
    exact decodeWord_and_exec_of_rejectedRow hrow s

/-! ### The fetched instruction (R93, R94, R98) -/

/-- Settles O6: the four bytes at an aligned `PC` are the fetched word. -/
theorem stepRunsTheDecodedInstruction : Obligations.StepRunsTheDecodedInstruction := by
  unfold Obligations.StepRunsTheDecodedInstruction
  intro s i he ha hd
  refine step_of_decode he ha ?_
  rw [Memory.wordAt, Memory.wordBase_of_aligned ha]
  exact (decodeBytes_eq_ok.1 hd).1

/-- Settles O5: the decoder evaluated on each word. -/
theorem sampleWordsDecode : Obligations.SampleWordsDecode := by
  unfold Obligations.SampleWordsDecode
  exact ⟨rfl, rfl, rfl, rfl, rfl, rfl, rfl, rfl, rfl, rfl, rfl, rfl, rfl, rfl, rfl⟩

end Sys2Proof.Machine
end

section
/-! PROOFS. The family of spec/40_step_cycle.md: the three outcomes of a step, each with its witness or without one (O7),
and what a step takes from the oracle (O10). -/

namespace Sys2Proof.Machine

/-! ### Which steps have a witness (R90, R236) -/

theorem witnessWith_of_halted (H : HashFn) {s : State} (he : s.exited = true) : witnessWith H s = none := if_pos he

theorem witnessWith_of_fault (H : HashFn) {s : State} {e : Fault} (h : step s = .fault e) : witnessWith H s = none := by
  unfold witnessWith
  rw [h]
  exact ite_self none

/-- A completed step has the witness of the instruction it executed. -/
theorem witnessWith_of_decode (H : HashFn) {s t : State} {i : Instr} (h : step s = .next t)
    (hd : decodeWord (Memory.wordAt s.mem s.pc) = .ok i) : witnessWith H s = some (witnessOf H i s) := by
  obtain ⟨he, hpc, -⟩ := step_eq_next h
  simp [witnessWith, he, h, fetch, Memory.readWord_of_aligned hpc, hd]

theorem exited_of_step_fault {s : State} {e : Fault} (h : step s = .fault e) : s.exited = false := by
  refine Bool.eq_false_iff.2 fun he => ?_
  rw [step_halted he] at h
  cases h

/-- Settles O7: a step completes, fails or is refused, and it is refused on a halted state alone. -/
theorem stepHasExactlyThreeOutcomes : Obligations.StepHasExactlyThreeOutcomes := by
  unfold Obligations.StepHasExactlyThreeOutcomes
  intro H s
  cases h : step s with
  | next t =>
    obtain ⟨he, -, i, hd, -⟩ := step_eq_next h
    exact .inr (.inl ⟨he, ⟨t, rfl⟩, _, witnessWith_of_decode H h hd⟩)
  | fault e => exact .inr (.inr ⟨exited_of_step_fault h, ⟨e, rfl⟩, witnessWith_of_fault H h⟩)
  | refused r =>
    obtain ⟨he, rfl⟩ := step_eq_refused.1 h
    exact .inl ⟨he, rfl, witnessWith_of_halted H he⟩

/-! ### The same execution under another oracle (R100) -/

/-- A state under another oracle. -/
def State.withOracle (s : State) (o : Oracle) : State := { s with oracle := o }

/-- An answer with its next state, if it has one, under another oracle. -/
def Result.withOracle (o : Oracle) : Result → Result
  | .next t => .next (t.withOracle o)
  | .fault e => .fault e
  | .refused r => .refused r

theorem State.setReg_withOracle (s : State) (o : Oracle) (r : Reg) (v : Word) :
    (s.withOracle o).setReg r v = (s.setReg r v).withOracle o := by
  unfold State.setReg
  split <;> rfl

theorem State.emit_withOracle (s : State) (o : Oracle) (fd : Word) (bytes : List Byte) :
    (s.withOracle o).emit fd bytes = (s.emit fd bytes).withOracle o := by
  unfold State.emit
  split <;> rfl

section OtherOracle

variable {s : State} {o : Oracle}

theorem Result.ite_withOracle {p : Prop} [Decidable p] {r₁ r₂ r₁' r₂' : Result} (h₁ : r₁' = Result.withOracle o r₁)
    (h₂ : r₂' = Result.withOracle o r₂) :
    (if p then r₁' else r₂') = Result.withOracle o (if p then r₁ else r₂) := by
  split
  · exact h₁
  · exact h₂

theorem loaded_withOracle (rt : Reg) (v : Word) :
    loaded rt v (s.withOracle o) = Result.withOracle o (loaded rt v s) :=
  congrArg complete (s.setReg_withOracle o rt v)

theorem loadedIf_withOracle (rt : Reg) (r : Except Fault Word) :
    loadedIf rt r (s.withOracle o) = Result.withOracle o (loadedIf rt r s) := by
  cases r with
  | ok v => exact loaded_withOracle rt v
  | error e => rfl

theorem storedIf_withOracle (r : Except Fault Memory) :
    storedIf r (s.withOracle o) = Result.withOracle o (storedIf r s) := by
  cases r with
  | ok m => rfl
  | error e => rfl

theorem unalignedOnly_withOracle (i : Instr) {r r' : Result} (hr : r' = Result.withOracle o r) :
    unalignedOnly i r' (s.withOracle o) = Result.withOracle o (unalignedOnly i r s) :=
  Result.ite_withOracle hr rfl

theorem transferCheck_withOracle {r r' : Result} (hr : r' = Result.withOracle o r) :
    transferCheck (s.withOracle o) r' = Result.withOracle o (transferCheck s r) :=
  Result.ite_withOracle rfl hr

theorem branchIf_withOracle (c : Bool) (imm : BitVec 16) {t t' : State} (ht : t' = t.withOracle o) :
    branchIf c imm (s.withOracle o) t' = Result.withOracle o (branchIf c imm s t) := by
  subst ht
  exact Result.ite_withOracle rfl rfl

theorem returns_withOracle (v : Word) {t t' : State} (ht : t' = t.withOracle o) :
    returns v t' = Result.withOracle o (returns v t) := by
  subst ht
  unfold returns
  rw [State.setReg_withOracle, State.setReg_withOracle]
  rfl

/-- The hypothesis of R100, read off the state under the other oracle. -/
theorem State.oracle_get_withOracle (ho : o.get s.pkey = s.oracle.get s.pkey) :
    (s.withOracle o).oracle.get (s.withOracle o).pkey = s.oracle.get s.pkey := ho

/-- R222: a preimage read asks the oracle for `pkey` and nothing else. -/
theorem readPreimage_withOracle (ho : o.get s.pkey = s.oracle.get s.pkey) :
    readPreimage (s.withOracle o) = Result.withOracle o (readPreimage s) := by
  unfold readPreimage
  rw [State.oracle_get_withOracle ho]
  cases s.oracle.get s.pkey with
  | none => rfl
  | some v => exact Result.ite_withOracle (returns_withOracle _ rfl) (returns_withOracle _ rfl)

/-- Of the system calls only a preimage read asks the oracle (R220). -/
theorem execSyscall_withOracle (ho : o.get s.pkey = s.oracle.get s.pkey) :
    execSyscall (s.withOracle o) = Result.withOracle o (execSyscall s) := by
  have hcall : (s.withOracle o).call = s.call := rfl
  unfold execSyscall
  rw [hcall]
  cases s.call with
  | exit | unknownNumber | unknownDescriptor => rfl
  | brk | mmap | clone | readStdin => exact returns_withOracle _ rfl
  | readPreimage => exact readPreimage_withOracle ho
  | writeSink => exact returns_withOracle _ (s.emit_withOracle o _ _)
  | writePreimage => exact Result.ite_withOracle (returns_withOracle _ rfl) (returns_withOracle _ rfl)

/-- R100: every instruction answers the same under an oracle that answers the same at `pkey`. -/
theorem exec_withOracle (i : Instr) (ho : o.get s.pkey = s.oracle.get s.pkey) :
    exec i (s.withOracle o) = Result.withOracle o (exec i s) := by
  cases i
  case syscall => exact execSyscall_withOracle ho
  case mult | multu | mthi | mtlo | sb => rfl
  case div | divu => exact Result.ite_withOracle rfl rfl
  case sll | srl | sra | sllv | srlv | srav | add | addu | sub | subu | and | or | xor | nor | slt | sltu | addi | addiu
    | slti | sltiu | andi | ori | xori | lui | mfhi | mflo | lb | lbu => exact loaded_withOracle _ _
  case lh | lhu | lw => exact loadedIf_withOracle _ _
  case lwl | lwr => exact unalignedOnly_withOracle _ (loaded_withOracle _ _)
  case sh | sw => exact storedIf_withOracle _
  case swl | swr => exact unalignedOnly_withOracle _ rfl
  case j | jr => exact transferCheck_withOracle rfl
  case jal | jalr => exact transferCheck_withOracle (congrArg (completeTo _) (s.setReg_withOracle o _ _))
  case beq | bne | blez | bgtz | bltz | bgez => exact transferCheck_withOracle (branchIf_withOracle _ _ rfl)
  case bltzal | bgezal =>
    exact transferCheck_withOracle (branchIf_withOracle _ _ (s.setReg_withOracle o _ _))
  case breakpoint | cop0 | cop1 | cop2 | cop3 | lwc0 | lwc1 | lwc2 | lwc3 | swc0 | swc1 | swc2 | swc3 => rfl

/-- R100: the halt check, the fetch and the decoder do not ask the oracle. -/
theorem step_withOracle (ho : o.get s.pkey = s.oracle.get s.pkey) :
    step (s.withOracle o) = Result.withOracle o (step s) := by
  have hfetch : fetch (s.withOracle o) = fetch s := rfl
  refine Result.ite_withOracle rfl ?_
  rw [hfetch]
  cases fetch s with
  | error e => rfl
  | ok word =>
    dsimp only
    cases decodeWord word with
    | error r => rfl
    | ok i => exact exec_withOracle i ho

/-! ### The same witness under another oracle -/

/-- R234: whether a preimage read accesses memory depends on the value of `pkey` alone. -/
theorem dataAccess_withOracle (i : Instr) (ho : o.get s.pkey = s.oracle.get s.pkey) :
    dataAccess i (s.withOracle o) = dataAccess i s := by
  cases i
  case syscall =>
    change preimageAccess (s.withOracle o) = preimageAccess s
    unfold preimageAccess
    rw [State.oracle_get_withOracle ho]
    rfl
  all_goals rfl

/-- R235: the event holds the value of `pkey` and no other. -/
theorem preimageEvent_withOracle (i : Instr) (ho : o.get s.pkey = s.oracle.get s.pkey) :
    preimageEvent i (s.withOracle o) = preimageEvent i s := by
  unfold preimageEvent syscallEvent
  rw [State.oracle_get_withOracle ho]
  rfl

theorem witnessOf_withOracle (H : HashFn) (i : Instr) (ho : o.get s.pkey = s.oracle.get s.pkey) :
    witnessOf H i (s.withOracle o) = witnessOf H i s := by
  unfold witnessOf
  rw [dataAccess_withOracle i ho, preimageEvent_withOracle i ho]
  rfl

theorem witnessWith_withOracle (H : HashFn) (ho : o.get s.pkey = s.oracle.get s.pkey) :
    witnessWith H (s.withOracle o) = witnessWith H s := by
  have hstep := step_withOracle ho
  cases h : step s with
  | next t =>
    rw [h] at hstep
    obtain ⟨-, -, i, hd, -⟩ := step_eq_next h
    calc witnessWith H (s.withOracle o)
      _ = some (witnessOf H i (s.withOracle o)) := witnessWith_of_decode H hstep hd
      _ = some (witnessOf H i s) := by rw [witnessOf_withOracle H i ho]
      _ = witnessWith H s := (witnessWith_of_decode H h hd).symm
  | fault e =>
    rw [h] at hstep
    rw [witnessWith_of_fault H hstep, witnessWith_of_fault H h]
  | refused r =>
    have he := (step_eq_refused.1 h).1
    rw [witnessWith_of_halted H (s := s.withOracle o) he, witnessWith_of_halted H he]

end OtherOracle

/-- Settles O10: the step under the other oracle is the step, its next state under the other oracle. -/
theorem oracleMattersOnlyAtTheCurrentKey : Obligations.OracleMattersOnlyAtTheCurrentKey := by
  unfold Obligations.OracleMattersOnlyAtTheCurrentKey
  intro H s o ho
  have hstep {r : Result} (h : step s = r) : step (s.withOracle o) = Result.withOracle o r := h ▸ step_withOracle ho
  exact ⟨fun _ => hstep, fun _ => hstep, fun _ => hstep, witnessWith_withOracle H ho⟩

end Sys2Proof.Machine
end

section
/-! PROOFS. The family of spec/41_alu.md: the register-register instructions (O23 to O25) and the register-immediate
ones (O26, O27). Each obligation is made of the word's own cell, the one register write every instruction here is (R110),
and the value it writes. -/

namespace Sys2Proof.Machine

/-! ### Words with any `shamt` or `rs` (R79) -/

/-- The register-register instructions ignore `shamt`. -/
theorem decodeWord_rWord_of_encode {i : Instr} {rs rt rd : Reg} {f : BitVec 6} (shamt : BitVec 5)
    (hf : f ∈ [4#6, 6#6, 7#6, 32#6, 33#6, 34#6, 35#6, 36#6, 37#6, 38#6, 39#6, 42#6, 43#6])
    (hi : encode i = rWord 0 rs rt rd 0 f) : decodeWord (rWord 0 rs rt rd shamt f) = .ok i := by
  obtain ⟨hSpecial, -, -⟩ := unusedFieldsAreIgnored (rWord 0 rs rt rd shamt f) (rWord 0 rs rt rd 0 f) (by simp)
  obtain ⟨-, hReg, -⟩ := hSpecial (by simp) (by simp)
  rw [hReg (by simpa using hf) (by simp) (by simp) (by simp), ← hi, decodeWord_encode]

/-- `lui` ignores `rs`. -/
theorem decodeWord_lui (rs rt : Reg) (imm : BitVec 16) : decodeWord (iWord 15 rs rt imm) = .ok (.lui rt imm) := by
  obtain ⟨-, hLui, -⟩ := unusedFieldsAreIgnored (iWord 15 rs rt imm) (encode (.lui rt imm)) (by simp [encode])
  rw [hLui (by simp [encode]) (by simp [encode]) (by simp [encode]), decodeWord_encode]

/-! ### One register written (R110) -/

/-- An instruction that is one register write and a retirement in sequence, its value in the statement's form. -/
theorem exec_writesOnlyReg {i : Instr} {s : State} {rd : Reg} {v w : Word} (hi : exec i s = complete (s.setReg rd v))
    (hv : v = w) : ∃ t, exec i s = .next t ∧ WritesOnlyReg rd w s t :=
  ⟨_, hi, hv ▸ writesOnlyReg_advance s rd v⟩

/-- The same with the value known bit by bit. -/
theorem exec_writesOnlyReg_bits {i : Instr} {s : State} {rd : Reg} {v : Word} {b : Nat → Bool}
    (hi : exec i s = complete (s.setReg rd v)) (hv : ∀ k < 32, v.getLsbD k = b k) :
    ∃ t w, exec i s = .next t ∧ WritesOnlyReg rd w s t ∧ ∀ k < 32, w.getLsbD k = b k :=
  ⟨_, v, hi, writesOnlyReg_advance s rd v, hv⟩

/-! ### The values (R111 to R128) -/

theorem add_eq_ofNat (a b : Word) : a + b = BitVec.ofNat 32 (a.toNat + b.toNat) := by
  rw [BitVec.ofNat_add, BitVec.ofNat_toNat, BitVec.ofNat_toNat, BitVec.setWidth_eq, BitVec.setWidth_eq]

theorem sub_eq_ofInt (a b : Word) : a - b = BitVec.ofInt 32 (a.toNat - b.toNat) := by
  rw [Int.sub_eq_add_neg, BitVec.ofInt_add, BitVec.ofInt_neg, ← BitVec.sub_eq_add_neg]
  simp

theorem boolWord_decide (p : Prop) [Decidable p] : boolWord (decide p) = if p then 1#32 else 0#32 := by
  simp [boolWord]

theorem toInt_sext16 (imm : BitVec 16) : (sext16 imm).toInt = imm.toInt := BitVec.toInt_signExtend_of_le (by decide)

/-- A word is its upper and its lower half. -/
theorem halves_append (a : Word) : a.extractLsb' 16 16 ++ a.extractLsb' 0 16 = a :=
  (BitVec.extractLsb'_append_extractLsb'_eq_extractLsb' (start₁ := 0) (len₁ := 16) rfl).trans BitVec.extractLsb'_eq_self

theorem zext16_eq_append (imm : BitVec 16) : zext16 imm = 0#16 ++ imm := BitVec.setWidth_eq_append (by decide)

theorem and_zext16 (a : Word) (imm : BitVec 16) : a &&& zext16 imm = 0#16 ++ (a.extractLsb' 0 16 &&& imm) := by
  conv_lhs => rw [← halves_append a, zext16_eq_append, BitVec.and_append, BitVec.and_zero]

theorem or_zext16 (a : Word) (imm : BitVec 16) :
    a ||| zext16 imm = a.extractLsb' 16 16 ++ (a.extractLsb' 0 16 ||| imm) := by
  conv_lhs => rw [← halves_append a, zext16_eq_append, BitVec.or_append, BitVec.or_zero]

theorem xor_zext16 (a : Word) (imm : BitVec 16) :
    a ^^^ zext16 imm = a.extractLsb' 16 16 ++ (a.extractLsb' 0 16 ^^^ imm) := by
  conv_lhs => rw [← halves_append a, zext16_eq_append, BitVec.xor_append, BitVec.xor_zero]

theorem upperImm_eq_ofNat (imm : BitVec 16) : upperImm imm = BitVec.ofNat 32 (imm.toNat * 65536) := by
  apply BitVec.eq_of_toNat_eq
  rw [upperImm, toNat_append_eq, BitVec.toNat_ofNat, BitVec.toNat_ofNat]
  omega

/-! ### The obligations -/

/-- Settles O23: sums and differences of words are those of their numbers, modulo 2^32. -/
theorem addAndSubWrap : Obligations.AddAndSubWrap := by
  unfold Obligations.AddAndSubWrap
  intro s rd rs rt shamt
  have hadd := add_eq_ofNat (s.reg rs) (s.reg rt)
  have hsub := sub_eq_ofInt (s.reg rs) (s.reg rt)
  refine ⟨⟨?_, exec_writesOnlyReg rfl hadd⟩, ⟨?_, exec_writesOnlyReg rfl hadd⟩, ⟨?_, exec_writesOnlyReg rfl hsub⟩,
    ⟨?_, exec_writesOnlyReg rfl hsub⟩⟩
  all_goals exact decodeWord_rWord_of_encode shamt (by decide) rfl

/-- Settles O24: each operation of the model on words is the operation on their bits. -/
theorem bitwiseInstructionsWorkBitByBit : Obligations.BitwiseInstructionsWorkBitByBit := by
  unfold Obligations.BitwiseInstructionsWorkBitByBit
  intro s rd rs rt shamt
  refine ⟨⟨?_, exec_writesOnlyReg_bits rfl fun _ _ => BitVec.getLsbD_and⟩,
    ⟨?_, exec_writesOnlyReg_bits rfl fun _ _ => BitVec.getLsbD_or⟩,
    ⟨?_, exec_writesOnlyReg_bits rfl fun _ _ => BitVec.getLsbD_xor⟩,
    ⟨?_, exec_writesOnlyReg_bits rfl fun k hk => by simp [hk]⟩⟩
  all_goals exact decodeWord_rWord_of_encode shamt (by decide) rfl

/-- Settles O25: the comparisons are those of the words' signed and unsigned numbers. -/
theorem compareWritesOneOrZero : Obligations.CompareWritesOneOrZero := by
  unfold Obligations.CompareWritesOneOrZero
  intro s rd rs rt shamt
  refine ⟨⟨?_, exec_writesOnlyReg rfl (boolWord_decide _)⟩, ⟨?_, exec_writesOnlyReg rfl (boolWord_decide _)⟩⟩
  all_goals exact decodeWord_rWord_of_encode shamt (by decide) rfl

/-- Settles O26: the sign-extended immediate is the word of the immediate's signed number, and has that number. -/
theorem signExtendedImmediateArithmetic : Obligations.SignExtendedImmediateArithmetic := by
  unfold Obligations.SignExtendedImmediateArithmetic
  intro s rt rs imm
  have hadd := effAddr_eq s rs imm
  have hslti : boolWord (lessSigned (s.reg rs) (sext16 imm)) =
      if (s.reg rs).toInt < imm.toInt then 1#32 else 0#32 := by
    rw [lessSigned, toInt_sext16, boolWord_decide]
  exact ⟨⟨decodeWord_encode (.addi rt rs imm), exec_writesOnlyReg rfl hadd⟩,
    ⟨decodeWord_encode (.addiu rt rs imm), exec_writesOnlyReg rfl hadd⟩,
    ⟨decodeWord_encode (.slti rt rs imm), exec_writesOnlyReg rfl hslti⟩,
    ⟨decodeWord_encode (.sltiu rt rs imm), exec_writesOnlyReg rfl (boolWord_decide _)⟩⟩

/-- Settles O27: the zero-extended immediate meets the lower half of the register and leaves the upper half zero or
as it is. -/
theorem zeroExtendedImmediateLogic : Obligations.ZeroExtendedImmediateLogic := by
  unfold Obligations.ZeroExtendedImmediateLogic
  intro s rt rs imm
  exact ⟨⟨decodeWord_encode (.andi rt rs imm), exec_writesOnlyReg rfl (and_zext16 _ imm)⟩,
    ⟨decodeWord_encode (.ori rt rs imm), exec_writesOnlyReg rfl (or_zext16 _ imm)⟩,
    ⟨decodeWord_encode (.xori rt rs imm), exec_writesOnlyReg rfl (xor_zext16 _ imm)⟩,
    ⟨decodeWord_lui rs rt imm, exec_writesOnlyReg rfl (upperImm_eq_ofNat imm)⟩⟩

end Sys2Proof.Machine
end

section
/-! PROOFS. The family of spec/42_shift.md: shifts by the `shamt` field (O28) and by the low five bits of `x[rs]` (O29).
As in the family before, each obligation is made of the word's own cell, the one register write, and the value written. -/

namespace Sys2Proof.Machine

/-- The shifts by `shamt` ignore `rs` (R79). -/
theorem decodeWord_rWord_shamt_of_encode {i : Instr} {rt rd : Reg} {shamt : BitVec 5} {f : BitVec 6} (rs : Reg)
    (hf : f ∈ [0#6, 2#6, 3#6]) (hi : encode i = rWord 0 0 rt rd shamt f) :
    decodeWord (rWord 0 rs rt rd shamt f) = .ok i := by
  obtain ⟨hSpecial, -, -⟩ := unusedFieldsAreIgnored (rWord 0 rs rt rd shamt f) (rWord 0 0 rt rd shamt f) (by simp)
  obtain ⟨hShamt, -⟩ := hSpecial (by simp) (by simp)
  rw [hShamt (by simpa using hf) (by simp) (by simp) (by simp), ← hi, decodeWord_encode]

/-! ### The values (R130 to R136) -/

theorem shiftLeft_eq_ofNat (v : Word) (n : Nat) : shiftLeft v n = BitVec.ofNat 32 (v.toNat * 2 ^ n) := by
  apply BitVec.eq_of_toNat_eq
  rw [shiftLeft, BitVec.toNat_shiftLeft, Nat.shiftLeft_eq, BitVec.toNat_ofNat]

theorem shiftRight_eq_ofNat (v : Word) (n : Nat) : shiftRight v n = BitVec.ofNat 32 (v.toNat / 2 ^ n) := by
  apply BitVec.eq_of_toNat_eq
  rw [shiftRight, BitVec.toNat_ushiftRight, Nat.shiftRight_eq_div_pow, BitVec.toNat_ofNat,
    Nat.mod_eq_of_lt ((Nat.div_le_self _ _).trans_lt v.isLt)]

/-- The arithmetic shift is the floor of the signed quotient: `Int` division by a positive number rounds down. -/
theorem shiftRightArith_eq_ofInt (v : Word) (n : Nat) :
    shiftRightArith v n = BitVec.ofInt 32 (v.toInt / (2 : Int) ^ n) := by
  rw [shiftRightArith, BitVec.sshiftRight, Int.shiftRight_eq_div_pow, Nat.cast_pow, Nat.cast_ofNat]

/-- Bits 31..5 of `x[rs]` do not reach the shift amount. -/
theorem shiftAmount_eq_mod (s : State) (rs : Reg) : shiftAmount s rs = (s.reg rs).toNat % 32 := by
  simp [shiftAmount]

/-! ### The obligations -/

/-- Settles O28: each shift of a word is the product or the quotient of its number by the power of two. -/
theorem shiftsByTheShamtField : Obligations.ShiftsByTheShamtField := by
  unfold Obligations.ShiftsByTheShamtField
  intro s rd rt rs shamt
  refine ⟨⟨?_, exec_writesOnlyReg rfl (shiftLeft_eq_ofNat _ _)⟩, ⟨?_, exec_writesOnlyReg rfl (shiftRight_eq_ofNat _ _)⟩,
    ⟨?_, exec_writesOnlyReg rfl (shiftRightArith_eq_ofInt _ _)⟩⟩
  all_goals exact decodeWord_rWord_shamt_of_encode rs (by decide) rfl

/-- Settles O29: the remainder modulo 32 is the model's shift amount, and the values are those of O28. -/
theorem shiftsByTheLowFiveBits : Obligations.ShiftsByTheLowFiveBits := by
  unfold Obligations.ShiftsByTheLowFiveBits
  intro s rd rt rs shamt
  rw [← shiftAmount_eq_mod s rs]
  refine ⟨⟨?_, exec_writesOnlyReg rfl (shiftLeft_eq_ofNat _ _)⟩, ⟨?_, exec_writesOnlyReg rfl (shiftRight_eq_ofNat _ _)⟩,
    ⟨?_, exec_writesOnlyReg rfl (shiftRightArith_eq_ofInt _ _)⟩⟩
  all_goals exact decodeWord_rWord_of_encode shamt (by decide) rfl

end Sys2Proof.Machine
end

section
/-! PROOFS. The family of spec/43_load_store.md: loads (O30 to O33), stores (O34 to O36) and the pair of instructions
for a word at any address (O37). A load is one register write, a store replaces one run of bytes; each obligation is the
value written, or the run, at the effective address. -/

namespace Sys2Proof.Machine

/-! ### The values loaded (R144 to R148)

The sign extension is by definition the word of the signed number; the zero extension is that of the unsigned one. -/

theorem zext8_eq_ofNat (b : Byte) : zext8 b = BitVec.ofNat 32 b.toNat := (BitVec.ofNat_toNat 32 b).symm

theorem zext16_eq_ofNat (h : BitVec 16) : zext16 h = BitVec.ofNat 32 h.toNat := (BitVec.ofNat_toNat 32 h).symm

namespace Memory

theorem memReadByte_eq_readByte (m : Memory) (a : Word) : memReadByte m a = readByte m a.toNat :=
  byteOf_wordAt_offset m a

theorem memReadHalf_eq_append {m : Memory} {a : Word} (h : a.toNat % 2 = 0) :
    memReadHalf m a = .ok (readByte m a.toNat ++ readByte m (a.toNat + 1)) := by
  rw [memReadHalf_of_even ((even_iff a).2 h), halfOf_wordAt m a h]

theorem memReadWord_eq_wordOfBytes {m : Memory} {a : Word} (h : a.toNat % 4 = 0) :
    memReadWord m a = .ok (wordOfBytes (readByte m a.toNat) (readByte m (a.toNat + 1)) (readByte m (a.toNat + 2))
      (readByte m (a.toNat + 3))) := by
  have ha := (aligned_iff a).2 h
  rw [memReadWord, readWord_of_aligned ha, wordAt, wordBase_of_aligned ha]

theorem and_one_ne_zero {a : Word} (h : a.toNat % 2 = 1) : a &&& 1#32 ≠ 0#32 :=
  mt (even_iff a).1 (Nat.mod_two_ne_zero.2 h)

/-! ### The bytes stored (R151 to R155) -/

/-- The second memory is the first with `n` bytes replaced, byte `k` of them at `a + k`. -/
def RunReplaced (a n : Nat) (byte : Nat → Byte) (m m' : Memory) : Prop :=
  ∀ c, readByte m' c = if a ≤ c ∧ c < a + n then byte (c - a) else readByte m c

theorem runReplaced_memWriteByte (m : Memory) (a : Word) (v : Byte) :
    RunReplaced a.toNat 1 (fun _ => v) m (memWriteByte m a v) := by
  intro c
  rw [readByte_memWriteByte]
  exact if_congr (by omega) rfl rfl

theorem memWriteHalf_of_even {m : Memory} {a : Word} {v : BitVec 16} (h : a &&& 1#32 = 0#32) :
    memWriteHalf m a v = .ok (setWordAt m a (setHalfOf (wordAt m a) (offset a) v)) := if_pos h

theorem memWriteHalf_of_odd {m : Memory} {a : Word} {v : BitVec 16} (h : a &&& 1#32 ≠ 0#32) :
    memWriteHalf m a v = .error (.misalignedAccess a) := if_neg h

theorem runReplaced_memWriteHalf {m m' : Memory} {a : Word} {v : BitVec 16} (h : memWriteHalf m a v = .ok m') :
    RunReplaced a.toNat 2 (fun k => v.extractLsb' (8 - 8 * k) 8) m m' := by
  intro c
  rw [readByte_memWriteHalf h]
  by_cases h0 : c = a.toNat
  · simp [h0]
  by_cases h1 : c = a.toNat + 1
  · simp [h1]
  · rw [if_neg h0, if_neg h1, if_neg (by omega)]

/-- A word replaced by one that differs from it in a run of bytes. -/
theorem runReplaced_setWordAt {m : Memory} {a v : Word} {lo n : Nat} {byte : Nat → Byte}
    (hlo : (wordBase a).toNat ≤ lo) (hn : lo + n ≤ (wordBase a).toNat + 4)
    (hv : ∀ k < 4, byteOf v k = if lo ≤ (wordBase a).toNat + k ∧ (wordBase a).toNat + k < lo + n
      then byte ((wordBase a).toNat + k - lo) else byteOf (wordAt m a) k) :
    RunReplaced lo n byte m (setWordAt m a v) := by
  intro c
  rw [readByte_setWordAt]
  split
  case isTrue hc =>
    have hk : (wordBase a).toNat + (c - (wordBase a).toNat) = c := by omega
    rw [hv _ (by omega), byteOf_wordAt m a (by omega), hk]
  case isFalse hc => rw [if_neg (by omega)]

theorem runReplaced_memWriteWord {m m' : Memory} {a v : Word} (h : memWriteWord m a v = .ok m') :
    RunReplaced a.toNat 4 (byteOf v) m m' := by
  obtain ⟨ha, rfl⟩ := writeWord_eq_ok.1 h
  intro c
  rw [readByte_setWordAt, wordBase_of_aligned ha]

theorem runReplaced_mergeSwl (m : Memory) (a v : Word) :
    RunReplaced a.toNat (4 - a.toNat % 4) (byteOf v) m (setWordAt m a (mergeSwl (wordAt m a) v (offset a))) := by
  have hbase := wordBase_add_offset a
  have hoff := offset_lt a
  rw [← offset_eq_mod a]
  refine runReplaced_setWordAt (by omega) (by omega) fun k hk => ?_
  rw [byteOf_mergeSwl _ _ hoff hk, show (wordBase a).toNat + k - a.toNat = k - offset a by omega]
  exact if_congr (by omega) rfl rfl

theorem runReplaced_mergeSwr (m : Memory) (a v : Word) :
    RunReplaced (a.toNat - a.toNat % 4) (a.toNat % 4 + 1) (fun k => byteOf v (3 - a.toNat % 4 + k)) m
      (setWordAt m a (mergeSwr (wordAt m a) v (offset a))) := by
  have hbase := wordBase_add_offset a
  have hoff := offset_lt a
  rw [← offset_eq_mod a]
  refine runReplaced_setWordAt (by omega) (by omega) fun k hk => ?_
  rw [byteOf_mergeSwr _ _ hoff hk, show (wordBase a).toNat + k - (a.toNat - offset a) = k by omega]
  exact if_congr (by omega) rfl rfl

/-! ### The merges at an address (R149, R150) -/

theorem byteOf_mergeLwl_wordAt (m : Memory) (a old : Word) {k : Nat} (hk : k < 4) :
    byteOf (mergeLwl (wordAt m a) old (offset a)) k =
      if k + a.toNat % 4 < 4 then readByte m (a.toNat + k) else byteOf old k := by
  have hbase := wordBase_add_offset a
  rw [byteOf_mergeLwl _ _ (offset_lt a) hk, ← offset_eq_mod a]
  split
  case isTrue h => rw [byteOf_wordAt m a h, show (wordBase a).toNat + (k + offset a) = a.toNat + k by omega]
  case isFalse h => rfl

theorem byteOf_mergeLwr_wordAt (m : Memory) (a old : Word) {k : Nat} (hk : k < 4) :
    byteOf (mergeLwr (wordAt m a) old (offset a)) k =
      if 3 ≤ k + a.toNat % 4 then readByte m (a.toNat + k - 3) else byteOf old k := by
  have hbase := wordBase_add_offset a
  have hoff := offset_lt a
  rw [byteOf_mergeLwr _ _ hoff hk, ← offset_eq_mod a]
  split
  case isTrue h =>
    rw [byteOf_wordAt m a (by omega), show (wordBase a).toNat + (k + offset a - 3) = a.toNat + k - 3 by omega]
  case isFalse h => rfl

end Memory

/-! ### Outcomes (R141, R142, R80 item 5) -/

section Outcomes

variable {i : Instr} {s : State} {rt : Reg}

theorem exec_loads {r : Except Fault Word} {v : Word} (hi : exec i s = loadedIf rt r s) (hr : r = .ok v) :
    ∃ t, exec i s = .next t ∧ WritesOnlyReg rt v s t :=
  exec_writesOnlyReg (hi.trans (by rw [hr]; rfl)) rfl

theorem exec_load_fails {r : Except Fault Word} {e : Fault} (hi : exec i s = loadedIf rt r s) (hr : r = .error e) :
    exec i s = .fault e := by
  rw [hi, hr]
  rfl

theorem exec_store_fails {r : Except Fault Memory} {e : Fault} (hi : exec i s = storedIf r s) (hr : r = .error e) :
    exec i s = .fault e := by
  rw [hi, hr]
  rfl

/-- A store that replaces a run of bytes changes these and nothing else. -/
theorem exec_storesOnly {m : Memory} {a n : Nat} {byte : Nat → Byte} (hi : exec i s = complete (s.setMem m))
    (hm : Memory.RunReplaced a n byte s.mem m) :
    ∃ t, exec i s = .next t ∧ StoresOnly a n s t ∧ ∀ k < n, t.byte (a + k) = byte k :=
  ⟨_, hi, storesOnly_advance s fun c hc => (hm c).trans (if_neg (by omega)), fun k hk => by
    rw [State.byte, State.advance_mem, State.setMem_mem, hm, if_pos (by omega), Nat.add_sub_cancel_left]⟩

theorem exec_storesOnly_of_ok {r : Except Fault Memory} {m : Memory} {a n : Nat} {byte : Nat → Byte}
    (hi : exec i s = storedIf r s) (hr : r = .ok m) (hm : Memory.RunReplaced a n byte s.mem m) :
    ∃ t, exec i s = .next t ∧ StoresOnly a n s t ∧ ∀ k < n, t.byte (a + k) = byte k :=
  exec_storesOnly (hi.trans (by rw [hr]; rfl)) hm

theorem unalignedOnly_on {r : Result} (h : s.cfg.unalignedWordOps = true) : unalignedOnly i r s = r := if_pos h

theorem exec_of_unaligned_off (hi : i.unalignedWordOp = true) (h : s.cfg.unalignedWordOps = false) :
    exec i s = .fault (.illegalInstruction (encode i)) :=
  exec_of_not_wellFormed (by simp [Instr.wellFormed, hi, h])

end Outcomes

/-! ### The obligations -/

/-- Settles O30: the byte at the address, extended. -/
theorem loadByteExtends : Obligations.LoadByteExtends := by
  unfold Obligations.LoadByteExtends
  rintro s rt rs imm _ rfl
  rw [← effAddr_eq]
  have hbyte := Memory.memReadByte_eq_readByte s.mem (effAddr s rs imm)
  exact ⟨⟨decodeWord_encode (.lb rt imm rs), exec_writesOnlyReg rfl (congrArg sext8 hbyte)⟩,
    ⟨decodeWord_encode (.lbu rt imm rs),
      exec_writesOnlyReg rfl ((congrArg zext8 hbyte).trans (zext8_eq_ofNat _))⟩⟩

/-- Settles O31: the halfword read at an even address, extended; at an odd one the read fails. -/
theorem loadHalfwordExtendsOrFails : Obligations.LoadHalfwordExtendsOrFails := by
  unfold Obligations.LoadHalfwordExtendsOrFails
  rintro s rt rs imm _ rfl
  rw [← effAddr_eq]
  refine ⟨⟨decodeWord_encode (.lh rt imm rs), decodeWord_encode (.lhu rt imm rs)⟩, fun heven => ?_, fun hodd => ?_⟩
  · have hhalf := Memory.memReadHalf_eq_append (m := s.mem) heven
    exact ⟨exec_loads rfl (congrArg (Except.map sext16) hhalf),
      exec_loads rfl ((congrArg (Except.map zext16) hhalf).trans (congrArg Except.ok (zext16_eq_ofNat _)))⟩
  · have hfail := memReadHalf_of_odd (m := s.mem) (Memory.and_one_ne_zero hodd)
    exact ⟨exec_load_fails rfl (congrArg (Except.map sext16) hfail),
      exec_load_fails rfl (congrArg (Except.map zext16) hfail)⟩

/-- Settles O32: the word read at a multiple of 4; elsewhere the read fails. -/
theorem loadWordOrFails : Obligations.LoadWordOrFails := by
  unfold Obligations.LoadWordOrFails
  rintro s rt rs imm _ rfl
  rw [← effAddr_eq]
  exact ⟨decodeWord_encode (.lw rt imm rs), fun h => exec_loads rfl (Memory.memReadWord_eq_wordOfBytes h),
    fun h => exec_load_fails rfl (Memory.readWord_of_misaligned (mt (Memory.aligned_iff _).1 h))⟩

/-- Settles O33: the merges byte by byte at the address. -/
theorem loadPartialWordMerges : Obligations.LoadPartialWordMerges := by
  unfold Obligations.LoadPartialWordMerges
  rintro s rt rs imm _ rfl
  rw [← effAddr_eq]
  exact ⟨⟨decodeWord_encode (.lwl rt imm rs), decodeWord_encode (.lwr rt imm rs)⟩,
    fun hon => ⟨⟨_, _, unalignedOnly_on hon, writesOnlyReg_advance s rt _,
        fun k hk => Memory.byteOf_mergeLwl_wordAt s.mem _ _ hk⟩,
      ⟨_, _, unalignedOnly_on hon, writesOnlyReg_advance s rt _,
        fun k hk => Memory.byteOf_mergeLwr_wordAt s.mem _ _ hk⟩⟩,
    fun hoff => ⟨exec_of_unaligned_off rfl hoff, exec_of_unaligned_off rfl hoff⟩⟩

/-- Settles O34: a run of one byte. -/
theorem storeByteChangesOneByte : Obligations.StoreByteChangesOneByte := by
  unfold Obligations.StoreByteChangesOneByte
  rintro s rt rs imm _ rfl
  rw [← effAddr_eq]
  obtain ⟨t, ht, hframe, hbyte⟩ := exec_storesOnly (i := .sb rt imm rs) rfl
    (Memory.runReplaced_memWriteByte s.mem (effAddr s rs imm) _)
  exact ⟨decodeWord_encode (.sb rt imm rs), t, ht, hframe,
    (hbyte 0 Nat.one_pos).trans (BitVec.setWidth_eq_extractLsb' (by decide))⟩

/-- Settles O35: runs of two and of four bytes; a misaligned write fails. -/
theorem storeHalfwordAndWordOrFail : Obligations.StoreHalfwordAndWordOrFail := by
  unfold Obligations.StoreHalfwordAndWordOrFail
  rintro s rt rs imm _ rfl
  rw [← effAddr_eq]
  refine ⟨⟨decodeWord_encode (.sh rt imm rs), decodeWord_encode (.sw rt imm rs)⟩, fun heven => ?_, fun hodd => ?_,
    fun haligned => ?_, fun hmis => ?_⟩
  · have hwrite := Memory.memWriteHalf_of_even (m := s.mem) (v := (s.reg rt).setWidth 16) ((Memory.even_iff _).2 heven)
    obtain ⟨t, ht, hframe, hbyte⟩ := exec_storesOnly_of_ok (i := .sh rt imm rs) rfl hwrite
      (Memory.runReplaced_memWriteHalf hwrite)
    exact ⟨t, ht, hframe, (hbyte 0 (by decide)).trans (BitVec.extractLsb'_setWidth_of_le (by decide)),
      (hbyte 1 (by decide)).trans (BitVec.extractLsb'_setWidth_of_le (by decide))⟩
  · exact exec_store_fails rfl (Memory.memWriteHalf_of_odd (Memory.and_one_ne_zero hodd))
  · have hwrite := Memory.writeWord_of_aligned (m := s.mem) (v := s.reg rt) ((Memory.aligned_iff _).2 haligned)
    exact exec_storesOnly_of_ok rfl hwrite (Memory.runReplaced_memWriteWord hwrite)
  · exact exec_store_fails rfl (Memory.writeWord_of_misaligned (mt (Memory.aligned_iff _).1 hmis))

/-- Settles O36: the runs the two merges replace. -/
theorem storePartialWordMerges : Obligations.StorePartialWordMerges := by
  unfold Obligations.StorePartialWordMerges
  rintro s rt rs imm _ _ rfl rfl
  rw [← effAddr_eq]
  refine ⟨⟨decodeWord_encode (.swl rt imm rs), decodeWord_encode (.swr rt imm rs)⟩,
    fun hon => ⟨exec_storesOnly (unalignedOnly_on hon) (Memory.runReplaced_mergeSwl s.mem _ _), ?_⟩,
    fun hoff => ⟨exec_of_unaligned_off rfl hoff, exec_of_unaligned_off rfl hoff⟩⟩
  obtain ⟨t, ht, hframe, hbyte⟩ := exec_storesOnly (i := .swr rt imm rs) (unalignedOnly_on hon)
    (Memory.runReplaced_mergeSwr s.mem _ _)
  exact ⟨t, ht, hframe, fun k hk => hbyte k (Nat.lt_succ_of_le hk)⟩

/-! ### A word at any address (R156)

Of the four bytes from `A` on, those in the word of `A` are the first instruction's and those in the word of `A + 3` the
second's; both have all four when `A` is aligned. -/

theorem toNat_add_ofNat (a : Word) {k : Nat} (hk : k < 4) :
    (a + BitVec.ofNat 32 k).toNat = (a.toNat + k) % 2 ^ 32 := by
  rw [BitVec.toNat_add, BitVec.toNat_ofNat, Nat.mod_eq_of_lt (show k < 2 ^ 32 by omega)]

/-- The address of `0(A)`, in the statements' form. -/
theorem reg_eq_ofInt (s : State) (rs : Reg) : s.reg rs = BitVec.ofInt 32 ((s.reg rs).toNat + (0#16).toInt) := by
  simp

/-- The address of `3(A)`, in the statements' form. -/
theorem reg_add_three_eq_ofInt (s : State) (rs : Reg) :
    s.reg rs + 3#32 = BitVec.ofInt 32 ((s.reg rs).toNat + (3#16).toInt) :=
  effAddr_eq s rs 3#16

theorem lwl_then_lwr_loads {s : State} {rt rs : Reg} (hon : s.cfg.unalignedWordOps = true) (h0 : rt ≠ 0#5)
    (hne : rt ≠ rs) : ∃ t u, exec (.lwl rt 0#16 rs) s = .next t ∧ exec (.lwr rt 3#16 rs) t = .next u ∧
      ∀ k < 4, byteOf (u.reg rt) k = s.byte (s.reg rs + BitVec.ofNat 32 k).toNat := by
  obtain ⟨-, hlwl, -⟩ := loadPartialWordMerges s rt rs 0#16 _ (reg_eq_ofInt s rs)
  obtain ⟨⟨t, v, ht, ⟨-, hreg, -, hmem, -, -, -, -, hcfg, -⟩, hv⟩, -⟩ := hlwl hon
  have hbase : t.reg rs = s.reg rs := (hreg rs).trans (if_neg fun h => hne h.1.symm)
  have hold : t.reg rt = v := (hreg rt).trans (if_pos ⟨rfl, h0⟩)
  obtain ⟨-, hlwr, -⟩ := loadPartialWordMerges t rt rs 3#16 _ (reg_add_three_eq_ofInt t rs)
  obtain ⟨-, u, w, hu, ⟨-, hreg', -⟩, hw⟩ := hlwr (hcfg ▸ hon)
  have hnew : u.reg rt = w := (hreg' rt).trans (if_pos ⟨rfl, h0⟩)
  refine ⟨t, u, ht, hu, fun k hk => ?_⟩
  have hlast := toNat_add_ofNat (s.reg rs) (k := 3) (by decide)
  have hlt := (s.reg rs).isLt
  rw [hnew, hw k hk, hbase, hmem, hold, hv k hk, toNat_add_ofNat _ hk]
  split
  case isTrue hsecond => congr 1; omega
  case isFalse hsecond => rw [if_pos (by omega)]; congr 1; omega

theorem swl_then_swr_stores {s : State} (rt rs : Reg) (hon : s.cfg.unalignedWordOps = true) :
    ∃ t u, exec (.swl rt 0#16 rs) s = .next t ∧ exec (.swr rt 3#16 rs) t = .next u ∧
      (∀ k < 4, u.byte (s.reg rs + BitVec.ofNat 32 k).toNat = byteOf (s.reg rt) k) ∧
      ∀ a, (∀ k < 4, a ≠ (s.reg rs + BitVec.ofNat 32 k).toNat) → u.byte a = s.byte a := by
  obtain ⟨-, hswl, -⟩ := storePartialWordMerges s rt rs 0#16 _ _ (reg_eq_ofInt s rs) rfl
  obtain ⟨⟨t, ht, ⟨-, hreg, -, hout, -, -, -, -, hcfg, -⟩, hin⟩, -⟩ := hswl hon
  obtain ⟨-, hswr, -⟩ := storePartialWordMerges t rt rs 3#16 _ _ (reg_add_three_eq_ofInt t rs) rfl
  obtain ⟨-, u, hu, ⟨-, -, -, hout', -⟩, hin'⟩ := hswr (hcfg ▸ hon)
  have hlast := toNat_add_ofNat (s.reg rs) (k := 3) (by decide)
  have hlt := (s.reg rs).isLt
  rw [hreg rs] at hout' hin'
  generalize (s.reg rs + 3#32).toNat = last at hlast hout' hin'
  refine ⟨t, u, ht, hu, fun k hk => ?_, fun a ha => ?_⟩
  · rw [toNat_add_ofNat _ hk]
    by_cases hsecond : 3 ≤ k + last % 4
    · have haddr : ((s.reg rs).toNat + k) % 2 ^ 32 = last - last % 4 + (k + last % 4 - 3) := by omega
      rw [haddr, hin' _ (by omega), hreg rt]
      congr 1
      omega
    · have haddr : ((s.reg rs).toNat + k) % 2 ^ 32 = (s.reg rs).toNat + k := by omega
      rw [haddr, hout' _ (by omega), hin k (by omega)]
  · have hne (k : Nat) (hk : k < 4) : a ≠ ((s.reg rs).toNat + k) % 2 ^ 32 :=
      toNat_add_ofNat (s.reg rs) hk ▸ ha k hk
    have hne0 := hne 0 (by decide)
    have hne1 := hne 1 (by decide)
    have hne2 := hne 2 (by decide)
    have hne3 := hne 3 (by decide)
    exact (hout' a (by omega)).trans (hout a (by omega))

/-- Settles O37: the two pairs. -/
theorem unalignedWordIdiom : Obligations.UnalignedWordIdiom := by
  unfold Obligations.UnalignedWordIdiom
  exact fun s rt rs hon => ⟨lwl_then_lwr_loads hon, swl_then_swr_stores rt rs hon⟩

end Sys2Proof.Machine
end

section
/-! PROOFS. The family of spec/44_branch_jump.md: the check of R162 (O38), what each of the 12 transfers does when it
passes (O39 to O42), and the alignment of the staged targets (O43). Every transfer is the check and then a retirement to
a staged value of `NextPC`; the obligations differ in the value and in the link. -/

namespace Sys2Proof.Machine

/-! ### What a transfer stages (R160 to R177) -/

/-- A branch stages one value, the target or the next address in sequence. -/
theorem branchIf_eq_completeTo (c : Bool) (imm : BitVec 16) (s u : State) :
    branchIf c imm s u = completeTo (if c then branchTarget s.pc imm else u.nextPc + 4#32) u :=
  branchIf_eq_next.2 rfl

/-- The values of `NextPC` a transfer can stage. -/
inductive Stages (i : Instr) (s : State) : Word → Prop
  /-- The address after the delay slot, by a branch not taken. -/
  | sequential : Stages i s (s.nextPc + 4#32)
  /-- The target of a branch. -/
  | branch (imm : BitVec 16) : Stages i s (branchTarget s.pc imm)
  /-- The target of `j` and `jal`. -/
  | jump (target : BitVec 26) : Stages i s (jumpTarget s.pc target)
  /-- The register of `jr` and `jalr`. -/
  | register (rs : Reg) (hi : i = .jr rs ∨ ∃ rd, i = .jalr rd rs) : Stages i s (s.reg rs)

/-- A transfer runs the check of R162 and then retires with a staged value. -/
def ChecksAndStages (i : Instr) (s : State) : Prop :=
  ∃ n u, exec i s = transferCheck s (completeTo n u) ∧ Stages i s n

theorem checksAndStages_of_branchIf {i : Instr} {c : Bool} {imm : BitVec 16} {s u : State}
    (hi : exec i s = transferCheck s (branchIf c imm s u)) (hu : u.nextPc = s.nextPc) : ChecksAndStages i s := by
  rw [branchIf_eq_completeTo, hu] at hi
  cases c with
  | true => exact ⟨_, u, hi, .branch imm⟩
  | false => exact ⟨_, u, hi, .sequential⟩

theorem checksAndStages_of_transfer {i : Instr} (hi : Transfer i) (s : State) : ChecksAndStages i s := by
  cases i
  case j target => exact ⟨_, s, rfl, .jump target⟩
  case jal target => exact ⟨_, link linkReg s, rfl, .jump target⟩
  case jr rs => exact ⟨_, s, rfl, .register rs (.inl rfl)⟩
  case jalr rd rs => exact ⟨_, link rd s, rfl, .register rs (.inr ⟨rd, rfl⟩)⟩
  case beq | bne | blez | bgtz | bltz | bgez => exact checksAndStages_of_branchIf rfl rfl
  case bltzal | bgezal => exact checksAndStages_of_branchIf rfl (State.link_nextPc s linkReg)
  all_goals simp [Transfer] at hi

/-- Settles O38: the check decides, before the condition and the operands are looked at. -/
theorem transferInATakenSlotFails : Obligations.TransferInATakenSlotFails := by
  unfold Obligations.TransferInATakenSlotFails
  intro s i hi
  obtain ⟨n, u, hx, -⟩ := checksAndStages_of_transfer hi s
  rw [hx]
  exact ⟨transferCheck_fail, fun h => ⟨_, transferCheck_pass fun hp => h.resolve_left (by simp [hp])⟩⟩

/-! ### Outcomes (R160, R162, R176) -/

theorem exec_of_not_slotFree {i : Instr} {s : State} (hi : Transfer i) (hs : ¬ SlotFree s) :
    exec i s = .fault (.branchInDelaySlot s.pc) := by
  obtain ⟨hp, hn⟩ := Classical.not_imp.1 hs
  exact (transferInATakenSlotFails s i hi).1 hp hn

section Outcomes

variable {i : Instr} {s : State}

theorem exec_onlyTransfers {n T : Word} (hi : exec i s = transferCheck s (completeTo n s)) (hs : SlotFree s)
    (hn : n = T) : ∃ t, exec i s = .next t ∧ OnlyTransfers T s t :=
  ⟨_, hi.trans (transferCheck_pass hs), hn ▸ onlyTransfers_retire s n⟩

theorem exec_transfersAndLinks {r : Reg} {n T : Word} (hi : exec i s = transferCheck s (completeTo n (link r s)))
    (hs : SlotFree s) (hn : n = T) : ∃ t, exec i s = .next t ∧ TransfersAndLinks T r s t :=
  ⟨_, hi.trans (transferCheck_pass hs), hn ▸ transfersAndLinks_retire s r n⟩

variable {c : Bool} {imm : BitVec 16} {p : Prop} [Decidable p]

/-- A conditional branch, its condition in the statement's form. -/
theorem exec_branches (hi : exec i s = transferCheck s (branchIf c imm s s)) (hs : SlotFree s) (hc : c = true ↔ p) :
    ∃ t, exec i s = .next t ∧ OnlyTransfers (if p then branchTarget s.pc imm else s.nextPc + 4#32) s t := by
  rw [branchIf_eq_completeTo] at hi
  exact exec_onlyTransfers hi hs (if_congr hc rfl rfl)

/-- A linking branch, likewise: the condition is that of the state before the link. -/
theorem exec_branchesAndLinks {r : Reg} (hi : exec i s = transferCheck s (branchIf c imm s (link r s)))
    (hs : SlotFree s) (hc : c = true ↔ p) :
    ∃ t, exec i s = .next t ∧ TransfersAndLinks (if p then branchTarget s.pc imm else s.nextPc + 4#32) r s t := by
  rw [branchIf_eq_completeTo, State.link_nextPc] at hi
  exact exec_transfersAndLinks hi hs (if_congr hc rfl rfl)

end Outcomes

/-! ### Targets (R161) -/

/-- The upper four bits of an address are its 256 MB region. -/
theorem jumpTarget_eq_ofNat (pc : Word) (target : BitVec 26) :
    jumpTarget pc target = BitVec.ofNat 32 ((pc + 4#32).toNat / 2 ^ 28 * 2 ^ 28 + 4 * target.toNat) := by
  apply BitVec.eq_of_toNat_eq
  rw [jumpTarget, toNat_append_eq, toNat_append_eq, toNat_slice_eq, BitVec.toNat_ofNat, BitVec.toNat_ofNat]
  omega

/-- The shifted offset is four times its signed number. -/
theorem branchTarget_eq_ofInt (pc : Word) (imm : BitVec 16) :
    branchTarget pc imm = BitVec.ofInt 32 (pc.toNat + 4 + 4 * imm.toInt) := by
  have himm : sext16 imm = BitVec.ofInt 32 imm.toInt := rfl
  apply BitVec.eq_of_toNat_eq
  rw [branchTarget, himm, BitVec.toNat_add, BitVec.toNat_add, BitVec.toNat_shiftLeft, BitVec.toNat_ofInt,
    BitVec.toNat_ofInt, BitVec.toNat_ofNat, Nat.shiftLeft_eq]
  omega

/-! ### Conditions (R167 to R177) -/

theorem isNegative_iff {v : Word} : isNegative v = true ↔ v.toInt < 0 := by
  rw [isNegative, ← BitVec.msb_eq_getLsbD_last, BitVec.msb_eq_toInt, decide_eq_true_iff]

theorem not_isNegative_iff {v : Word} : (!isNegative v) = true ↔ 0 ≤ v.toInt := by
  rw [Bool.not_eq_true', ← Bool.not_eq_true, isNegative_iff, Int.not_lt]

theorem isZeroOrNegative_iff {v : Word} : (v == 0#32 || isNegative v) = true ↔ v.toInt ≤ 0 := by
  rw [Bool.or_eq_true, beq_iff_eq, isNegative_iff, le_iff_eq_or_lt, ← BitVec.toInt_inj, BitVec.toInt_zero]

theorem isNeitherZeroNorNegative_iff {v : Word} : (v != 0#32 && !isNegative v) = true ↔ 0 < v.toInt := by
  rw [bne, ← Bool.not_or, Bool.not_eq_true', ← Bool.not_eq_true, isZeroOrNegative_iff, Int.not_le]

/-! ### The obligations on targets and links -/

/-- Settles O39: the target as arithmetic. -/
theorem jumpsTargetTheSlotsRegion : Obligations.JumpsTargetTheSlotsRegion := by
  unfold Obligations.JumpsTargetTheSlotsRegion
  intro s target T hT
  have htarget : jumpTarget s.pc target = T := (jumpTarget_eq_ofNat s.pc target).trans hT.symm
  exact ⟨⟨decodeWord_encode (.j target), decodeWord_encode (.jal target)⟩,
    fun hs => ⟨exec_onlyTransfers rfl hs htarget, exec_transfersAndLinks rfl hs htarget⟩,
    fun hs => ⟨exec_of_not_slotFree (by simp [Transfer]) hs, exec_of_not_slotFree (by simp [Transfer]) hs⟩⟩

/-- Settles O40: the value staged is read in the state before the link, and the cells mention the used fields alone. -/
theorem registerJumpsUseTheOldValue : Obligations.RegisterJumpsUseTheOldValue := by
  unfold Obligations.RegisterJumpsUseTheOldValue
  intro s rd rs rt shamt
  exact ⟨⟨by simp [decodeWord, decodeSpecial], by simp [decodeWord, decodeSpecial]⟩,
    fun hs => ⟨exec_onlyTransfers rfl hs rfl, exec_transfersAndLinks rfl hs rfl⟩,
    fun hs => ⟨exec_of_not_slotFree (by simp [Transfer]) hs, exec_of_not_slotFree (by simp [Transfer]) hs⟩⟩

/-- Settles O41: each branch by its condition on signed numbers. -/
theorem conditionalBranchesStageTheirTarget : Obligations.ConditionalBranchesStageTheirTarget := by
  unfold Obligations.ConditionalBranchesStageTheirTarget
  rintro s rs rt imm _ rfl
  rw [← branchTarget_eq_ofInt]
  refine ⟨⟨decodeWord_encode (.beq rs rt imm), decodeWord_encode (.bne rs rt imm), by simp [decodeWord],
    by simp [decodeWord], decodeWord_encode (.bltz rs imm), decodeWord_encode (.bgez rs imm)⟩,
    fun hs => ?_, fun hs i hi => exec_of_not_slotFree ?_ hs⟩
  · exact ⟨exec_branches rfl hs beq_iff_eq, exec_branches rfl hs bne_iff_ne,
      exec_branches rfl hs isZeroOrNegative_iff, exec_branches rfl hs isNeitherZeroNorNegative_iff,
      exec_branches rfl hs isNegative_iff, exec_branches rfl hs not_isNegative_iff⟩
  · fin_cases hi <;> simp [Transfer]

/-- Settles O42: the condition is that of the old `x[rs]`, and taken or not the linked state retires. -/
theorem linkingBranchesAlwaysLink : Obligations.LinkingBranchesAlwaysLink := by
  unfold Obligations.LinkingBranchesAlwaysLink
  rintro s rs imm _ rfl
  rw [← branchTarget_eq_ofInt]
  exact ⟨⟨decodeWord_encode (.bltzal rs imm), decodeWord_encode (.bgezal rs imm)⟩,
    fun hs => ⟨exec_branchesAndLinks rfl hs isNegative_iff, exec_branchesAndLinks rfl hs not_isNegative_iff⟩,
    fun hs => ⟨exec_of_not_slotFree (by simp [Transfer]) hs, exec_of_not_slotFree (by simp [Transfer]) hs⟩⟩

/-! ### Alignment of the staged value (R172) -/

theorem add_four_aligned {a : Word} (h : a &&& 3#32 = 0#32) : (a + 4#32) &&& 3#32 = 0#32 := by
  rw [Memory.aligned_iff] at h ⊢
  rw [BitVec.toNat_add, BitVec.toNat_ofNat]
  omega

theorem branchTarget_aligned {pc : Word} (imm : BitVec 16) (h : pc &&& 3#32 = 0#32) :
    branchTarget pc imm &&& 3#32 = 0#32 := by
  rw [Memory.aligned_iff] at h ⊢
  rw [branchTarget_eq_ofInt, BitVec.toNat_ofInt]
  omega

theorem jumpTarget_aligned (pc : Word) (target : BitVec 26) : jumpTarget pc target &&& 3#32 = 0#32 := by
  rw [Memory.aligned_iff, jumpTarget, toNat_append_eq, BitVec.toNat_ofNat]
  omega

/-- The value a completed transfer staged is the next `NextPC`. -/
theorem stages_nextPc {i : Instr} {s t : State} (hi : Transfer i) (h : exec i s = .next t) : Stages i s t.nextPc := by
  obtain ⟨n, u, hx, hn⟩ := checksAndStages_of_transfer hi s
  obtain rfl := completeTo_eq_next.1 (transferCheck_eq_next.1 (hx ▸ h)).2
  exact hn

theorem Stages.aligned {i : Instr} {s : State} {n : Word} (h : Stages i s n)
    (hi : ∀ rd rs, i ≠ .jr rs ∧ i ≠ .jalr rd rs) (hpc : s.pc &&& 3#32 = 0#32) (hnext : s.nextPc &&& 3#32 = 0#32) :
    n &&& 3#32 = 0#32 := by
  cases h with
  | sequential => exact add_four_aligned hnext
  | branch imm => exact branchTarget_aligned imm hpc
  | jump target => exact jumpTarget_aligned s.pc target
  | register rs hreg =>
    obtain hjr | ⟨rd, hjalr⟩ := hreg
    · exact absurd hjr (hi 0#5 rs).1
    · exact absurd hjalr (hi rd rs).2

/-- R172: a completed `jr` or `jalr` has staged the register, whatever its value. -/
theorem nextPc_of_registerJump {rd rs : Reg} {s t : State}
    (h : exec (.jr rs) s = .next t ∨ exec (.jalr rd rs) s = .next t) : t.nextPc = s.reg rs := by
  obtain h | h := h <;> obtain rfl := completeTo_eq_next.1 (transferCheck_eq_next.1 h).2 <;> rfl

/-- R92: a misaligned `PC` fails at the fetch. -/
theorem step_of_misaligned {s : State} (he : s.exited = false) (ha : s.pc &&& 3#32 ≠ 0#32) :
    step s = .fault (.misalignedAccess s.pc) := by
  simp [step, he, fetch, Memory.readWord_of_misaligned ha, raise]

/-- Settles O43: the staged value by its four origins; a misaligned one passes from `NextPC` to `PC` with the slot's
retirement and fails there. -/
theorem misalignedTargetFailsAfterTheSlot : Obligations.MisalignedTargetFailsAfterTheSlot := by
  unfold Obligations.MisalignedTargetFailsAfterTheSlot
  refine ⟨fun i s t hi hne hpc hnext h => (stages_nextPc hi h).aligned hne hpc hnext, ?_⟩
  intro rd rs s t u hmis hjump hrunning hslot hu
  have hpc : u.pc = s.reg rs := by
    obtain ⟨hretire, -⟩ := completedStepRetires t u hrunning hslot
    exact hretire.trans (nextPc_of_registerJump hjump)
  exact ⟨hpc, hpc ▸ step_of_misaligned hu (hpc ▸ hmis)⟩

end Sys2Proof.Machine
end

section
/-! PROOFS. The family of spec/45_muldiv.md: the products (O44), the quotients (O45) and the moves between `hi`, `lo`
and the general registers (O46). A move to a general register is one register write; every other instruction here gives
`hi` and `lo` their values and retires (R180), and the obligations differ in the two values. -/

namespace Sys2Proof.Machine

/-! ### `hi` and `lo` written (R180) -/

/-- An instruction that writes `hi` and `lo` and retires in sequence, the two values in the statement's form. -/
theorem exec_writesOnlyHiLo {i : Instr} {s : State} {hi lo hi' lo' : Word} (hx : exec i s = writeHiLo hi lo s)
    (hhi : hi = hi') (hlo : lo = lo') : ∃ t, exec i s = .next t ∧ WritesOnlyHiLo hi' lo' s t :=
  ⟨_, hx, hhi ▸ hlo ▸ writesOnlyHiLo_advance s hi lo⟩

/-! ### The halves of a product (R181, R182) -/

/-- The upper half of an integer modulo 2^64 is its floor quotient by 2^32. -/
theorem slice_high_ofInt (z : Int) : (BitVec.ofInt 64 z).extractLsb' 32 32 = BitVec.ofInt 32 (z / 2 ^ 32) := by
  apply BitVec.eq_of_toNat_eq
  rw [toNat_slice_eq, BitVec.toNat_ofInt, BitVec.toNat_ofInt]
  omega

theorem slice_low_ofInt (z : Int) : (BitVec.ofInt 64 z).extractLsb' 0 32 = BitVec.ofInt 32 z := by
  apply BitVec.eq_of_toNat_eq
  rw [toNat_slice_eq, BitVec.toNat_ofInt, BitVec.toNat_ofInt]
  omega

theorem slice_high_ofNat (n : Nat) : (BitVec.ofNat 64 n).extractLsb' 32 32 = BitVec.ofNat 32 (n / 2 ^ 32) := by
  rw [← BitVec.ofInt_natCast, slice_high_ofInt, ← BitVec.ofInt_natCast, Int.natCast_ediv, Nat.cast_pow, Nat.cast_ofNat]

theorem slice_low_ofNat (n : Nat) : (BitVec.ofNat 64 n).extractLsb' 0 32 = BitVec.ofNat 32 n := by
  rw [← BitVec.ofInt_natCast, slice_low_ofInt, BitVec.ofInt_natCast]

/-! ### The obligations -/

/-- Settles O44: the halves of the product modulo 2^64. -/
theorem multiplySplitsTheExactProduct : Obligations.MultiplySplitsTheExactProduct := by
  unfold Obligations.MultiplySplitsTheExactProduct
  intro s rs rt rd shamt
  refine ⟨⟨?_, exec_writesOnlyHiLo rfl (slice_high_ofInt _) (slice_low_ofInt _)⟩,
    ⟨?_, exec_writesOnlyHiLo rfl (slice_high_ofNat _) (slice_low_ofNat _)⟩⟩
  all_goals simp [decodeWord, decodeSpecial]

/-- Settles O45: the divisor's test decides, and what the truncated quotient leaves is the truncated remainder. -/
theorem divideTruncatesOrFails : Obligations.DivideTruncatesOrFails := by
  unfold Obligations.DivideTruncatesOrFails
  intro s rs rt rd shamt
  refine ⟨⟨by simp [decodeWord, decodeSpecial], by simp [decodeWord, decodeSpecial]⟩, fun hne =>
    ⟨exec_writesOnlyHiLo (if_neg hne) ?_ rfl, exec_writesOnlyHiLo (if_neg hne) rfl rfl⟩,
    fun hzero => ⟨if_pos hzero, if_pos hzero⟩⟩
  rw [Int.tmod_def, Int.mul_comm]

/-- Settles O46: a move to `hi` or `lo` writes back the other's old value. -/
theorem hiLoMovesCopy : Obligations.HiLoMovesCopy := by
  unfold Obligations.HiLoMovesCopy
  intro s rd rs rt shamt
  refine ⟨⟨?_, exec_writesOnlyReg rfl rfl⟩, ⟨?_, exec_writesOnlyHiLo rfl rfl rfl⟩, ⟨?_, exec_writesOnlyReg rfl rfl⟩,
    ⟨?_, exec_writesOnlyHiLo rfl rfl rfl⟩⟩
  all_goals simp [decodeWord, decodeSpecial]

end Sys2Proof.Machine
end

section
/-! PROOFS. The family of spec/46_syscall.md: the calls that exit (O47), the heap and `clone` (O48), `read` and `write`
on the standard descriptors (O49) and on the preimage descriptor (O50, O51), and the calls that fail (O52). The
registers name the call; a call that returns makes a state that frames the old one (`CallFrame`), writes `x[2]` and `x[7]` and
retires. The obligations differ in that state and in the result. -/

namespace Sys2Proof.Machine

/-! ### The call the registers name (R200, R202, R208, R210) -/

section Calls

variable {s : State}

/-- R202: all seven comparisons of the number fail. -/
theorem call_eq_unknownNumber (h : s.reg 2#5 ∉ [s.cfg.sysExit, s.cfg.sysRead, s.cfg.sysWrite, s.cfg.sysBrk,
    s.cfg.sysMmap, s.cfg.sysClone, s.cfg.sysExitGroup]) : s.call = .unknownNumber := by
  simp only [List.mem_cons, List.not_mem_nil, or_false, not_or] at h
  obtain ⟨hexit, hread, hwrite, hbrk, hmmap, hclone, hgroup⟩ := h
  simp [State.call, callOf, regV0, hexit, hread, hwrite, hbrk, hmmap, hclone, hgroup]

theorem readCall_preimage {c : Config} (hd : DistinctCalls c) : readCall c c.fdPreimage = .readPreimage := by
  obtain ⟨-, hin, -, -⟩ := hd
  rw [readCall, if_neg hin, if_pos rfl]

theorem writeCall_preimage {c : Config} (hd : DistinctCalls c) : writeCall c c.fdPreimage = .writePreimage := by
  obtain ⟨-, -, hout, herr⟩ := hd
  rw [writeCall, if_neg (not_or.2 ⟨hout, herr⟩), if_pos rfl]

/-! ### The meaning of each call (R200) -/

theorem exec_exit (hc : s.call = .exit) : exec .syscall s = sysExit s := by simp only [exec, execSyscall, hc]

theorem exec_brk (hc : s.call = .brk) : exec .syscall s = sysBrk s := by simp only [exec, execSyscall, hc]

theorem exec_mmap (hc : s.call = .mmap) : exec .syscall s = sysMmap s := by simp only [exec, execSyscall, hc]

theorem exec_clone (hc : s.call = .clone) : exec .syscall s = sysClone s := by simp only [exec, execSyscall, hc]

theorem exec_readStdin (hc : s.call = .readStdin) : exec .syscall s = readStdin s := by
  simp only [exec, execSyscall, hc]

theorem exec_writeSink (hc : s.call = .writeSink) : exec .syscall s = writeSink s := by
  simp only [exec, execSyscall, hc]

theorem exec_readPreimage (hc : s.call = .readPreimage) : exec .syscall s = readPreimage s := by
  simp only [exec, execSyscall, hc]

theorem exec_writePreimage (hc : s.call = .writePreimage) : exec .syscall s = writePreimage s := by
  simp only [exec, execSyscall, hc]

theorem exec_unknownNumber (hc : s.call = .unknownNumber) :
    exec .syscall s = .fault (.unsupportedSyscall (s.reg 2#5) none) := by
  simp only [exec, execSyscall, hc, raise, regV0]

theorem exec_unknownDescriptor (hc : s.call = .unknownDescriptor) :
    exec .syscall s = .fault (.unsupportedSyscall (s.reg 2#5) (some (s.reg 4#5))) := by
  simp only [exec, execSyscall, hc, raise, regV0, regA0]

end Calls

/-! ### A call that returns (R200, R201) -/

/-- `t` is `s` after a system call that made `u` out of it and returned `result`. -/
structure ReturnsThrough (result : Word) (s u t : State) : Prop where
  retires : Retires s t
  returned : Returned result s t
  hiLo : SameHiLo s t
  exit : SameExit s t
  parameters : SameParameters s t
  mem : t.mem = u.mem
  heap : SameHeap u t
  preimage : SamePreimage u t
  sinks : SameSinks u t

theorem exec_returnsThrough {s u : State} {v : Word} (hx : exec .syscall s = returns v u) (he : CallEffect s v u) :
    ∃ t, exec .syscall s = .next t ∧ ReturnsThrough v s u t := by
  have hu := he.frame
  refine ⟨_, hx.trans (returns_eq_next.2 rfl), ?_⟩
  constructor
  case retires => exact ⟨hu.nextPc, congrArg (· + 4#32) hu.nextPc, congrArg (· + 1#64) hu.stepCount⟩
  case returned => exact returned_advance v (State.reg_congr hu.regs)
  case hiLo => exact ⟨hu.hi, hu.lo⟩
  case exit => exact hu.exit
  case parameters => exact hu.parameters
  case mem | heap => rfl
  case preimage | sinks => exact ⟨rfl, rfl⟩

theorem sameMem_of_mem_eq {s t : State} (h : t.mem = s.mem) : SameMem s t :=
  fun a => congrArg (Memory.readByte · a) h

/-- A call that makes no change before its result writes `x[2]` and `x[7]` and nothing else. -/
theorem exec_returnsOnly {s : State} {v : Word} (hx : exec .syscall s = returns v s) :
    ∃ t, exec .syscall s = .next t ∧ Retires s t ∧ Returned v s t ∧ SameHiLo s t ∧ SameMem s t ∧ SameSystem s t := by
  obtain ⟨t, ht, h⟩ := exec_returnsThrough hx .nothing
  exact ⟨t, ht, h.retires, h.returned, h.hiLo, sameMem_of_mem_eq h.mem, h.exit, h.heap, h.preimage, h.sinks,
    h.parameters⟩

/-! ### The values (R204, R205, R212) -/

theorem setWidth_eight_eq_ofNat (x : Word) : x.setWidth 8 = BitVec.ofNat 8 (x.toNat % 256) := by
  apply BitVec.eq_of_toNat_eq
  rw [BitVec.toNat_setWidth, BitVec.toNat_ofNat, Nat.mod_mod]

theorem brkHeap_eq (request heap : Word) :
    brkHeap request heap = if heap.toNat < request.toNat then request else heap := by
  simp [brkHeap, lessUnsigned]

theorem State.emit_sink2_of_standard (s : State) {fd : Word} (bytes : List Byte)
    (h : fd = Config.fdStdout ∨ fd = Config.fdStderr) :
    (s.emit fd bytes).sink2 = if fd = Config.fdStderr then s.sink2 ++ bytes else s.sink2 := by
  rw [emit_sink2]
  obtain rfl | rfl := h <;> simp [Config.fdStdout, Config.fdStderr]

/-- The bytes of a string, each at its address modulo 2^32. -/
theorem Memory.readBytes_eq_map (m : Memory) (a : Word) (n : Nat) :
    readBytes m a n = (List.range n).map fun k => readByte m (a + BitVec.ofNat 32 k).toNat := by
  induction n generalizing a with
  | zero => rfl
  | succ n ih =>
    have hnext (k : Nat) : a + 1#32 + BitVec.ofNat 32 k = a + BitVec.ofNat 32 (k + 1) := by
      rw [BitVec.add_assoc, ← BitVec.ofNat_add, Nat.add_comm 1 k]
    rw [readBytes, ih, List.range_succ_eq_map, List.map_cons, List.map_map, BitVec.add_zero]
    simp only [hnext, Function.comp_def, Nat.succ_eq_add_one]

/-! ### The preimage channel: one word at the buffer (R222, R224) -/

theorem preimageSpan_eq (buffer count : Word) :
    preimageSpan buffer count = min (4 - buffer.toNat % 4) count.toNat := by
  rw [preimageSpan, Memory.offset_eq_mod]

/-- A word with a byte string written into it (R222). -/
theorem Memory.byteOf_setBytesOf (w : Word) (vs : List Byte) {b i : Nat} (hb : b + vs.length ≤ 4) (hi : i < 4) :
    byteOf (setBytesOf w b vs) i = if b ≤ i ∧ i < b + vs.length then vs.getD (i - b) 0#8 else byteOf w i := by
  induction vs generalizing w b with
  | nil =>
    rw [setBytesOf, if_neg]
    simp
  | cons v vs ih =>
    rw [List.length_cons] at hb ⊢
    rw [setBytesOf, ih _ (by omega), byteOf_setByteOf _ _ (by omega) hi]
    by_cases hib : i = b
    · subst hib
      simp
    by_cases hlater : b + 1 ≤ i ∧ i < b + 1 + vs.length
    · rw [if_pos hlater, if_pos (by omega), show i - b = i - (b + 1) + 1 by omega, List.getD_cons_succ]
    · rw [if_neg hlater, if_neg hib, if_neg (by omega)]

section RunReplaced

variable {s t : State} {a n : Nat} {byte : Nat → Byte}

theorem Memory.RunReplaced.sameMemOutside (h : RunReplaced a n byte s.mem t.mem) : SameMemOutside a n s t :=
  fun b hb => (h b).trans (if_neg (by omega))

theorem Memory.RunReplaced.byte_add (h : RunReplaced a n byte s.mem t.mem) : ∀ k < n, t.byte (a + k) = byte k :=
  fun k hk => (h _).trans (by rw [if_pos (by omega), Nat.add_sub_cancel_left])

end RunReplaced

/-- A byte string written into the word at an address replaces the run of bytes from that address on. -/
theorem Memory.runReplaced_setBytesOf (m : Memory) (a : Word) {vs : List Byte} (h : offset a + vs.length ≤ 4) :
    RunReplaced a.toNat vs.length (fun k => vs.getD k 0#8) m
      (setWordAt m a (setBytesOf (wordAt m a) (offset a) vs)) := by
  have hbase := wordBase_add_offset a
  refine runReplaced_setWordAt (by omega) (by omega) fun k hk => ?_
  rw [byteOf_setBytesOf _ _ h hk, show (wordBase a).toNat + k - a.toNat = k - offset a by omega]
  exact if_congr (by omega) rfl rfl

section Chunk

variable (v : List Byte) (poff : Word) {m n : Nat}

theorem length_preimageChunk (h4 : n ≤ 4) (hn : n ≤ preimageRest v poff) : (preimageChunk v poff n).length = 4 := by
  unfold preimageRest at hn
  rw [preimageChunk, List.length_append, List.length_take, List.length_drop, List.length_replicate]
  omega

/-- The value's bytes from `poff` on, then zeros. -/
theorem getD_preimageChunk (hn : n ≤ preimageRest v poff) (k : Nat) :
    (preimageChunk v poff n).getD k 0#8 = if k < n then v.getD (poff.toNat + k) 0#8 else 0#8 := by
  unfold preimageRest at hn
  have hlen : ((v.drop poff.toNat).take n).length = n := by
    rw [List.length_take, List.length_drop]
    omega
  unfold preimageChunk
  split
  case isTrue hk =>
    rw [List.getD_append _ _ _ _ (by omega)]
    simp [List.getD_eq_getElem?_getD, hk]
  case isFalse hk =>
    rw [List.getD_append_right _ _ _ _ (by omega), List.getD_eq_getElem?_getD]
    exact List.getElem?_getD_replicate_default_eq _ _ _

/-- Cut off anywhere after the value's bytes, the chunk still reads as zero from there on. -/
theorem getD_take_preimageChunk (hn : n ≤ preimageRest v poff) (hm : n ≤ m) (k : Nat) :
    ((preimageChunk v poff n).take m).getD k 0#8 = if k < n then v.getD (poff.toNat + k) 0#8 else 0#8 := by
  by_cases hk : k < m
  · rw [← getD_preimageChunk v poff hn]
    simp [List.getD_eq_getElem?_getD, hk]
  · rw [if_neg (by omega), List.getD_eq_default _ _ (by rw [List.length_take]; omega)]

end Chunk

section PreimageRead

variable {s : State} {v : List Byte}

theorem readPreimage_of_miss (ho : s.oracle.get s.pkey = none) : readPreimage s = .fault (.oracleMiss s.pkey) := by
  simp only [readPreimage, ho, raise]

theorem readPreimage_of_count_zero (ho : s.oracle.get s.pkey = some v)
    (hn : preimageCount v s.poff (s.reg 5#5) (s.reg 6#5) = 0) : readPreimage s = returns 0#32 s := by
  simp only [readPreimage, ho]
  exact if_pos hn

/-- A read that delivers bytes replaces the `m` bytes at the buffer by the value's next `n`, zero-padded. -/
theorem readPreimage_of_count_ne_zero {m n : Nat} (ho : s.oracle.get s.pkey = some v)
    (hm : m = preimageSpan (s.reg 5#5) (s.reg 6#5)) (hn : n = min m (preimageRest v s.poff)) (h0 : n ≠ 0) :
    ∃ w, Memory.RunReplaced (s.reg 5#5).toNat m (fun k => if k < n then v.getD (s.poff.toNat + k) 0#8 else 0#8) s.mem
        (Memory.setWordAt s.mem (s.reg 5#5) w) ∧
      readPreimage s = returns (BitVec.ofNat 32 n)
        { s with mem := Memory.setWordAt s.mem (s.reg 5#5) w, poff := s.poff + BitVec.ofNat 32 n } := by
  have hspan : m ≤ 4 - Memory.offset (s.reg 5#5) := hm ▸ Nat.min_le_left _ _
  have hoff := Memory.offset_lt (s.reg 5#5)
  have hnm : n ≤ m := hn ▸ Nat.min_le_left _ _
  have hrest : n ≤ preimageRest v s.poff := hn ▸ Nat.min_le_right _ _
  have hlen : ((preimageChunk v s.poff n).take m).length = m := by
    rw [List.length_take, length_preimageChunk v s.poff (by omega) hrest]
    omega
  have hrun := Memory.runReplaced_setBytesOf s.mem (s.reg 5#5) (vs := (preimageChunk v s.poff n).take m) (by omega)
  rw [hlen, funext (getD_take_preimageChunk v s.poff hrest hnm)] at hrun
  refine ⟨_, hrun, ?_⟩
  subst hm hn
  simp only [readPreimage, ho]
  exact if_neg h0

end PreimageRead

/-- The bytes a preimage `write` takes are those at `x[5]`, `x[5] + 1`, ... (R224). -/
theorem keyBytes_eq_map (s : State) : keyBytes s =
    (List.range (preimageSpan (s.reg 5#5) (s.reg 6#5))).map fun k => s.byte ((s.reg 5#5).toNat + k) := by
  have hbase := Memory.wordBase_add_offset (s.reg 5#5)
  have hspan : preimageSpan (s.reg 5#5) (s.reg 6#5) ≤ 4 - Memory.offset (s.reg 5#5) := Nat.min_le_left _ _
  apply List.ext_getElem
  · simpa [keyBytes, regA1, regA2] using hspan
  · intro k _ hk
    rw [List.length_map, List.length_range] at hk
    simp only [keyBytes, regA1, regA2, List.getElem_take, List.getElem_drop, List.getElem_map, List.getElem_range,
      getElem_wordBytes, State.byte]
    rw [Memory.byteOf_wordAt _ _ (by omega), ← Nat.add_assoc, hbase]

/-- A key of 32 bytes loses as many at its front as it gains at its end (R224). -/
theorem toList_shiftKey (key : Key) {d : List Byte} (h : d.length ≤ 32) :
    (shiftKey key d).toList = key.toList.drop d.length ++ d := by
  have hlen : d.length ≤ key.toList.length := by simpa using h
  rw [← List.drop_append_of_le_length hlen]
  rfl

/-- The key after a preimage `write` (R224). -/
theorem toList_shiftKey_keyBytes (s : State) : (shiftKey s.pkey (keyBytes s)).toList =
    s.pkey.toList.drop (preimageSpan (s.reg 5#5) (s.reg 6#5)) ++
      (List.range (preimageSpan (s.reg 5#5) (s.reg 6#5))).map fun k => s.byte ((s.reg 5#5).toNat + k) := by
  have hspan : preimageSpan (s.reg 5#5) (s.reg 6#5) ≤ 4 := (Nat.min_le_left _ _).trans (Nat.sub_le _ _)
  have hlen : (keyBytes s).length = preimageSpan (s.reg 5#5) (s.reg 6#5) := by simp [keyBytes_eq_map]
  rw [toList_shiftKey s.pkey (by omega), hlen, keyBytes_eq_map]

/-! ### The obligations -/

/-- Settles O47: `x[2]` and `x[7]` are not written, and the state left is halted. -/
theorem exitCallsHaltTheMachine : Obligations.ExitCallsHaltTheMachine := by
  unfold Obligations.ExitCallsHaltTheMachine
  intro s rs rt rd shamt _ hnum
  have hc : s.call = .exit := (call_registers s).1.2 hnum
  exact ⟨by simp [decodeWord, decodeSpecial], _, exec_exit hc, ⟨rfl, rfl, rfl⟩, rfl, setWidth_eight_eq_ofNat _,
    State.advance_reg _, ⟨rfl, rfl⟩, fun _ => rfl, rfl, ⟨rfl, rfl⟩, ⟨rfl, rfl⟩, ⟨rfl, rfl⟩, step_halted rfl⟩

/-- Settles O48: `brk` and `mmap` move the heap cursor before they return, `clone` moves nothing. -/
theorem brkMmapCloneReturn : Obligations.BrkMmapCloneReturn := by
  unfold Obligations.BrkMmapCloneReturn
  intro s hd
  obtain ⟨hbrk, hmmap, hclone, -, -⟩ := call_of_distinct hd
  refine ⟨fun hnum => ?_, fun hnum => ?_, fun hnum => exec_returnsOnly (exec_clone (hclone hnum))⟩
  · have hc := hbrk hnum
    obtain ⟨t, ht, h⟩ := exec_returnsThrough (exec_brk hc) (.heap (.inl hc) _)
    exact ⟨t, ht, h.retires, h.heap.trans (brkHeap_eq _ _), h.heap ▸ h.returned, h.hiLo, sameMem_of_mem_eq h.mem,
      h.exit, h.preimage, h.sinks, h.parameters⟩
  · have hc := hmmap hnum
    obtain ⟨t, ht, h⟩ := exec_returnsThrough (exec_mmap hc) (.heap (.inr hc) _)
    exact ⟨t, ht, h.retires, h.heap, h.returned, h.hiLo, sameMem_of_mem_eq h.mem, h.exit, h.preimage, h.sinks,
      h.parameters⟩

/-- Settles O49: `read` answers end of file, and a sink gains its bytes before `write` returns. -/
theorem standardDescriptorsReadAndWrite : Obligations.StandardDescriptorsReadAndWrite := by
  unfold Obligations.StandardDescriptorsReadAndWrite
  intro s hd
  obtain ⟨-, -, -, hread, hwrite⟩ := call_of_distinct hd
  refine ⟨fun hnum hfd => ?_, ?_⟩
  · have hc : s.call = .readStdin := (hread hnum).trans (if_pos hfd)
    exact ⟨by simp only [dataAccess, preimageAccess, hc], exec_returnsOnly (exec_readStdin hc)⟩
  · rintro _ hnum hfd rfl
    have hc : s.call = .writeSink := (hwrite hnum).trans (if_pos hfd)
    obtain ⟨t, ht, h⟩ := exec_returnsThrough (exec_writeSink hc) (.sink hc _)
    rw [Memory.readBytes_eq_map] at h
    obtain ⟨hsink1, hsink2⟩ := h.sinks
    obtain ⟨hpkey, hpoff⟩ := h.preimage
    exact ⟨by simp only [dataAccess, preimageAccess, hc], t, ht, h.retires, h.returned,
      hsink1.trans (State.emit_sink1 ..), hsink2.trans (State.emit_sink2_of_standard _ _ hfd), h.hiLo,
      sameMem_of_mem_eq (h.mem.trans (State.emit_mem ..)), h.exit, h.heap.trans (State.emit_heap ..),
      ⟨hpkey.trans (State.emit_pkey ..), hpoff.trans (State.emit_poff ..)⟩, h.parameters⟩

/-- Settles O50: the oracle's answer, then whether a byte is delivered. -/
theorem preimageReadDeliversTheNextBytes : Obligations.PreimageReadDeliversTheNextBytes := by
  unfold Obligations.PreimageReadDeliversTheNextBytes
  intro s hd hnum hfd
  obtain ⟨-, -, -, hread, -⟩ := call_of_distinct hd
  have hc : s.call = .readPreimage := (hread hnum).trans (hfd ▸ readCall_preimage hd)
  have hx := exec_readPreimage hc
  refine ⟨fun ho => hx.trans (readPreimage_of_miss ho), ?_⟩
  rintro v _ m n ho rfl hm hn
  rw [← preimageSpan_eq] at hm
  have hdata : dataAccess .syscall s = if n = 0 then none else some (Memory.wordBase (s.reg 5#5)) := by
    subst hm hn
    simp only [dataAccess, preimageAccess, hc, ho]
    rfl
  by_cases h0 : n = 0
  · have hcount : preimageCount v s.poff (s.reg 5#5) (s.reg 6#5) = 0 := by rw [← h0, hn, hm]; rfl
    obtain ⟨t, ht, h⟩ := exec_returnsThrough (hx.trans (readPreimage_of_count_zero ho hcount)) .nothing
    obtain ⟨hpkey, hpoff⟩ := h.preimage
    rw [if_pos h0] at hdata
    subst h0
    exact ⟨t, ht, h.retires, h.returned, hpoff.trans (BitVec.add_zero _).symm, hpkey,
      fun _ => ⟨sameMem_of_mem_eq h.mem, hdata⟩, fun hpos => absurd hpos (Nat.lt_irrefl 0), h.hiLo, h.exit, h.heap,
      h.sinks, h.parameters⟩
  · obtain ⟨w, hrun, hdeliver⟩ := readPreimage_of_count_ne_zero ho hm hn h0
    rw [if_neg h0] at hdata
    obtain ⟨t, ht, h⟩ := exec_returnsThrough (hx.trans hdeliver) (.word hc w hdata)
    obtain ⟨hpkey, hpoff⟩ := h.preimage
    have hmem : t.mem = Memory.setWordAt s.mem (s.reg 5#5) w := h.mem
    rw [← hmem] at hrun
    exact ⟨t, ht, h.retires, h.returned, hpoff, hpkey, fun hzero => absurd hzero h0,
      fun _ => ⟨hrun.sameMemOutside, hdata, hrun.byte_add⟩, h.hiLo, h.exit, h.heap, h.sinks, h.parameters⟩

/-- Settles O51: whether a byte moves. -/
theorem preimageWriteShiftsTheKey : Obligations.PreimageWriteShiftsTheKey := by
  unfold Obligations.PreimageWriteShiftsTheKey
  rintro s _ m hd hnum hfd rfl hm
  rw [← preimageSpan_eq] at hm
  obtain ⟨-, -, -, -, hwrite⟩ := call_of_distinct hd
  have hc : s.call = .writePreimage := (hwrite hnum).trans (hfd ▸ writeCall_preimage hd)
  have hx := exec_writePreimage hc
  have hdata : dataAccess .syscall s = if m = 0 then none else some (Memory.wordBase (s.reg 5#5)) := by
    subst hm
    simp only [dataAccess, preimageAccess, hc]
    rfl
  by_cases h0 : m = 0
  · obtain ⟨t, ht, h⟩ := exec_returnsThrough (hx.trans (if_pos (hm ▸ h0))) .nothing
    obtain ⟨hpkey, hpoff⟩ := h.preimage
    refine ⟨t, ht, h.retires, h0 ▸ h.returned, ?_, ?_, hdata, h.hiLo, sameMem_of_mem_eq h.mem, h.exit, h.heap, h.sinks,
      h.parameters⟩
    · simp [h0, hpkey]
    · rw [if_pos h0, hpoff]
  · obtain ⟨t, ht, h⟩ := exec_returnsThrough (hx.trans (if_neg (hm ▸ h0))) (.key hc _)
    obtain ⟨hpkey, hpoff⟩ := h.preimage
    refine ⟨t, ht, h.retires, hm ▸ h.returned, ?_, ?_, hdata, h.hiLo, sameMem_of_mem_eq h.mem, h.exit, h.heap, h.sinks,
      h.parameters⟩
    · rw [hpkey, hm]
      exact toList_shiftKey_keyBytes s
    · rw [if_neg h0, hpoff]

/-- Settles O52: no comparison of the number succeeds, or none of the descriptor. -/
theorem unsupportedCallsFail : Obligations.UnsupportedCallsFail := by
  unfold Obligations.UnsupportedCallsFail
  refine fun s => ⟨fun hnum => exec_unknownNumber (call_eq_unknownNumber hnum), fun hd hnum hin hpre => ?_,
    fun hd hnum hout herr hpre => ?_⟩
  all_goals obtain ⟨-, -, -, hread, hwrite⟩ := call_of_distinct hd
  · exact exec_unknownDescriptor ((hread hnum).trans ((if_neg hin).trans (if_neg hpre)))
  · exact exec_unknownDescriptor ((hwrite hnum).trans ((if_neg (not_or.2 ⟨hout, herr⟩)).trans (if_neg hpre)))

end Sys2Proof.Machine
end

section
/-! PROOFS. The family of spec/47_witness.md: what the witness of a completed step holds (O59), and that it suffices to
replay the step (O60). A replayer's state differs from the pre-step state in two ways. Slot 0 of its registers is zero
and its oracle holds no more than the event: the step is the same for any such state (`exec_asReplayed`). Its memory
holds no more than the chunks proved: two runs whose memories agree on these stay together (`AgreeOn.exec`). -/

namespace Sys2Proof.Machine

/-! ### The words a step proves (R233, R234) -/

/-- The words of a step's proofs: `PC`, then that of its data access, if it makes one. -/
def provedWords (i : Instr) (s : State) : List Word := s.pc :: (dataAccess i s).toList

theorem witnessOf_proofs (H : HashFn) (i : Instr) (s : State) :
    (witnessOf H i s).proofs = (provedWords i s).map (memProof H s.mem) := by
  unfold witnessOf provedWords
  cases dataAccess i s <;> rfl

theorem pc_mem_provedWords (i : Instr) (s : State) : s.pc ∈ provedWords i s := List.mem_cons_self

theorem mem_provedWords_of_dataAccess {i : Instr} {s : State} {d : Word} (h : dataAccess i s = some d) :
    d ∈ provedWords i s := by
  simp [provedWords, h]

theorem preimageAccess_eq_some {s : State} {d : Word} (h : preimageAccess s = some d) :
    d = Memory.wordBase (s.reg regA1) := by
  unfold preimageAccess at h
  cases hc : s.call with
  | readPreimage =>
    cases ho : s.oracle.get s.pkey with
    | none => simp [hc, ho] at h
    | some v => simp only [hc, ho, Option.ite_none_left_eq_some, Option.some.injEq] at h; exact h.2.symm
  | writePreimage => simp only [hc, Option.ite_none_left_eq_some, Option.some.injEq] at h; exact h.2.symm
  | exit | brk | mmap | clone | readStdin | writeSink | unknownNumber | unknownDescriptor => simp [hc] at h

/-- R234: a data access is of an aligned word. -/
theorem dataAccess_aligned {i : Instr} {s : State} {d : Word} (h : dataAccess i s = some d) : d &&& 3#32 = 0#32 := by
  cases i
  case syscall => rw [preimageAccess_eq_some h]; exact Memory.wordBase_aligned _
  case lb | lbu | lh | lhu | lw | lwl | lwr | sb | sh | sw | swl | swr => cases h; exact Memory.wordBase_aligned _
  all_goals cases h

theorem provedWords_aligned {i : Instr} {s t : State} (h : step s = .next t) {a : Word} (ha : a ∈ provedWords i s) :
    a &&& 3#32 = 0#32 := by
  obtain rfl | ha := List.mem_cons.1 ha
  · obtain ⟨-, hpc, -⟩ := step_eq_next h
    exact hpc
  · exact dataAccess_aligned (Option.mem_toList.1 ha)

/-! ### The event (R235) -/

theorem returns_reg_two {v : Word} {s t : State} (h : returns v s = .next t) : t.reg 2#5 = v := by
  rw [returns_eq_next.1 h, State.advance_reg, reg_returns]
  rfl

/-- R222: a completed preimage read returns the number of bytes it delivered. -/
theorem readPreimage_reg_two {s t : State} (h : readPreimage s = .next t) : ∃ v, s.oracle.get s.pkey = some v ∧
    (t.reg 2#5).toNat = preimageCount v s.poff (s.reg regA1) (s.reg regA2) := by
  obtain ⟨v, ho, ⟨hn, hx⟩ | ⟨-, hx⟩⟩ := readPreimage_eq_next h
  · exact ⟨v, ho, by rw [returns_reg_two hx, hn]; rfl⟩
  · have hspan : preimageCount v s.poff (s.reg regA1) (s.reg regA2) ≤ 4 :=
      ((Nat.min_le_left _ _).trans (Nat.min_le_left _ _)).trans (Nat.sub_le _ _)
    exact ⟨v, ho, by rw [returns_reg_two hx, BitVec.toNat_ofNat, Nat.mod_eq_of_lt (by omega)]⟩

/-- R235: when there is an event, and what it holds. -/
theorem preimageEvent_of_exec {i : Instr} {s t : State} (hx : exec i s = .next t) :
    ((preimageEvent i s).isSome = true ↔ i = .syscall ∧ s.call = .readPreimage) ∧
      ∀ e, preimageEvent i s = some e → e.key = s.pkey ∧ e.offset = s.poff ∧
        ∃ v, s.oracle.get s.pkey = some v ∧ e.data = (v.drop s.poff.toNat).take (t.reg 2#5).toNat := by
  by_cases hread : i = .syscall ∧ s.call = .readPreimage
  · obtain ⟨rfl, hc⟩ := hread
    obtain ⟨v, ho, hn⟩ := readPreimage_reg_two ((exec_readPreimage hc).symm.trans hx)
    have hevent : preimageEvent .syscall s =
        some ⟨s.pkey, s.poff, (v.drop s.poff.toNat).take (t.reg 2#5).toNat⟩ := by
      simp [preimageEvent, syscallEvent, hc, ho, hn]
    rw [hevent]
    refine ⟨by simp [hc], ?_⟩
    rintro e ⟨⟩
    exact ⟨rfl, rfl, v, ho, rfl⟩
  · have hevent : preimageEvent i s = none := by
      unfold preimageEvent syscallEvent
      rw [← ite_and, if_neg hread]
    simp [hevent, hread]

/-- Settles O59: each proof is of one of the proved words, and the tree verifies any such proof. -/
theorem witnessHoldsValidProofs : Obligations.WitnessHoldsValidProofs := by
  unfold Obligations.WitnessHoldsValidProofs
  intro H s t i _ h hdec
  obtain ⟨-, -, j, hj, hx⟩ := step_eq_next h
  obtain rfl : j = i := by simpa [decode, hj, wellFormed_of_exec_eq_next hx] using hdec
  obtain ⟨hsome, hevent⟩ := preimageEvent_of_exec hx
  refine ⟨_, witnessWith_of_decode H h hj, rfl, ?_, ?_, hsome, hevent⟩
  · rw [witnessOf_proofs, List.map_map]
    exact List.map_id _
  · rw [witnessOf_proofs, List.forall_mem_map]
    exact fun a ha => ⟨provedWords_aligned h ha, rfl, rfl, rootFrom_merkleProofWith H s.mem a⟩

end Sys2Proof.Machine
end

section
/-! PROOFS. The first half of O60: a step does not see what slot 0 of the registers holds (R11, R98), nor what else
the oracle holds beside the event (R235, R237). -/

namespace Sys2Proof.Machine

/-- A state with slot 0 of its registers zero, as an encoding has it (R30), and under another oracle. -/
def State.asReplayed (s : State) (o : Oracle) : State := { s with regs := s.regs.set 0 0#32, oracle := o }

/-- The oracle a replayer makes of the event of an execution (R235, R237). -/
def eventOracle (i : Instr) (s : State) : Oracle := replayOracle (preimageEvent i s)

namespace State

variable (s : State) (o : Oracle)

/-! #### What is read -/

@[simp] theorem asReplayed_mem : (s.asReplayed o).mem = s.mem := rfl
@[simp] theorem asReplayed_poff : (s.asReplayed o).poff = s.poff := rfl

theorem asReplayed_oracle_get : (s.asReplayed o).oracle.get (s.asReplayed o).pkey = o.get s.pkey := rfl

@[simp] theorem asReplayed_reg (r : Reg) : (s.asReplayed o).reg r = s.reg r := by
  unfold reg
  split
  case isTrue => rfl
  case isFalse h => exact Vector.getElem_set_ne (by decide) _ (BitVec.toNat_ne_iff_ne.2 (Ne.symm h))

@[simp] theorem asReplayed_call : (s.asReplayed o).call = s.call := by
  rw [call, asReplayed_reg, asReplayed_reg]; rfl

@[simp] theorem asReplayed_effAddr (rs : Reg) (imm : BitVec 16) :
    effAddr (s.asReplayed o) rs imm = effAddr s rs imm := by
  rw [effAddr, asReplayed_reg, effAddr]

@[simp] theorem asReplayed_shiftAmount (rs : Reg) : shiftAmount (s.asReplayed o) rs = shiftAmount s rs := by
  rw [shiftAmount, asReplayed_reg, shiftAmount]

@[simp] theorem asReplayed_keyBytes : keyBytes (s.asReplayed o) = keyBytes s := by simp [keyBytes]

/-- R30: an encoding has slot 0 zero. -/
theorem header_regs (root : Hash) : (s.header root).regs = s.regs.set 0 0#32 := by
  refine Vector.ext fun k hk => ?_
  by_cases h0 : k = 0
  · subst h0; simp [header]
  · have hne : (BitVec.ofFin ⟨k, hk⟩ : Reg) ≠ 0#5 := fun h => h0 (congrArg BitVec.toNat h)
    simp [header, reg, hne, Ne.symm h0]

/-! #### What is done -/

theorem setReg_asReplayed (r : Reg) (v : Word) : (s.asReplayed o).setReg r v = (s.setReg r v).asReplayed o := by
  unfold setReg
  split
  case isTrue => rfl
  case isFalse h =>
    have h0 : 0 ≠ r.toNat := BitVec.toNat_ne_iff_ne.2 (Ne.symm h)
    unfold asReplayed
    rw [Vector.set_comm _ _ h0]

theorem link_asReplayed (r : Reg) : link r (s.asReplayed o) = (link r s).asReplayed o := s.setReg_asReplayed o r _

theorem emit_asReplayed (fd : Word) (bytes : List Byte) :
    (s.asReplayed o).emit fd bytes = (s.emit fd bytes).asReplayed o := by
  unfold emit
  split <;> rfl

/-- R98: retirement zeroes slot 0 in any case. -/
theorem retire_asReplayed (n : Word) : (s.asReplayed o).retire n = (s.retire n).withOracle o := by
  simp [asReplayed, retire, withOracle]

end State

section Replayed

variable {s : State} {o : Oracle}

/-! #### The shared operations -/

theorem completeTo_asReplayed {n n' : Word} (h : n' = n) {u u' : State} (hu : u' = u.asReplayed o) :
    completeTo n' u' = Result.withOracle o (completeTo n u) := by
  subst h hu
  exact congrArg Host.Outcome.next (u.retire_asReplayed o n')

theorem complete_asReplayed {u u' : State} (hu : u' = u.asReplayed o) :
    complete u' = Result.withOracle o (complete u) :=
  completeTo_asReplayed (by rw [hu]; rfl) hu

theorem loaded_asReplayed (rt : Reg) {v v' : Word} (h : v' = v) :
    loaded rt v' (s.asReplayed o) = Result.withOracle o (loaded rt v s) :=
  complete_asReplayed (h ▸ s.setReg_asReplayed o rt v')

theorem loadedIf_asReplayed (rt : Reg) {r r' : Except Fault Word} (h : r' = r) :
    loadedIf rt r' (s.asReplayed o) = Result.withOracle o (loadedIf rt r s) := by
  subst h
  cases r' with
  | ok v => exact loaded_asReplayed rt rfl
  | error e => rfl

theorem stored_asReplayed {m m' : Memory} (h : m' = m) :
    complete ((s.asReplayed o).setMem m') = Result.withOracle o (complete (s.setMem m)) :=
  complete_asReplayed (h ▸ rfl)

theorem storedIf_asReplayed {r r' : Except Fault Memory} (h : r' = r) :
    storedIf r' (s.asReplayed o) = Result.withOracle o (storedIf r s) := by
  subst h
  cases r' with
  | ok m => exact stored_asReplayed rfl
  | error e => rfl

theorem writeHiLo_asReplayed {hi lo hi' lo' : Word} (hh : hi' = hi) (hl : lo' = lo) :
    writeHiLo hi' lo' (s.asReplayed o) = Result.withOracle o (writeHiLo hi lo s) :=
  complete_asReplayed (hh ▸ hl ▸ rfl)

theorem returns_asReplayed {v v' : Word} (h : v' = v) {u u' : State} (hu : u' = u.asReplayed o) :
    returns v' u' = Result.withOracle o (returns v u) :=
  complete_asReplayed (by rw [h, hu, State.setReg_asReplayed, State.setReg_asReplayed])

theorem branchIf_asReplayed {c c' : Bool} (h : c' = c) (imm : BitVec 16) {u u' : State} (hu : u' = u.asReplayed o) :
    branchIf c' imm (s.asReplayed o) u' = Result.withOracle o (branchIf c imm s u) := by
  subst h
  exact Result.ite_withOracle (completeTo_asReplayed rfl hu) (complete_asReplayed hu)

/-! #### The preimage channel -/

/-- A value of zeros up to an offset and then the bytes delivered from there delivers the same bytes. -/
theorem preimageChunk_padded (v : List Byte) (poff : Word) (n : Nat) :
    preimageChunk (List.replicate poff.toNat 0#8 ++ (v.drop poff.toNat).take n) poff n = preimageChunk v poff n := by
  rw [preimageChunk, List.drop_left' List.length_replicate, List.take_take, Nat.min_self, preimageChunk]

/-- It delivers as many. -/
theorem preimageCount_padded (v : List Byte) (poff buffer count : Word) :
    preimageCount (List.replicate poff.toNat 0#8 ++ (v.drop poff.toNat).take (preimageCount v poff buffer count)) poff
      buffer count = preimageCount v poff buffer count := by
  simp only [preimageCount, preimageRest, List.length_append, List.length_replicate, List.length_take, List.length_drop]
  omega

/-- R237: what the replayer's oracle answers at `pkey`. -/
theorem get_eventOracle (hc : s.call = .readPreimage) : (eventOracle .syscall s).get s.pkey =
    (s.oracle.get s.pkey).map fun v => List.replicate s.poff.toNat 0#8 ++
      (v.drop s.poff.toNat).take (preimageCount v s.poff (s.reg regA1) (s.reg regA2)) := by
  unfold eventOracle preimageEvent syscallEvent
  rw [if_pos rfl, if_pos hc]
  cases s.oracle.get s.pkey with
  | none => rfl
  | some v => exact if_pos rfl

theorem readPreimage_asReplayed (hc : s.call = .readPreimage) :
    readPreimage (s.asReplayed (eventOracle .syscall s)) =
      Result.withOracle (eventOracle .syscall s) (readPreimage s) := by
  unfold readPreimage
  rw [State.asReplayed_oracle_get, get_eventOracle hc]
  cases s.oracle.get s.pkey with
  | none => rfl
  | some v =>
    simp only [Option.map_some, State.asReplayed_poff, State.asReplayed_reg, preimageCount_padded, preimageChunk_padded]
    exact Result.ite_withOracle (returns_asReplayed rfl rfl) (returns_asReplayed rfl rfl)

/-- R234: the event delivers a byte if the value does. -/
theorem preimageAccess_asReplayed : preimageAccess (s.asReplayed (eventOracle .syscall s)) = preimageAccess s := by
  unfold preimageAccess
  rw [State.asReplayed_call]
  cases hc : s.call with
  | readPreimage =>
    rw [State.asReplayed_oracle_get, get_eventOracle hc]
    cases s.oracle.get s.pkey with
    | none => rfl
    | some v => simp only [Option.map_some, State.asReplayed_poff, State.asReplayed_reg, preimageCount_padded]
  | writePreimage => simp only [State.asReplayed_reg]
  | exit | brk | mmap | clone | readStdin | writeSink | unknownNumber | unknownDescriptor => rfl

/-! #### The instructions -/

theorem execSyscall_asReplayed :
    execSyscall (s.asReplayed (eventOracle .syscall s)) =
      Result.withOracle (eventOracle .syscall s) (execSyscall s) := by
  unfold execSyscall
  rw [State.asReplayed_call]
  cases hc : s.call with
  | exit =>
    simp only [sysExit, State.asReplayed_reg]
    exact complete_asReplayed rfl
  | brk | mmap | clone | readStdin =>
    simp only [sysBrk, sysMmap, sysClone, readStdin, State.asReplayed_reg]
    exact returns_asReplayed rfl rfl
  | readPreimage => exact readPreimage_asReplayed hc
  | writeSink =>
    simp only [writeSink, State.asReplayed_reg]
    exact returns_asReplayed rfl (s.emit_asReplayed _ _ _)
  | writePreimage =>
    simp only [writePreimage, State.asReplayed_reg, State.asReplayed_keyBytes]
    exact Result.ite_withOracle (returns_asReplayed rfl rfl) (returns_asReplayed rfl rfl)
  | unknownNumber | unknownDescriptor =>
    simp only [State.asReplayed_reg]
    rfl

/-- R11, R98, R237: an execution answers the same whatever slot 0 holds and whatever the oracle has
beside the event. -/
theorem exec_asReplayed (i : Instr) (s : State) :
    exec i (s.asReplayed (eventOracle i s)) = Result.withOracle (eventOracle i s) (exec i s) := by
  generalize ho : eventOracle i s = o
  cases i
  case syscall => subst ho; exact execSyscall_asReplayed
  case mult | multu => exact writeHiLo_asReplayed (by simp) (by simp)
  case mthi => exact writeHiLo_asReplayed (by simp) rfl
  case mtlo => exact writeHiLo_asReplayed rfl (by simp)
  case div | divu =>
    simp only [exec, execDiv, execDivu, State.asReplayed_reg]
    exact Result.ite_withOracle rfl (writeHiLo_asReplayed rfl rfl)
  case sll | srl | sra | sllv | srlv | srav | add | addu | sub | subu | and | or | xor | nor | slt | sltu | addi | addiu
    | slti | sltiu | andi | ori | xori | lb | lbu => exact loaded_asReplayed _ (by simp)
  case lui | mfhi | mflo => exact loaded_asReplayed _ rfl
  case lh | lhu | lw => exact loadedIf_asReplayed _ (by simp)
  case lwl | lwr => exact unalignedOnly_withOracle _ (loaded_asReplayed _ (by simp))
  case sb => exact stored_asReplayed (by simp)
  case sh | sw => exact storedIf_asReplayed (by simp)
  case swl | swr => exact unalignedOnly_withOracle _ (stored_asReplayed (by simp))
  case j => exact transferCheck_withOracle (completeTo_asReplayed rfl rfl)
  case jr => exact transferCheck_withOracle (completeTo_asReplayed (by simp) rfl)
  case jal => exact transferCheck_withOracle (completeTo_asReplayed rfl (s.link_asReplayed o _))
  case jalr => exact transferCheck_withOracle (completeTo_asReplayed (by simp) (s.link_asReplayed o _))
  case beq | bne | blez | bgtz | bltz | bgez => exact transferCheck_withOracle (branchIf_asReplayed (by simp) _ rfl)
  case bltzal | bgezal =>
    exact transferCheck_withOracle (branchIf_asReplayed (by simp) _ (s.link_asReplayed o _))
  case breakpoint | cop0 | cop1 | cop2 | cop3 | lwc0 | lwc1 | lwc2 | lwc3 | swc0 | swc1 | swc2 | swc3 => rfl

theorem dataAccess_asReplayed (i : Instr) (s : State) :
    dataAccess i (s.asReplayed (eventOracle i s)) = dataAccess i s := by
  generalize ho : eventOracle i s = o
  cases i
  case syscall => subst ho; exact preimageAccess_asReplayed
  case lb | lbu | lh | lhu | lw | lwl | lwr | sb | sh | sw | swl | swr => simp [dataAccess]
  all_goals rfl

end Replayed

end Sys2Proof.Machine
end

section
/-! PROOFS. The second half of O60: the memory the proofs reveal agrees with the pre-step memory on the chunks proved,
so the replayed step agrees with the step on them, and the data proof gives the new root (R55, R237). -/

namespace Sys2Proof.Machine

/-! ### The memory revealed -/

/-- The address lies in the chunk of one of these words. -/
def Proved (as : List Word) (a : Word) : Prop := ∃ b ∈ as, chunkIndex b = chunkIndex a

theorem proved_of_mem {as : List Word} {a : Word} (h : a ∈ as) : Proved as a := ⟨a, h, rfl⟩

theorem chunkIndex_eq (a : Word) : chunkIndex a = a.toNat / 32 := rfl

theorem chunkIndex_wordBase (a : Word) : chunkIndex (Memory.wordBase a) = chunkIndex a := by
  rw [chunkIndex_eq, chunkIndex_eq, Memory.toNat_wordBase]
  omega

/-- What every byte reads after a chunk is stored at its place. -/
theorem readByte_storeBytes_chunk (m m' : Memory) (c b : Nat) :
    Memory.readByte (Memory.storeBytes m' (Config.chunkBytes * c) (chunk m c)) b =
      if b / 32 = c then Memory.readByte m b else Memory.readByte m' b := by
  rw [Memory.readByte_storeBytes, length_chunk, Config.chunkBytes]
  by_cases h : b / 32 = c
  · have hi : b - 32 * c < (chunk m c).length := by rw [length_chunk]; omega
    rw [if_pos (by omega), if_pos h, List.getD_eq_getElem _ _ hi, getElem_chunk]
    congr 1; omega
  · rw [if_neg (by omega), if_neg h]

/-- A byte that reads right stays so while chunks are stored, and storing its own chunk makes it so. -/
theorem readByte_storeChunks (H : HashFn) (m : Memory) (b : Nat) (as : List Word) (m' : Memory)
    (h : Memory.readByte m' b = Memory.readByte m b ∨ ∃ a ∈ as, chunkIndex a = b / 32) :
    Memory.readByte ((as.map (memProof H m)).foldl
      (fun m p => Memory.storeBytes m (Config.chunkBytes * chunkIndex p.addr) p.chunk) m') b = Memory.readByte m b := by
  induction as generalizing m' with
  | nil => simpa using h
  | cons a as ih =>
    refine ih _ ?_
    rw [memProof, readByte_storeBytes_chunk]
    by_cases hb : b / 32 = chunkIndex a
    · exact .inl (if_pos hb)
    · rw [if_neg hb]
      refine h.imp_right fun ⟨c, hc, hcb⟩ => ⟨c, (List.mem_cons.1 hc).resolve_left ?_, hcb⟩
      rintro rfl
      exact hb hcb.symm

/-- R237: what the proofs of a memory reveal reads, in the chunks proved, as that memory does. -/
theorem wordAt_revealed (H : HashFn) (m : Memory) {as : List Word} {a : Word} (h : Proved as a) :
    Memory.wordAt (revealed (as.map (memProof H m))) a = Memory.wordAt m a := by
  refine Memory.wordAt_congr fun i hlo hhi => readByte_storeChunks H m i as [] (.inr ?_)
  obtain ⟨b, hb, hba⟩ := h
  refine ⟨b, hb, hba.trans ?_⟩
  rw [Memory.toNat_wordBase] at hlo hhi
  rw [chunkIndex_eq]
  omega

/-! ### The root after the step -/

/-- States that agree on every word of a chunk agree on the chunk. -/
theorem AgreeOn.chunk_eq {as : List Word} {s u : State} (h : AgreeOn (Proved as) s u) {a : Word} (ha : Proved as a) :
    chunk u.mem (chunkIndex a) = chunk s.mem (chunkIndex a) := by
  refine chunk_congr fun b hb => ?_
  rw [chunkIndex_eq] at hb
  have hlt : b < 2 ^ 32 := by
    have := a.isLt
    omega
  have hword : (BitVec.ofNat 32 b).toNat = b := by rw [BitVec.toNat_ofNat, Nat.mod_eq_of_lt hlt]
  have hbyte : Memory.memReadByte u.mem (BitVec.ofNat 32 b) = Memory.memReadByte s.mem (BitVec.ofNat 32 b) := by
    obtain ⟨c, hc, hca⟩ := ha
    refine h.memReadByte ⟨c, hc, hca.trans ?_⟩
    rw [chunkIndex_wordBase, chunkIndex_eq, chunkIndex_eq, hword, hb]
  rwa [Memory.memReadByte_eq_readByte, Memory.memReadByte_eq_readByte, hword] at hbyte

/-- R42: a completed execution changes no chunk but that of its data access. -/
theorem Effect.chunk_eq {i : Instr} {s t : State} (h : Effect i s t) {c : Nat}
    (hc : ∀ d, dataAccess i s = some d → c ≠ chunkIndex d) : chunk t.mem c = chunk s.mem c := by
  obtain hmem | ⟨addr, v, hd, hmem, -⟩ := h.mem_cases
  · rw [hmem]
  · rw [hmem, chunk_setWordAt_of_ne _ _ _ (chunkIndex_wordBase addr ▸ hc _ hd)]

/-- R55, R237: the new root is computed from any memory that has the data access's chunk right. -/
theorem Effect.replayRoot_eq {i : Instr} {s t : State} (h : Effect i s t) (H : HashFn) {m : Memory}
    (hm : ∀ d, dataAccess i s = some d → chunk m (chunkIndex d) = chunk t.mem (chunkIndex d)) :
    replayRoot H (merkleRootWith H s.mem) ((dataAccess i s).toList.map (memProof H s.mem)) m =
      merkleRootWith H t.mem := by
  cases hd : dataAccess i s with
  | none => exact (node_congr fun c _ => h.chunk_eq (by simp [hd])).symm
  | some d =>
    have hproof : merkleProofWith H t.mem d = merkleProofWith H s.mem d :=
      merkleProofWith_congr fun c hc => h.chunk_eq (by simpa [hd] using hc)
    calc rootFrom H (chunkIndex d) (chunk m (chunkIndex d)) (merkleProofWith H s.mem d)
      _ = rootFrom H (chunkIndex d) (chunk t.mem (chunkIndex d)) (merkleProofWith H t.mem d) := by rw [hm d hd, hproof]
      _ = merkleRootWith H t.mem := rootFrom_merkleProofWith H t.mem d

/-! ### Replay -/

theorem valid_memProof (H : HashFn) (m : Memory) {a : Word} (ha : a &&& 3#32 = 0#32) :
    (memProof H m a).valid H (merkleRootWith H m) = true := by
  have hroot := rootFrom_merkleProofWith H m a
  have hlen : (merkleProofWith H m a).length = Config.depth := by simp [merkleProofWith]
  simp [MemProof.valid, memProof, ha, hroot, hlen, Config.chunkBytes]

/-- What `replay` answers for a witness that checks and whose step completes. -/
theorem replay_of_step {H : HashFn} {cfg : Config} {w : StepWitness} {h : Header} {f : MemProof} {ds : List MemProof}
    {u : State} (hpre : decodeWitness w.preState = some h) (hproofs : w.proofs = f :: ds) (hpc : f.addr = h.pc)
    (hvalid : ∀ p ∈ w.proofs, p.valid H h.root = true) (hstep : step (replayState cfg h w) = .next u) :
    replay H cfg w = some (u.header (replayRoot H h.root ds u.mem)).encode := by
  rw [hproofs, ← List.all_eq_true] at hvalid
  simp only [replay, hpre, hproofs, hpc, hvalid, hstep, and_self, if_true]

/-- An encoding holds none of the fields on which two agreeing states may differ. -/
theorem AgreeOn.header_eq {P : Word → Prop} {s u : State} (h : AgreeOn P s u) (root : Hash) :
    u.header root = s.header root := by
  rw [h.fields]; rfl

/-- The state a replayer makes of a pre-step state and the witness of its step (R237). -/
def replayedState (H : HashFn) (i : Instr) (s : State) : State :=
  replayState s.cfg (s.header (merkleRootWith H s.mem)) (witnessOf H i s)

theorem agreeOn_replayedState (H : HashFn) (i : Instr) (s : State) :
    AgreeOn (Proved (provedWords i s)) (s.asReplayed (eventOracle i s)) (replayedState H i s) where
  fields := by
    unfold replayedState replayState
    rw [State.header_regs]
    rfl
  words a ha := by
    unfold replayedState replayState
    rw [witnessOf_proofs]
    exact wordAt_revealed H s.mem ha

/-- R237: the replayed step completes, and its next state agrees with the step's on the chunks proved. -/
theorem step_replayedState (H : HashFn) {i : Instr} {s t : State} (h : step s = .next t)
    (hd : decodeWord (Memory.wordAt s.mem s.pc) = .ok i) (hx : exec i s = .next t) :
    ∃ u, step (replayedState H i s) = .next u ∧
      AgreeOn (Proved (provedWords i s)) (t.withOracle (eventOracle i s)) u := by
  obtain ⟨he, hpc, -⟩ := step_eq_next h
  have hagree := agreeOn_replayedState H i s
  have hdata (d : Word) (hda : dataAccess i (s.asReplayed (eventOracle i s)) = some d) :
      Proved (provedWords i s) d :=
    proved_of_mem (mem_provedWords_of_dataAccess ((dataAccess_asReplayed i s).symm.trans hda))
  have hexec := exec_asReplayed i s
  rw [hx] at hexec
  obtain ⟨u, hu, htu⟩ := hagree.exec rfl hdata _ hexec
  have hfetch := hagree.words s.pc (proved_of_mem (pc_mem_provedWords i s))
  have hstep : step (replayedState H i s) = exec i (replayedState H i s) :=
    step_of_decode (s := replayedState H i s) he hpc ((congrArg decodeWord hfetch).trans hd)
  exact ⟨u, hstep.trans hu, htu⟩

/-- Settles O60: the replayed step completes in a state of the same fields, and the data proof gives the new root. -/
theorem replayComputesThePostState : Obligations.ReplayComputesThePostState := by
  unfold Obligations.ReplayComputesThePostState
  intro H s t _ h
  obtain ⟨-, -, i, hd, hx⟩ := step_eq_next h
  obtain ⟨u, hu, htu⟩ := step_replayedState H h hd hx
  have hroot := (exec_effect hx).replayRoot_eq H (m := u.mem) fun d hda =>
    htu.chunk_eq (proved_of_mem (mem_provedWords_of_dataAccess hda))
  have hvalid : ∀ p ∈ (witnessOf H i s).proofs, p.valid H (merkleRootWith H s.mem) = true := by
    rw [witnessOf_proofs, List.forall_mem_map]
    exact fun a ha => valid_memProof H s.mem (provedWords_aligned h ha)
  have hpre : decodeWitness (witnessOf H i s).preState = some (s.header (merkleRootWith H s.mem)) :=
    decodeWitness_encode _
  refine ⟨_, witnessWith_of_decode H h hd, ?_⟩
  rw [replay_of_step hpre (witnessOf_proofs H i s) rfl hvalid hu]
  exact congrArg (fun e => some (Header.encode e)) ((congrArg u.header hroot).trans (htu.header_eq _))

end Sys2Proof.Machine
end

section
/-! PROOFS. The families of spec/60_exceptions.md and spec/70_reset_and_hazards.md: which error a step reports (O8) and
the state a silent loader hands over (O22). A failing step is inverted one shared operation at a time, and each error of
R250 is read off the operation that raises it. -/

namespace Sys2Proof.Machine

/-! ### The errors of the shared operations (R142, R162) -/

section Errors

variable {e : Fault}

/-- The four accesses that may be misaligned fail in their alignment check or not at all. -/
theorem checked_eq_error {α : Type} {p : Prop} [Decidable p] {v : α} {a : Word} :
    (if p then Except.ok v else .error (Fault.misalignedAccess a)) = .error e ↔ ¬ p ∧ e = .misalignedAccess a := by
  by_cases h : p
  · simp [h]
  · simp [h, eq_comm]

theorem memReadHalf_eq_error {m : Memory} {a : Word} :
    Memory.memReadHalf m a = .error e ↔ a &&& 1#32 ≠ 0#32 ∧ e = .misalignedAccess a := checked_eq_error

theorem memWriteHalf_eq_error {m : Memory} {a : Word} {v : BitVec 16} :
    Memory.memWriteHalf m a v = .error e ↔ a &&& 1#32 ≠ 0#32 ∧ e = .misalignedAccess a := checked_eq_error

theorem memReadWord_eq_error {m : Memory} {a : Word} :
    Memory.memReadWord m a = .error e ↔ a &&& 3#32 ≠ 0#32 ∧ e = .misalignedAccess a := checked_eq_error

theorem memWriteWord_eq_error {m : Memory} {a v : Word} :
    Memory.memWriteWord m a v = .error e ↔ a &&& 3#32 ≠ 0#32 ∧ e = .misalignedAccess a := checked_eq_error

theorem map_eq_error {α β : Type} {f : α → β} {r : Except Fault α} : r.map f = .error e ↔ r = .error e := by
  cases r <;> simp [Except.map]

theorem loadedIf_eq_fault {rt : Reg} {r : Except Fault Word} {s : State} :
    loadedIf rt r s = .fault e ↔ r = .error e := by
  cases r <;> simp [loadedIf, loaded, complete, raise]

theorem storedIf_eq_fault {r : Except Fault Memory} {s : State} : storedIf r s = .fault e ↔ r = .error e := by
  cases r <;> simp [storedIf, complete, raise]

/-- A transfer fails in the check or not at all. -/
theorem exec_transfer_eq_fault {i : Instr} {s : State} (hi : Transfer i) :
    exec i s = .fault e ↔ ¬ SlotFree s ∧ e = .branchInDelaySlot s.pc := by
  by_cases hs : SlotFree s
  · obtain ⟨n, u, hx, -⟩ := checksAndStages_of_transfer hi s
    rw [hx, transferCheck_pass hs]
    simp [completeTo, hs]
  · simp [exec_of_not_slotFree hi hs, hs, eq_comm]

end Errors

/-! ### The errors of `syscall` (R202, R208, R210, R221) -/

theorem readCall_ne_unknownNumber (c : Config) (fd : Word) : readCall c fd ≠ .unknownNumber := by
  unfold readCall
  split_ifs <;> exact nofun

theorem writeCall_ne_unknownNumber (c : Config) (fd : Word) : writeCall c fd ≠ .unknownNumber := by
  unfold writeCall
  split_ifs <;> exact nofun

theorem readCall_eq_unknownDescriptor {c : Config} {fd : Word} :
    readCall c fd = .unknownDescriptor ↔ fd ∉ [Config.fdStdin, c.fdPreimage] := by
  simp [readCall, ite_eq_iff]

theorem writeCall_eq_unknownDescriptor {c : Config} {fd : Word} :
    writeCall c fd = .unknownDescriptor ↔ fd ∉ [Config.fdStdout, Config.fdStderr, c.fdPreimage] := by
  simp [writeCall, ite_eq_iff, and_assoc]

theorem number_of_unknownNumber {s : State} (h : s.call = .unknownNumber) :
    s.reg 2#5 ∉ [s.cfg.sysExit, s.cfg.sysExitGroup, s.cfg.sysBrk, s.cfg.sysMmap, s.cfg.sysClone, s.cfg.sysRead,
      s.cfg.sysWrite] := by
  unfold State.call callOf regV0 at h
  split_ifs at h with hexit hbrk hmmap hclone hread hwrite
  · exact absurd h (readCall_ne_unknownNumber _ _)
  · exact absurd h (writeCall_ne_unknownNumber _ _)
  · simpa [hbrk, hmmap, hclone, hread, hwrite] using hexit

theorem registers_of_unknownDescriptor {s : State} (h : s.call = .unknownDescriptor) :
    (s.reg 2#5 = s.cfg.sysRead ∧ s.reg 4#5 ∉ [Config.fdStdin, s.cfg.fdPreimage]) ∨
    (s.reg 2#5 = s.cfg.sysWrite ∧ s.reg 4#5 ∉ [Config.fdStdout, Config.fdStderr, s.cfg.fdPreimage]) := by
  rw [← readCall_eq_unknownDescriptor, ← writeCall_eq_unknownDescriptor]
  unfold State.call callOf regV0 regA0 at h
  split_ifs at h with _ _ _ _ hread hwrite
  · exact .inl ⟨hread, h⟩
  · exact .inr ⟨hwrite, h⟩

/-- A preimage read fails for want of a value or not at all. -/
theorem readPreimage_eq_fault {s : State} {e : Fault} (h : readPreimage s = .fault e) :
    s.oracle.get s.pkey = none ∧ e = .oracleMiss s.pkey := by
  cases ho : s.oracle.get s.pkey with
  | none =>
    rw [readPreimage_of_miss ho] at h
    cases h
    exact ⟨rfl, rfl⟩
  | some v =>
    simp only [readPreimage, ho] at h
    split at h <;> cases h

theorem syscallFailsWith_of_exec {s : State} {e : Fault} (h : exec .syscall s = .fault e) : SyscallFailsWith s e := by
  cases hc : s.call with
  | exit => cases (exec_exit hc).symm.trans h
  | brk => cases (exec_brk hc).symm.trans h
  | mmap => cases (exec_mmap hc).symm.trans h
  | clone => cases (exec_clone hc).symm.trans h
  | readStdin => cases (exec_readStdin hc).symm.trans h
  | writeSink => cases (exec_writeSink hc).symm.trans h
  | writePreimage =>
    rw [exec_writePreimage hc, writePreimage] at h
    split at h <;> cases h
  | readPreimage =>
    rw [exec_readPreimage hc] at h
    obtain ⟨-, -, -, hread, -⟩ := call_registers s
    obtain ⟨hnum, hfd⟩ := hread hc
    exact .inr (.inr (.inr ⟨hnum, hfd, readPreimage_eq_fault h⟩))
  | unknownNumber =>
    cases (exec_unknownNumber hc).symm.trans h
    exact .inl ⟨number_of_unknownNumber hc, rfl⟩
  | unknownDescriptor =>
    cases (exec_unknownDescriptor hc).symm.trans h
    obtain ⟨hnum, hfd⟩ | ⟨hnum, hfd⟩ := registers_of_unknownDescriptor hc
    · exact .inr (.inl ⟨hnum, hfd, rfl⟩)
    · exact .inr (.inr (.inl ⟨hnum, hfd, rfl⟩))

theorem exec_of_syscallFailsWith {s : State} {e : Fault} (hd : DistinctCalls s.cfg) (h : SyscallFailsWith s e) :
    exec .syscall s = .fault e := by
  obtain ⟨-, -, -, hread, hwrite⟩ := call_of_distinct hd
  obtain ⟨hnum, rfl⟩ | ⟨hnum, hfd, rfl⟩ | ⟨hnum, hfd, rfl⟩ | ⟨hnum, hfd, ho, rfl⟩ := h
  · exact exec_unknownNumber (call_eq_unknownNumber (by simpa [and_comm, and_left_comm, and_assoc] using hnum))
  · exact exec_unknownDescriptor ((hread hnum).trans (readCall_eq_unknownDescriptor.2 hfd))
  · exact exec_unknownDescriptor ((hwrite hnum).trans (writeCall_eq_unknownDescriptor.2 hfd))
  · rw [exec_readPreimage ((hread hnum).trans (hfd ▸ readCall_preimage hd)), readPreimage_of_miss ho]

/-! ### The error of an instruction (R250) -/

theorem failsWith_of_transfer {i : Instr} {s : State} {e : Fault} (hi : Transfer i) (h : exec i s = .fault e) :
    FailsWith i s e :=
  .inl ⟨hi, (exec_transfer_eq_fault hi).1 h⟩

/-- What a legal instruction that fails met, by the shared operation its meaning ends in. -/
theorem failsWith_of_exec {i : Instr} {s : State} {e : Fault} (hi : i.wellFormed s.cfg = true)
    (h : exec i s = .fault e) : FailsWith i s e := by
  cases i
  case j | jal | jr | jalr | beq | bne | blez | bgtz | bltz | bgez | bltzal | bgezal =>
    exact failsWith_of_transfer (by simp [Transfer]) h
  case lh rt imm rs | lhu rt imm rs =>
    have hread := map_eq_error.1 (loadedIf_eq_fault.1 h)
    exact .inr (.inl ⟨_, ⟨rt, imm, rs, by simp, rfl⟩, memReadHalf_eq_error.1 hread⟩)
  case sh rt imm rs =>
    exact .inr (.inl ⟨_, ⟨rt, imm, rs, by simp, rfl⟩, memWriteHalf_eq_error.1 (storedIf_eq_fault.1 h)⟩)
  case lw rt imm rs =>
    exact .inr (.inr (.inl ⟨_, ⟨rt, imm, rs, by simp, rfl⟩, memReadWord_eq_error.1 (loadedIf_eq_fault.1 h)⟩))
  case sw rt imm rs =>
    exact .inr (.inr (.inl ⟨_, ⟨rt, imm, rs, by simp, rfl⟩, memWriteWord_eq_error.1 (storedIf_eq_fault.1 h)⟩))
  case div rs rt | divu rs rt =>
    obtain ⟨hzero, hraise⟩ | ⟨-, hcomplete⟩ := ite_eq_iff.1 h
    · cases hraise
      exact .inr (.inr (.inr (.inl ⟨⟨rs, rt, by simp, hzero.symm⟩, rfl⟩)))
    · cases hcomplete
  case syscall => exact .inr (.inr (.inr (.inr ⟨rfl, syscallFailsWith_of_exec h⟩)))
  case lwl | lwr | swl | swr =>
    have hon : s.cfg.unalignedWordOps = true := by
      simpa [Instr.wellFormed, Instr.rejectedRow, Instr.unalignedWordOp] using hi
    cases (unalignedOnly_on hon).symm.trans h
  case breakpoint | cop0 | cop1 | cop2 | cop3 | lwc0 | lwc1 | lwc2 | lwc3 | swc0 | swc1 | swc2 | swc3 => cases hi
  all_goals cases h

/-- Each error of R250 is raised when its condition holds. -/
theorem exec_of_failsWith {i : Instr} {s : State} {e : Fault} (hd : DistinctCalls s.cfg) (h : FailsWith i s e) :
    exec i s = .fault e := by
  obtain ⟨ht, hslot⟩ | ⟨_, ⟨rt, imm, rs, hi, rfl⟩, hodd⟩ | ⟨_, ⟨rt, imm, rs, hi, rfl⟩, hmis⟩ |
    ⟨⟨rs, rt, hi, hzero⟩, rfl⟩ | ⟨rfl, hcall⟩ := h
  · exact (exec_transfer_eq_fault ht).2 hslot
  · obtain rfl | rfl | rfl := hi
    · exact loadedIf_eq_fault.2 (map_eq_error.2 (memReadHalf_eq_error.2 hodd))
    · exact loadedIf_eq_fault.2 (map_eq_error.2 (memReadHalf_eq_error.2 hodd))
    · exact storedIf_eq_fault.2 (memWriteHalf_eq_error.2 hodd)
  · obtain rfl | rfl := hi
    · exact loadedIf_eq_fault.2 (memReadWord_eq_error.2 hmis)
    · exact storedIf_eq_fault.2 (memWriteWord_eq_error.2 hmis)
  · obtain rfl | rfl := hi
    · exact if_pos hzero.symm
    · exact if_pos hzero.symm
  · exact exec_of_syscallFailsWith hd hcall

/-- Settles O8: the phases in R256's order, the `PC` check, the decoder, the execution; each that fails hides the
later ones. -/
theorem stepFailsWithTheFirstErrorItMeets : Obligations.StepFailsWithTheFirstErrorItMeets := by
  unfold Obligations.StepFailsWithTheFirstErrorItMeets
  intro s e he hd
  by_cases ha : s.pc &&& 3#32 = 0#32
  · cases hi : decode s.cfg (Memory.wordAt s.mem s.pc) with
    | none => simp [step_of_decode_eq_none he ha hi, ha, eq_comm]
    | some i =>
      obtain ⟨hw, hwf⟩ := decode_eq_some_iff.1 hi
      have hexec : exec i s = .fault e ↔ FailsWith i s e := ⟨failsWith_of_exec hwf, exec_of_failsWith hd⟩
      simp [step_of_decode he ha hw, hexec, ha]
  · simp [step_of_misaligned he ha, ha, eq_comm]

/-! ### The default loaded state (R281, R282) -/

theorem reg_defaults (cfg : Config) (r : Reg) : (State.defaults cfg).reg r = 0#32 := by
  simp [State.reg, State.defaults, RegisterSet.default]

theorem defaults_legal {cfg : Config} (h : cfg.entryPc &&& 3#32 = 0#32) : (State.defaults cfg).Legal :=
  legal_of_load (image := []) rfl h (add_four_aligned h) (by simp [RegisterSet.default]) rfl

/-- Settles O22: the hand-over of the default register set, an empty memory and an empty oracle. -/
theorem defaultLoadedStateIsLegal : Obligations.DefaultLoadedStateIsLegal := by
  unfold Obligations.DefaultLoadedStateIsLegal
  refine ⟨rfl, ?_⟩
  rintro cfg _ rfl
  exact ⟨rfl, rfl, reg_defaults cfg, rfl, rfl, rfl, rfl, rfl, rfl, Vector.toList_replicate, rfl, Memory.readByte_nil,
    fun _ => rfl, rfl, rfl, defaults_legal⟩

end Sys2Proof.Machine
end
